-- ==== Sys2Proof/Word.lean ====
section
/-! DEFINITION. The word types of the machine: 32-bit registers and addresses, 8-bit data (00_scope.md R9). -/

namespace Sys2Proof

/-- A register, an index, an address or an operand word: 32 bits (R9). -/
abbrev Word := BitVec 32

/-- A datum moved through the block: 8 bits (R9). -/
abbrev Byte := BitVec 8

end Sys2Proof
end

