-- ==== Sys2Proof/Syntax.lean ====
section
/-! DEFINITION. The operations of the block and the stimuli of the line: one constructor per row of
spec/opcode_table.json (30_encoding.md R63), with the names their operands use. -/

namespace Sys2Proof

/-- An instance id: the four bits of the field `inst` (30_encoding.md R58; at most 16 instances, R9). -/
abbrev InstId := Fin 16

/-- The five event kinds, in the dispatcher's priority order (30_encoding.md R59). -/
inductive Kind where
  | overrun
  | brk
  | parity
  | byteReceived
  | transmitReady
  deriving DecidableEq, Repr

/-- A ring select (30_encoding.md R60). -/
inductive RingSel where
  | rx
  | tx
  deriving DecidableEq, Repr

/-- One operation descriptor: three 32-bit words (30_encoding.md R56). -/
structure Descriptor where
  w0 : Word
  w1 : Word
  w2 : Word
  deriving DecidableEq, Repr

/-- Who takes the micro-steps of a row: the column `agent` of 30_encoding.md R63. -/
inductive Agent where
  | foreground
  | line
  deriving DecidableEq, Repr

/-- The operations (agent FG) and line stimuli (agent LINE) of 30_encoding.md R63, operands decoded.
`addr`, `len`, `hz`, `baud` and `handler` are the words `A` and `B` of R62. -/
inductive Instr where
  | rbPush (inst : InstId) (ring : RingSel) (byte : Byte)
  | rbPop (inst : InstId) (ring : RingSel)
  | enableClock (inst : InstId)
  | selectPins (inst : InstId) (pairing : Byte)
  | setBaud (inst : InstId) (hz baud : Word)
  /-- `tx` and `rx` are the bits `TransmitOnly` and `ReceiveOnly` of the direction mask (R61). -/
  | enableDirection (inst : InstId) (tx rx : Bool)
  | enable (inst : InstId)
  | disable (inst : InstId)
  | enableCallback (inst : InstId) (kind : Kind)
  | disableCallback (inst : InstId) (kind : Kind)
  | setCallback (inst : InstId) (kind : Kind) (handler : Word)
  | sendBlocking (inst : InstId) (addr len : Word)
  | recvBlocking (inst : InstId) (addr count : Word)
  | sendAsync (inst : InstId) (addr len : Word)
  | recvAsync (inst : InstId) (addr maxCount : Word)
  | sendBreak (inst : InstId)
  | lineRxByte (inst : InstId) (byte : Byte)
  /-- `draw` is the environment's draw `d` of 46_line.md R121. -/
  | lineRxBytePerr (inst : InstId) (draw : Bool) (byte : Byte)
  | lineBreakDetect (inst : InstId)
  | lineTxShift (inst : InstId)
  | lineTxIdle (inst : InstId)
  | lineBreakSent (inst : InstId)
  deriving DecidableEq, Repr

/-- The instance an operation names; every operation has one (30_encoding.md R58). -/
def Instr.inst : Instr → InstId
  | .rbPush i _ _ => i
  | .rbPop i _ => i
  | .enableClock i => i
  | .selectPins i _ => i
  | .setBaud i _ _ => i
  | .enableDirection i _ _ => i
  | .enable i => i
  | .disable i => i
  | .enableCallback i _ => i
  | .disableCallback i _ => i
  | .setCallback i _ _ => i
  | .sendBlocking i _ _ => i
  | .recvBlocking i _ _ => i
  | .sendAsync i _ _ => i
  | .recvAsync i _ _ => i
  | .sendBreak i => i
  | .lineRxByte i _ => i
  | .lineRxBytePerr i _ _ => i
  | .lineBreakDetect i => i
  | .lineTxShift i => i
  | .lineTxIdle i => i
  | .lineBreakSent i => i

/-- The agent of an operation: line stimuli are no operations of the program (30_encoding.md R65). -/
def Instr.agent : Instr → Agent
  | .rbPush _ _ _ => .foreground
  | .rbPop _ _ => .foreground
  | .enableClock _ => .foreground
  | .selectPins _ _ => .foreground
  | .setBaud _ _ _ => .foreground
  | .enableDirection _ _ _ => .foreground
  | .enable _ => .foreground
  | .disable _ => .foreground
  | .enableCallback _ _ => .foreground
  | .disableCallback _ _ => .foreground
  | .setCallback _ _ _ => .foreground
  | .sendBlocking _ _ _ => .foreground
  | .recvBlocking _ _ _ => .foreground
  | .sendAsync _ _ _ => .foreground
  | .recvAsync _ _ _ => .foreground
  | .sendBreak _ => .foreground
  | .lineRxByte _ _ => .line
  | .lineRxBytePerr _ _ _ => .line
  | .lineBreakDetect _ => .line
  | .lineTxShift _ => .line
  | .lineTxIdle _ => .line
  | .lineBreakSent _ => .line

/-- The pseudo-operation `CLEAR_CALLBACK inst, K` (30_encoding.md R69). -/
def Instr.clearCallback (i : InstId) (k : Kind) : Instr := .setCallback i k 0

/-- The pseudo-operation `ENABLE_TXRX inst` (30_encoding.md R69). -/
def Instr.enableTxRx (i : InstId) : Instr := .enableDirection i true true

end Sys2Proof
end

