-- ==== Sys2Proof/WellFormed.lean ====
section
/-! DEFINITION. Which terms of `Instr` stand for a legal descriptor. -/

namespace Sys2Proof

/-- An operation that some legal descriptor names. The operand types already rule out every illegal
instance field, kind and ring select; what is left is the direction mask, whose value 0 is illegal
(30_encoding.md R61). -/
def Instr.wellFormed : Instr → Bool
  | .enableDirection _ tx rx => tx || rx
  | .rbPush _ _ _ => true
  | .rbPop _ _ => true
  | .enableClock _ => true
  | .selectPins _ _ => true
  | .setBaud _ _ _ => true
  | .enable _ => true
  | .disable _ => true
  | .enableCallback _ _ => true
  | .disableCallback _ _ => true
  | .setCallback _ _ _ => true
  | .sendBlocking _ _ _ => true
  | .recvBlocking _ _ _ => true
  | .sendAsync _ _ _ => true
  | .recvAsync _ _ _ => true
  | .sendBreak _ => true
  | .lineRxByte _ _ => true
  | .lineRxBytePerr _ _ _ => true
  | .lineBreakDetect _ => true
  | .lineTxShift _ => true
  | .lineTxIdle _ => true
  | .lineBreakSent _ => true

/-- A well-formed operation on a machine of `n` instances: its instance exists (30_encoding.md R58). -/
def Instr.wellFormedOn (n : Nat) (i : Instr) : Bool := i.wellFormed && decide (i.inst.val < n)

/-- An operation that may stand in a program `P` of a machine of `n` instances: well formed and of the
foreground agent (30_encoding.md R65, R66). -/
def Instr.programmable (n : Nat) (i : Instr) : Bool :=
  i.wellFormedOn n && decide (i.agent = .foreground)

end Sys2Proof
end

