-- ==== Sys2Proof/Decode.lean ====
section
/-! DEFINITION. Decoding and encoding of descriptors (30_encoding.md R56 to R66, 46_line.md R119), and the
textual form of an operation as tokens (R68). -/

namespace Sys2Proof

/-- The rows of 30_encoding.md R63, by mnemonic. -/
inductive Mnemonic where
  | RB_PUSH | RB_POP
  | ENABLE_CLOCK | SELECT_PINS | SET_BAUD | ENABLE_DIRECTION | ENABLE | DISABLE
  | ENABLE_CALLBACK | DISABLE_CALLBACK | SET_CALLBACK
  | SEND_BLOCKING | RECV_BLOCKING | SEND_ASYNC | RECV_ASYNC | SEND_BREAK
  | LINE_RX_BYTE | LINE_RX_BYTE_PERR | LINE_BREAK_DETECT | LINE_TX_SHIFT | LINE_TX_IDLE
  | LINE_BREAK_SENT
  deriving DecidableEq, Repr

/-- The operation code of a row (30_encoding.md R63, column `op`). -/
def Mnemonic.code : Mnemonic → BitVec 8
  | .RB_PUSH => 0x01#8
  | .RB_POP => 0x02#8
  | .ENABLE_CLOCK => 0x10#8
  | .SELECT_PINS => 0x11#8
  | .SET_BAUD => 0x12#8
  | .ENABLE_DIRECTION => 0x13#8
  | .ENABLE => 0x14#8
  | .DISABLE => 0x15#8
  | .ENABLE_CALLBACK => 0x20#8
  | .DISABLE_CALLBACK => 0x21#8
  | .SET_CALLBACK => 0x22#8
  | .SEND_BLOCKING => 0x30#8
  | .RECV_BLOCKING => 0x31#8
  | .SEND_ASYNC => 0x32#8
  | .RECV_ASYNC => 0x33#8
  | .SEND_BREAK => 0x34#8
  | .LINE_RX_BYTE => 0x40#8
  | .LINE_RX_BYTE_PERR => 0x41#8
  | .LINE_BREAK_DETECT => 0x42#8
  | .LINE_TX_SHIFT => 0x43#8
  | .LINE_TX_IDLE => 0x44#8
  | .LINE_BREAK_SENT => 0x45#8

/-- Every row, in the table's order. -/
def Mnemonic.all : List Mnemonic :=
  [.RB_PUSH, .RB_POP, .ENABLE_CLOCK, .SELECT_PINS, .SET_BAUD, .ENABLE_DIRECTION, .ENABLE, .DISABLE]
  ++ [.ENABLE_CALLBACK, .DISABLE_CALLBACK, .SET_CALLBACK, .SEND_BLOCKING, .RECV_BLOCKING, .SEND_ASYNC]
  ++ [.RECV_ASYNC, .SEND_BREAK, .LINE_RX_BYTE, .LINE_RX_BYTE_PERR, .LINE_BREAK_DETECT, .LINE_TX_SHIFT]
  ++ [.LINE_TX_IDLE, .LINE_BREAK_SENT]

/-- The row of an operation code; every other code is unassigned (30_encoding.md R66). -/
def Mnemonic.ofCode (op : BitVec 8) : Option Mnemonic := Mnemonic.all.find? (fun m => m.code = op)

/-- What a row does with the field `sub` (30_encoding.md R63, column `sub`). -/
inductive SubUse where
  | zero
  | ring
  | direction
  | kind
  | draw
  deriving DecidableEq, Repr

/-- The column `sub` of 30_encoding.md R63. -/
def Mnemonic.subUse : Mnemonic → SubUse
  | .RB_PUSH => .ring
  | .RB_POP => .ring
  | .ENABLE_DIRECTION => .direction
  | .ENABLE_CALLBACK => .kind
  | .DISABLE_CALLBACK => .kind
  | .SET_CALLBACK => .kind
  | .LINE_RX_BYTE_PERR => .draw
  | .ENABLE_CLOCK | .SELECT_PINS | .SET_BAUD | .ENABLE | .DISABLE => .zero
  | .SEND_BLOCKING | .RECV_BLOCKING | .SEND_ASYNC | .RECV_ASYNC | .SEND_BREAK => .zero
  | .LINE_RX_BYTE | .LINE_BREAK_DETECT | .LINE_TX_SHIFT | .LINE_TX_IDLE | .LINE_BREAK_SENT => .zero

/-- The column `imm8` of 30_encoding.md R63: whether the row uses the byte field. -/
def Mnemonic.usesImm : Mnemonic → Bool
  | .RB_PUSH | .SELECT_PINS | .LINE_RX_BYTE | .LINE_RX_BYTE_PERR => true
  | .RB_POP | .ENABLE_CLOCK | .SET_BAUD | .ENABLE_DIRECTION | .ENABLE | .DISABLE => false
  | .ENABLE_CALLBACK | .DISABLE_CALLBACK | .SET_CALLBACK | .SEND_BLOCKING | .RECV_BLOCKING => false
  | .SEND_ASYNC | .RECV_ASYNC | .SEND_BREAK | .LINE_BREAK_DETECT | .LINE_TX_SHIFT => false
  | .LINE_TX_IDLE | .LINE_BREAK_SENT => false

/-- The column `A` of 30_encoding.md R63: whether the row uses `w1`. -/
def Mnemonic.usesA : Mnemonic → Bool
  | .SET_BAUD | .SET_CALLBACK | .SEND_BLOCKING | .RECV_BLOCKING | .SEND_ASYNC | .RECV_ASYNC => true
  | .RB_PUSH | .RB_POP | .ENABLE_CLOCK | .SELECT_PINS | .ENABLE_DIRECTION | .ENABLE => false
  | .DISABLE | .ENABLE_CALLBACK | .DISABLE_CALLBACK | .SEND_BREAK | .LINE_RX_BYTE => false
  | .LINE_RX_BYTE_PERR | .LINE_BREAK_DETECT | .LINE_TX_SHIFT | .LINE_TX_IDLE => false
  | .LINE_BREAK_SENT => false

/-- The column `B` of 30_encoding.md R63: whether the row uses `w2`. -/
def Mnemonic.usesB : Mnemonic → Bool
  | .SET_BAUD | .SEND_BLOCKING | .RECV_BLOCKING | .SEND_ASYNC | .RECV_ASYNC => true
  | .RB_PUSH | .RB_POP | .ENABLE_CLOCK | .SELECT_PINS | .ENABLE_DIRECTION | .ENABLE => false
  | .DISABLE | .ENABLE_CALLBACK | .DISABLE_CALLBACK | .SET_CALLBACK | .SEND_BREAK => false
  | .LINE_RX_BYTE | .LINE_RX_BYTE_PERR | .LINE_BREAK_DETECT | .LINE_TX_SHIFT => false
  | .LINE_TX_IDLE | .LINE_BREAK_SENT => false

/-- The code of a kind (30_encoding.md R59). -/
def Kind.code : Kind → BitVec 4
  | .overrun => 0#4
  | .brk => 1#4
  | .parity => 2#4
  | .byteReceived => 3#4
  | .transmitReady => 4#4

/-- The kind of a code; 5 to 15 are illegal (30_encoding.md R59). -/
def Kind.ofCode (c : BitVec 4) : Option Kind :=
  if c = 0#4 then some .overrun
  else if c = 1#4 then some .brk
  else if c = 2#4 then some .parity
  else if c = 3#4 then some .byteReceived
  else if c = 4#4 then some .transmitReady
  else none

/-- The code of a ring select (30_encoding.md R60). -/
def RingSel.code : RingSel → BitVec 4
  | .rx => 0#4
  | .tx => 1#4

/-- The ring of a code; 2 to 15 are illegal (30_encoding.md R60). -/
def RingSel.ofCode (c : BitVec 4) : Option RingSel :=
  if c = 0#4 then some .rx else if c = 1#4 then some .tx else none

/-- The code of a direction mask: bit 0 `TransmitOnly`, bit 1 `ReceiveOnly` (30_encoding.md R61). -/
def directionCode (tx rx : Bool) : BitVec 4 :=
  (if tx then 1#4 else 0#4) ||| (if rx then 2#4 else 0#4)

/-- The mask of a code, as its two bits; 0 and 4 to 15 are illegal (30_encoding.md R61). -/
def directionOfCode (c : BitVec 4) : Option (Bool × Bool) :=
  if c = 1#4 then some (true, false)
  else if c = 2#4 then some (false, true)
  else if c = 3#4 then some (true, true)
  else none

/-- The code of the parity draw: `sub` bit 0 (30_encoding.md R63, R68). -/
def drawCode (d : Bool) : BitVec 4 := if d then 1#4 else 0#4

/-- The draw of a code; bits 3 to 1 must be 0 (30_encoding.md R63). -/
def drawOfCode (c : BitVec 4) : Option Bool :=
  if c = 0#4 then some false else if c = 1#4 then some true else none

/-- Why a descriptor is no operation: the checks of 30_encoding.md R66 and 46_line.md R119, by name. -/
inductive Reject where
  | unassignedCode
  | reservedBitsSet
  | zeroFieldSet
  | illegalKind
  | illegalRing
  | illegalDirection
  | illegalDraw
  deriving DecidableEq, Repr

/-- The field `op` of `w0` (30_encoding.md R57). -/
def Descriptor.op (d : Descriptor) : BitVec 8 := d.w0.extractLsb' 24 8
/-- The field `inst` of `w0` (30_encoding.md R57). -/
def Descriptor.inst (d : Descriptor) : BitVec 4 := d.w0.extractLsb' 20 4
/-- The field `sub` of `w0` (30_encoding.md R57). -/
def Descriptor.sub (d : Descriptor) : BitVec 4 := d.w0.extractLsb' 16 4
/-- The field `rsv` of `w0` (30_encoding.md R57). -/
def Descriptor.rsv (d : Descriptor) : BitVec 8 := d.w0.extractLsb' 8 8
/-- The field `imm8` of `w0` (30_encoding.md R57). -/
def Descriptor.imm (d : Descriptor) : Byte := d.w0.extractLsb' 0 8

/-- Some field the row marks 0 is not 0 (30_encoding.md R66). -/
def Mnemonic.zeroFieldSet (m : Mnemonic) (d : Descriptor) : Bool :=
  (decide (m.subUse = .zero) && decide (d.sub ≠ 0#4))
  || (!m.usesImm && decide (d.imm ≠ 0#8))
  || (!m.usesA && decide (d.w1 ≠ 0#32))
  || (!m.usesB && decide (d.w2 ≠ 0#32))

/-- The operation with a kind operand, or the rejection of its code. -/
def withKind (c : BitVec 4) (f : Kind → Instr) : Except Reject Instr :=
  match Kind.ofCode c with
  | some k => .ok (f k)
  | none => .error .illegalKind

/-- The operation with a ring operand, or the rejection of its code. -/
def withRing (c : BitVec 4) (f : RingSel → Instr) : Except Reject Instr :=
  match RingSel.ofCode c with
  | some x => .ok (f x)
  | none => .error .illegalRing

/-- The operation of a row, its operands taken from the fields (30_encoding.md R58 to R63). -/
def Mnemonic.build (m : Mnemonic) (d : Descriptor) : Except Reject Instr :=
  let i : InstId := d.inst.toFin
  match m with
  | .RB_PUSH => withRing d.sub (fun x => .rbPush i x d.imm)
  | .RB_POP => withRing d.sub (fun x => .rbPop i x)
  | .ENABLE_CLOCK => .ok (.enableClock i)
  | .SELECT_PINS => .ok (.selectPins i d.imm)
  | .SET_BAUD => .ok (.setBaud i d.w1 d.w2)
  | .ENABLE_DIRECTION =>
    match directionOfCode d.sub with
    | some (tx, rx) => .ok (.enableDirection i tx rx)
    | none => .error .illegalDirection
  | .ENABLE => .ok (.enable i)
  | .DISABLE => .ok (.disable i)
  | .ENABLE_CALLBACK => withKind d.sub (fun k => .enableCallback i k)
  | .DISABLE_CALLBACK => withKind d.sub (fun k => .disableCallback i k)
  | .SET_CALLBACK => withKind d.sub (fun k => .setCallback i k d.w1)
  | .SEND_BLOCKING => .ok (.sendBlocking i d.w1 d.w2)
  | .RECV_BLOCKING => .ok (.recvBlocking i d.w1 d.w2)
  | .SEND_ASYNC => .ok (.sendAsync i d.w1 d.w2)
  | .RECV_ASYNC => .ok (.recvAsync i d.w1 d.w2)
  | .SEND_BREAK => .ok (.sendBreak i)
  | .LINE_RX_BYTE => .ok (.lineRxByte i d.imm)
  | .LINE_RX_BYTE_PERR =>
    match drawOfCode d.sub with
    | some b => .ok (.lineRxBytePerr i b d.imm)
    | none => .error .illegalDraw
  | .LINE_BREAK_DETECT => .ok (.lineBreakDetect i)
  | .LINE_TX_SHIFT => .ok (.lineTxShift i)
  | .LINE_TX_IDLE => .ok (.lineTxIdle i)
  | .LINE_BREAK_SENT => .ok (.lineBreakSent i)

/-- The decoder, total on any three words, with the checks in the order of 30_encoding.md R66. The
last check of R66, `inst >= N_INST`, needs the machine and stands in `State.begin`; a line code is
rejected in a program by the fetch (R65). -/
def decode (d : Descriptor) : Except Reject Instr :=
  match Mnemonic.ofCode d.op with
  | none => .error .unassignedCode
  | some m =>
    if d.rsv ≠ 0#8 then .error .reservedBitsSet
    else if m.zeroFieldSet d then .error .zeroFieldSet
    else m.build d

/-- The row of an operation. -/
def Instr.mnemonic : Instr → Mnemonic
  | .rbPush _ _ _ => .RB_PUSH
  | .rbPop _ _ => .RB_POP
  | .enableClock _ => .ENABLE_CLOCK
  | .selectPins _ _ => .SELECT_PINS
  | .setBaud _ _ _ => .SET_BAUD
  | .enableDirection _ _ _ => .ENABLE_DIRECTION
  | .enable _ => .ENABLE
  | .disable _ => .DISABLE
  | .enableCallback _ _ => .ENABLE_CALLBACK
  | .disableCallback _ _ => .DISABLE_CALLBACK
  | .setCallback _ _ _ => .SET_CALLBACK
  | .sendBlocking _ _ _ => .SEND_BLOCKING
  | .recvBlocking _ _ _ => .RECV_BLOCKING
  | .sendAsync _ _ _ => .SEND_ASYNC
  | .recvAsync _ _ _ => .RECV_ASYNC
  | .sendBreak _ => .SEND_BREAK
  | .lineRxByte _ _ => .LINE_RX_BYTE
  | .lineRxBytePerr _ _ _ => .LINE_RX_BYTE_PERR
  | .lineBreakDetect _ => .LINE_BREAK_DETECT
  | .lineTxShift _ => .LINE_TX_SHIFT
  | .lineTxIdle _ => .LINE_TX_IDLE
  | .lineBreakSent _ => .LINE_BREAK_SENT

/-- The field `sub` of an operation's descriptor (30_encoding.md R63). -/
def Instr.subField : Instr → BitVec 4
  | .rbPush _ x _ => x.code
  | .rbPop _ x => x.code
  | .enableDirection _ tx rx => directionCode tx rx
  | .enableCallback _ k => k.code
  | .disableCallback _ k => k.code
  | .setCallback _ k _ => k.code
  | .lineRxBytePerr _ d _ => drawCode d
  | .enableClock _ | .selectPins _ _ | .setBaud _ _ _ | .enable _ | .disable _ => 0#4
  | .sendBlocking _ _ _ | .recvBlocking _ _ _ | .sendAsync _ _ _ | .recvAsync _ _ _ => 0#4
  | .sendBreak _ | .lineRxByte _ _ | .lineBreakDetect _ | .lineTxShift _ | .lineTxIdle _ => 0#4
  | .lineBreakSent _ => 0#4

/-- The field `imm8` of an operation's descriptor (30_encoding.md R63). -/
def Instr.immField : Instr → Byte
  | .rbPush _ _ b => b
  | .selectPins _ p => p
  | .lineRxByte _ b => b
  | .lineRxBytePerr _ _ b => b
  | .rbPop _ _ | .enableClock _ | .setBaud _ _ _ | .enableDirection _ _ _ | .enable _ => 0#8
  | .disable _ | .enableCallback _ _ | .disableCallback _ _ | .setCallback _ _ _ => 0#8
  | .sendBlocking _ _ _ | .recvBlocking _ _ _ | .sendAsync _ _ _ | .recvAsync _ _ _ => 0#8
  | .sendBreak _ | .lineBreakDetect _ | .lineTxShift _ | .lineTxIdle _ | .lineBreakSent _ => 0#8

/-- The word `A` of an operation's descriptor (30_encoding.md R63). -/
def Instr.wordA : Instr → Word
  | .setBaud _ a _ => a
  | .setCallback _ _ h => h
  | .sendBlocking _ a _ => a
  | .recvBlocking _ a _ => a
  | .sendAsync _ a _ => a
  | .recvAsync _ a _ => a
  | .rbPush _ _ _ | .rbPop _ _ | .enableClock _ | .selectPins _ _ | .enableDirection _ _ _ => 0#32
  | .enable _ | .disable _ | .enableCallback _ _ | .disableCallback _ _ | .sendBreak _ => 0#32
  | .lineRxByte _ _ | .lineRxBytePerr _ _ _ | .lineBreakDetect _ | .lineTxShift _ => 0#32
  | .lineTxIdle _ | .lineBreakSent _ => 0#32

/-- The word `B` of an operation's descriptor (30_encoding.md R63). -/
def Instr.wordB : Instr → Word
  | .setBaud _ _ b => b
  | .sendBlocking _ _ n => n
  | .recvBlocking _ _ n => n
  | .sendAsync _ _ n => n
  | .recvAsync _ _ n => n
  | .rbPush _ _ _ | .rbPop _ _ | .enableClock _ | .selectPins _ _ | .enableDirection _ _ _ => 0#32
  | .enable _ | .disable _ | .enableCallback _ _ | .disableCallback _ _ | .setCallback _ _ _ => 0#32
  | .sendBreak _ | .lineRxByte _ _ | .lineRxBytePerr _ _ _ | .lineBreakDetect _ => 0#32
  | .lineTxShift _ | .lineTxIdle _ | .lineBreakSent _ => 0#32

/-- The word `w0` with the given fields, `rsv` zero (30_encoding.md R57). -/
def packW0 (op : BitVec 8) (inst sub : BitVec 4) (imm : Byte) : Word :=
  op ++ inst ++ sub ++ 0#8 ++ imm

/-- The encoder: the descriptor of an operation (30_encoding.md R57, R63). -/
def encode (i : Instr) : Descriptor where
  w0 := packW0 i.mnemonic.code (BitVec.ofFin i.inst) i.subField i.immField
  w1 := i.wordA
  w2 := i.wordB

/-- The descriptor whose bits are `w`: bit 0 is bit 0 of `w0`, bits 63 to 32 are `w1`, bits 95 to 64
`w2`; only the low `nbits` bits of `w` count. -/
def Descriptor.ofTableWord (nbits w : Nat) : Descriptor where
  w0 := BitVec.ofNat 32 (w % 2 ^ nbits)
  w1 := BitVec.ofNat 32 ((w % 2 ^ nbits) / 2 ^ 32)
  w2 := BitVec.ofNat 32 ((w % 2 ^ nbits) / 2 ^ 64)

/-- The instruction the decoder reads from a table row's bits. -/
def decodeTableWord (nbits w : Nat) : Option Instr :=
  match decode (Descriptor.ofTableWord nbits w) with
  | .ok i => some i
  | .error _ => none

/-- One operand of the textual form (30_encoding.md R68). -/
inductive AsmOperand where
  | inst (i : InstId)
  | ring (x : RingSel)
  /-- `TX`, `RX` or `TXRX`, by the mask's two bits. -/
  | direction (tx rx : Bool)
  | kind (k : Kind)
  /-- `PE0` or `PE1`. -/
  | draw (d : Bool)
  | byte (b : Byte)
  | word (w : Word)
  deriving DecidableEq, Repr

/-- The textual form of an operation, as its mnemonic and operand tokens: `inst` first, then `sub`,
`imm8`, `A`, `B`, omitting the columns marked 0 (30_encoding.md R68). -/
def Instr.assembly : Instr → Mnemonic × List AsmOperand
  | .rbPush i x b => (.RB_PUSH, [.inst i, .ring x, .byte b])
  | .rbPop i x => (.RB_POP, [.inst i, .ring x])
  | .enableClock i => (.ENABLE_CLOCK, [.inst i])
  | .selectPins i p => (.SELECT_PINS, [.inst i, .byte p])
  | .setBaud i a b => (.SET_BAUD, [.inst i, .word a, .word b])
  | .enableDirection i tx rx => (.ENABLE_DIRECTION, [.inst i, .direction tx rx])
  | .enable i => (.ENABLE, [.inst i])
  | .disable i => (.DISABLE, [.inst i])
  | .enableCallback i k => (.ENABLE_CALLBACK, [.inst i, .kind k])
  | .disableCallback i k => (.DISABLE_CALLBACK, [.inst i, .kind k])
  | .setCallback i k h => (.SET_CALLBACK, [.inst i, .kind k, .word h])
  | .sendBlocking i a n => (.SEND_BLOCKING, [.inst i, .word a, .word n])
  | .recvBlocking i a n => (.RECV_BLOCKING, [.inst i, .word a, .word n])
  | .sendAsync i a n => (.SEND_ASYNC, [.inst i, .word a, .word n])
  | .recvAsync i a n => (.RECV_ASYNC, [.inst i, .word a, .word n])
  | .sendBreak i => (.SEND_BREAK, [.inst i])
  | .lineRxByte i b => (.LINE_RX_BYTE, [.inst i, .byte b])
  | .lineRxBytePerr i d b => (.LINE_RX_BYTE_PERR, [.inst i, .draw d, .byte b])
  | .lineBreakDetect i => (.LINE_BREAK_DETECT, [.inst i])
  | .lineTxShift i => (.LINE_TX_SHIFT, [.inst i])
  | .lineTxIdle i => (.LINE_TX_IDLE, [.inst i])
  | .lineBreakSent i => (.LINE_BREAK_SENT, [.inst i])

end Sys2Proof
end

