-- ==== Sys2Proof/Config.lean ====
section
/-! DEFINITION. The parameters of 00_scope.md R9 that belong to the whole machine, what a user handler may
do (45_callbacks.md R113), and the uninterpreted free values. The parameters are a field of State that
no step changes, so a statement about every state holds for every parameter (log 1). -/

namespace Sys2Proof

/-- The flags a user handler may clear in its own instance's `STAT` (45_callbacks.md R113). -/
inductive ErrorFlag where
  | ore
  | lbd
  | pe
  deriving DecidableEq, Repr

/-- The four whole-word registers a program or a handler may write (20_memory.md R47). -/
inductive CtrlReg where
  | brr
  | ctrl
  | ctrl2
  | ctrl3
  deriving DecidableEq, Repr

/-- One change a user handler may make: the change set of 45_callbacks.md R113, element by element.
A handler's effect is a list of them. -/
inductive HandlerAct where
  /-- Clear one error flag of the instance whose dispatcher invoked the handler. -/
  | clearFlag (f : ErrorFlag)
  | writeReg (i : InstId) (r : CtrlReg) (v : Word)
  /-- A read of `DATA`, with its side effects (20_memory.md R48). -/
  | readData (i : InstId)
  /-- A write of `DATA`, with its side effects (20_memory.md R48). -/
  | writeData (i : InstId) (v : Word)
  | setCb (i : InstId) (k : Kind) (h : Word)
  | setGie (b : Bool)
  | writeMem (a : Word) (b : Byte)
  | setRingW (i : InstId) (x : RingSel) (w : Word)
  | setRingR (i : InstId) (x : RingSel) (r : Word)
  | setCell (i : InstId) (x : RingSel) (n : Word) (b : Byte)
  | setRes (v : Word)
  | setOk (b : Bool)
  | setVec (i : InstId) (b : Bool)
  | setClk (i : InstId) (b : Bool)
  | setPins (i : InstId) (p : Option Byte)
  deriving DecidableEq, Repr

/-- The relation `HANDLER(h)` of one handler id (00_scope.md R10), as data. -/
inductive HandlerDef where
  /-- One of the listed effects, freely chosen. `oneOf []` is the empty relation (a hang),
  `oneOf [[]]` the relation `id`, `oneOf [[.clearFlag .ore]]` the relation `clr_ore`. -/
  | oneOf (effects : List (List HandlerAct))
  /-- Any relation whatever within the change set: its choices are the uninterpreted constant
  `Config.freeHandler` (log 4). -/
  | free
  deriving DecidableEq, Repr

/-- The machine-wide parameters of 00_scope.md R9. The per-instance ones stand in the instance. -/
structure Config where
  /-- `IRQ_LATENCY` (60_exceptions.md R133). -/
  irqLatency : Nat
  /-- `OVERRUN_ALIAS` (10_state.md R29). -/
  overrunAlias : Bool
  /-- `DR_READ_CLEARS_ORE` (20_memory.md R48). -/
  drReadClearsOre : Bool
  /-- `HANDLER_IDS` and `HANDLER`: the known ids with their relations. The id 0 is Default, never a user
  handler, so an entry with key 0 is not consulted (10_state.md R21). -/
  handlers : List (Word × HandlerDef)
  /-- `MEM_OK`: the admitted addresses, as inclusive ranges (first, last) (20_memory.md R43). -/
  memOk : List (Word × Word)
  deriving DecidableEq, Repr

/-- The parameters of the base launch `B0` (95_test_vectors.md section 0). DESIGN CHOICE (log 1): the
parameters are open; these are only what State.reset is built with. -/
def Config.base : Config where
  irqLatency := 0
  overrunAlias := false
  drReadClearsOre := false
  handlers := [(1, .oneOf [[.clearFlag .ore]]), (2, .oneOf [[]]), (3, .oneOf [[.clearFlag .lbd]])]
  memOk := [(0x20000000, 0x200003FF)]

/-- FREE VALUE (log 3). The n-th free choice: which available move is taken when no schedule names one,
and which of a handler's listed effects happens (60_exceptions.md R134, R136; 46_line.md R117). -/
opaque Config.freeChoice : Nat → Nat

/-- FREE VALUE (log 3). The n-th free byte: what a freely chosen receive move delivers. -/
opaque Config.freeByte : Nat → Byte

/-- FREE VALUE (log 3). The n-th free draw `d` of 46_line.md R121. -/
opaque Config.freeDraw : Nat → Bool

end Sys2Proof
end

