-- ==== Sys2Proof/Machine/State.lean ====
section
/-! DEFINITION. The state of the machine, as plain data (10_state.md), why it can stop, and its reset
(70_reset_and_hazards.md R144). Field docstrings name the spec's element. -/

namespace Sys2Proof.Machine

/-- A sparse array of bytes: (address, byte) pairs in one canonical form (`Memory.wf`), an unlisted
address reading as 0x00 (log 9). Used for `MEM` and for the storage of a ring. -/
abbrev Memory := List Host.Cell

/-- Canonical form above a lower bound: addresses strictly rise from `lo` on, and no listed byte is
the 0x00 that an unlisted address reads as. -/
def Memory.wfFrom (lo : Nat) : Memory → Bool
  | [] => true
  | (a, b) :: m => decide (lo ≤ a) && decide (b ≠ 0#8) && wfFrom (a + 1) m

/-- The canonical form of a memory. -/
def Memory.wf (m : Memory) : Bool := m.wfFrom 0

/-- A ring buffer (10_state.md R18). -/
structure Ring where
  /-- The capacity is `2 ^ logC`: a power of two from 1 to 2^31 (00_scope.md R9, R11). -/
  logC : Fin 32
  /-- `buf`, by index. -/
  buf : Memory
  /-- `W`. -/
  w : Word
  /-- `R`. -/
  r : Word
  deriving DecidableEq, Repr

/-- The callback table `CB[i]`: one handler id per kind, 0 for Default (10_state.md R21). -/
structure Callbacks where
  overrun : Word
  brk : Word
  parity : Word
  byteReceived : Word
  transmitReady : Word
  deriving DecidableEq, Repr

/-- One peripheral instance `i` (00_scope.md R3). -/
structure Inst where
  /-- `PIN_PAIRINGS[i]`, a parameter (00_scope.md R9). -/
  pairings : List Byte
  /-- `RX[i]`. -/
  rx : Ring
  /-- `TX[i]`. -/
  tx : Ring
  /-- `CB[i]`. -/
  cb : Callbacks
  /-- `STAT[i]` (10_state.md R23). -/
  stat : Word
  /-- `RDR[i]` (10_state.md R24). -/
  rdr : Byte
  /-- `TDR[i]` (10_state.md R24). -/
  tdr : Byte
  /-- `BRR[i]` (10_state.md R25). -/
  brr : Word
  /-- `CTRL[i]` (10_state.md R26). -/
  ctrl : Word
  /-- `CTRL2[i]` (10_state.md R27). -/
  ctrl2 : Word
  /-- `CTRL3[i]` (10_state.md R28). -/
  ctrl3 : Word
  /-- `VEC[i]` (10_state.md R30). -/
  vec : Bool
  /-- `PEND[i]` (10_state.md R31). -/
  pend : Bool
  /-- `CLK[i]` (10_state.md R37). -/
  clk : Bool
  /-- `PINS[i]` (10_state.md R37). -/
  pins : Option Byte
  deriving DecidableEq, Repr

/-- The labels of FG's micro-steps other than an operation's first, each with its local variables
(10_state.md R17). Names are those of the operation rules. -/
inductive Label where
  | u2 (w : Word) | u3 (w : Word) | u4 (w : Word)
  | v2 (r : Word) | v3 (r : Word) (b : Byte) | v4 (r : Word) (b : Byte)
  | e2 (v : Word) | n2 (v : Word) | f2 (v : Word)
  | h2 (v : Word) | h3 | j2 (v : Word)
  | l1 (j : Nat) | l2 (j : Nat) | l3 (j : Nat) (b : Byte)
  | m1 (j : Nat) | m2 (j : Nat) | m3 (j : Nat) (b : Byte)
  | a2 (v : Word) | a3 (j : Nat) | a4 (j : Nat) (b : Byte) | a5 (j : Nat) (b : Byte) (w : Word)
  | a6 (j : Nat) (w : Word) | a7 (j : Nat) (w : Word) | a8 | a9 (v : Word)
  | g1 (j : Nat) | g2 (j : Nat) (r : Word) | g3 (j : Nat) (r : Word) (b : Byte)
  | g4 (j : Nat) (r : Word) (b : Byte) | g5 (j : Nat) (b : Byte)
  | b2 | b3 | b4 (v : Word)
  deriving DecidableEq, Repr

/-- `FG.loc` (10_state.md R17): `start`, or the operation being run with its decoded operands and the
label of its next micro-step. -/
inductive FgLoc where
  | start
  | busy (op : Instr) (label : Label)
  deriving DecidableEq, Repr

/-- The labels of the dispatcher's micro-steps with their local variables (44_dispatcher.md R95 to
R102). -/
inductive DLoc where
  | c0 | c1 | c2 | c3 | c4 | c5
  | ov1
  | bk1
  | pa1 | pa2 (b : Byte)
  | rb1 | rb2 (b : Byte) | rb3 (b : Byte) (w : Word) | rb4 (b : Byte) (w : Word)
  | rb5 (b : Byte) (w : Word) | rb6 (b : Byte)
  | tr1 | tr2 (r : Word) | tr3 (r : Word) (b : Byte) | tr4 (r : Word) (b : Byte) | tr5 (b : Byte)
  | tr6 | tr7 | tr8 (v : Word) | tr9
  | x1
  deriving DecidableEq, Repr

/-- The foreground context (10_state.md R15 to R17). -/
structure Fg where
  /-- `FG.pc`. -/
  pc : Nat
  /-- `FG.loc`. -/
  loc : FgLoc
  /-- `FG.RES`; `none` is the spec's own value `⊥` (R15). -/
  res : Option Word
  /-- `FG.OK`; `none` is the spec's own value `⊥` (R15). -/
  ok : Option Bool
  deriving DecidableEq, Repr

/-- An event of the history `TRACE` (10_state.md R39). -/
inductive Event where
  | txOut (i : InstId) (b : Byte)
  | txBreak (i : InstId)
  | callback (i : InstId) (k : Kind) (h : Word) (arg : Option Byte)
  | halt (i : InstId) (k : Kind)
  | clockEnable (i : InstId)
  | pinSelect (i : InstId) (p : Byte)
  | vectorEnable (i : InstId)
  deriving DecidableEq, Repr

/-- The reasons of `FAULT` (60_exceptions.md R139). -/
inductive FaultReason where
  | illegalEncoding
  | invalidInstance
  | invalidPinPairing
  | invalidHandler
  | divideByZero
  | baudDivisorOverflow
  | ringIndexOutOfRange
  deriving DecidableEq, Repr

/-- One choice of 60_exceptions.md R134: the agent that takes the next micro-step. -/
inductive Move where
  /-- FG's next micro-step. -/
  | fg
  /-- The entry E0 of instance `i`. -/
  | enter (i : InstId)
  /-- The active dispatcher's next micro-step. -/
  | disp
  /-- A line stimulus, as its descriptor (46_line.md R119). -/
  | line (d : Descriptor)
  deriving DecidableEq, Repr

/-- The state of the machine. -/
structure State where
  /-- The machine-wide parameters of 00_scope.md R9; no step changes them (R146; log 1). -/
  cfg : Config
  /-- The operation program `P`; no step changes it (20_memory.md R54; log 13). -/
  prog : List Descriptor
  /-- The foreground context. -/
  fg : Fg
  /-- The instances `0 .. N_INST-1`, in order of id. -/
  insts : List Inst
  /-- `GIE` (10_state.md R32). -/
  gie : Bool
  /-- `ACTIVE` (10_state.md R33). -/
  active : Option InstId
  /-- `D.loc` (10_state.md R33). -/
  dloc : Option DLoc
  /-- `LAT` (10_state.md R34). -/
  lat : Nat
  /-- `HALT` (10_state.md R35). -/
  halt : Option (InstId × Kind)
  /-- `FAULT` (10_state.md R36). -/
  fault : Option FaultReason
  /-- `MEM` (10_state.md R38), by address. -/
  mem : Memory
  /-- `TRACE` (10_state.md R39), oldest first. -/
  trace : List Event
  /-- The model's own: the next choices of the scheduler and the environment (log 2). -/
  sched : List Move
  /-- The model's own: how many free values were drawn (log 3). -/
  draws : Nat
  deriving DecidableEq, Repr

/-- Why a step can stop for good. -/
inductive Fault where
  /-- `FAULT` is set and the machine has stopped (60_exceptions.md R138). Raised by every FG, entry or
  dispatcher move of a state with `FAULT` set. Safe: the spec gives no further step. -/
  | machineFaulted (r : FaultReason)
  /-- FG is stuck at an access of `MEM` outside `MEM_OK` (20_memory.md R43, 60_exceptions.md R140). Raised
  by an FG move there; other moves still step. Safe: the spec gives FG no step. -/
  | fgStuck
  /-- The active dispatcher is stuck at an invocation whose handler relation has no successor
  (45_callbacks.md R112, R113). Raised by a dispatcher move there; line moves still step. Safe. -/
  | dispatcherStuck
  /-- No schedule is given and no agent has a step: the run has ended (10_state.md R16, 60_exceptions.md
  R142) or is stuck with a silent line. Safe. -/
  | nothingCanStep
  deriving DecidableEq, Repr

/-- Why a step has no meaning. -/
inductive Refusal where
  /-- An instruction the model gives no meaning; raised by no arm of exec. Safe. -/
  | notModelled (mnemonic : String)
  /-- The schedule's descriptor is no line stimulus of this machine (46_line.md R119: "a failing stimulus
  is also refused"). Safe. -/
  | stimulusIllegal
  /-- The stimulus is not available at its place (46_line.md R119: "a model must refuse it rather than
  skip it"). Safe. -/
  | stimulusUnavailable
  /-- The schedule names an FG, entry or dispatcher step that 60_exceptions.md R131, R133, R134 do not
  allow here (log 2). Safe. -/
  | moveUnavailable
  /-- exec was asked for a micro-step of an operation that `FG.loc` is not inside; the machine's own step
  never asks so in a reachable state (log 14). Safe. -/
  | foreignLocation
  deriving DecidableEq, Repr

/-- The outcome of a micro-step. -/
abbrev Result := Host.Outcome State Fault Refusal

/-- The launch values of one instance (70_reset_and_hazards.md R146), with the contents the spec leaves
unspecified at reset (93_implementation_defined.md U11 to U13). -/
structure InstLaunch where
  /-- `C_RX[i]`. -/
  cRx : Nat
  /-- `C_TX[i]`. -/
  cTx : Nat
  /-- `PIN_PAIRINGS[i]`. -/
  pairings : List Byte
  /-- `RDR0[i]`. -/
  rdr0 : Byte
  /-- What `TDR[i]` holds at reset: unspecified (log 6). -/
  tdr0 : Byte
  /-- What `RX[i].buf` holds at reset: unspecified (log 7). -/
  rxBuf0 : Memory
  /-- What `TX[i].buf` holds at reset: unspecified (log 7). -/
  txBuf0 : Memory
  deriving DecidableEq, Repr

/-- What a run is given: the parameters, the launch values and the program (70_reset_and_hazards.md
R146). -/
structure Launch where
  cfg : Config
  insts : List InstLaunch
  /-- `MEM0`. -/
  mem0 : Memory
  /-- `P`. -/
  prog : List Descriptor
  deriving DecidableEq, Repr

/-- A capacity the model has a machine for: a power of two from 1 to 2^31 (00_scope.md R9, R11). -/
def legalCapacity (c : Nat) : Bool := decide (c = 2 ^ c.log2) && decide (c.log2 < 32)

/-- A memory that lists only addresses below `n`. -/
def Memory.below (n : Nat) (m : Memory) : Bool := m.all (fun c => decide (c.1 < n))

/-- Launch values of an instance the model has a machine for (00_scope.md R11). -/
def InstLaunch.legal (l : InstLaunch) : Bool :=
  legalCapacity l.cRx && legalCapacity l.cTx
  && Memory.wf l.rxBuf0 && Memory.below l.cRx l.rxBuf0
  && Memory.wf l.txBuf0 && Memory.below l.cTx l.txBuf0

/-- A launch the model has a machine for: `1 <= N_INST <= 16` and every capacity a power of two
(00_scope.md R11); the launch contents of memory stand in the model's canonical form. -/
def Launch.legal (l : Launch) : Bool :=
  decide (1 ≤ l.insts.length) && decide (l.insts.length ≤ 16) && l.insts.all InstLaunch.legal
  && Memory.wf l.mem0 && Memory.below (2 ^ 32) l.mem0

/-- The exponent of a capacity. -/
def capacityLog (c : Nat) : Fin 32 := Fin.ofNat 32 c.log2

/-- An empty ring of capacity `c` with the given storage (10_state.md R19). -/
def Ring.launch (c : Nat) (buf0 : Memory) : Ring where
  logC := capacityLog c
  buf := buf0
  w := 0#32
  r := 0#32

/-- The callback set, "Initialized to Default for every kind" (10_state.md R21). -/
def Callbacks.default : Callbacks where
  overrun := 0#32
  brk := 0#32
  parity := 0#32
  byteReceived := 0#32
  transmitReady := 0#32

/-- An instance at reset (70_reset_and_hazards.md R144). -/
def InstLaunch.toInst (l : InstLaunch) : Inst where
  pairings := l.pairings
  rx := Ring.launch l.cRx l.rxBuf0
  tx := Ring.launch l.cTx l.txBuf0
  cb := Callbacks.default
  stat := 0x000000C0#32
  rdr := l.rdr0
  tdr := l.tdr0
  brr := 0x00000000#32
  ctrl := 0x00000000#32
  ctrl2 := 0x00000000#32
  ctrl3 := 0x00000000#32
  vec := false
  pend := false
  clk := false
  pins := none

/-- The reset state of a launch (70_reset_and_hazards.md R144). -/
def Launch.toState (l : Launch) : State where
  cfg := l.cfg
  prog := l.prog
  fg := { pc := 0, loc := .start, res := none, ok := none }
  insts := l.insts.map InstLaunch.toInst
  gie := true
  active := none
  dloc := none
  lat := 0
  halt := none
  fault := none
  mem := l.mem0
  trace := []
  sched := []
  draws := 0

/-- The machine of a launch, or none: an illegal configuration is refused (00_scope.md R11). -/
def State.launch (l : Launch) : Option State := if l.legal then some l.toState else none

/-- The launch `B0` of 95_test_vectors.md section 0, with no program (log 1, log 13). DESIGN CHOICE. -/
def Launch.base : Launch where
  cfg := Config.base
  insts := [{ cRx := 8, cTx := 8, pairings := [0#8, 1#8], rdr0 := 0#8, tdr0 := 0#8,
              rxBuf0 := [], txBuf0 := [] }]
  mem0 := []
  prog := []

/-- The machine right after reset: every element at the value of 70_reset_and_hazards.md R144, the
parameters and launch values those of `B0` (log 1, log 6 to log 8). -/
def State.reset : State := Launch.base.toState

end Sys2Proof.Machine

namespace Sys2Proof

/-- FREE VALUE (log 4). The choice a `HandlerDef.free` handler makes: for handler `h` invoked by `DISP[i]`
for kind `k` with argument `arg` in state `s`, the effect it has, or none where its relation has no
successor (00_scope.md R10). Nothing is known of it. -/
opaque Config.freeHandler (h : Word) (i : InstId) (k : Kind) (arg : Option Byte)
    (s : Machine.State) : Option (List HandlerAct)

end Sys2Proof
end

