-- ==== Sys2Proof/Machine/Flags.lean ====
section
/-! DEFINITION. Bits of registers: the status flags and how each data-register access and line event
changes them, the control fields, the source enables and the interrupt request line (10_state.md R22
to R29, 20_memory.md R48, 60_exceptions.md R129). -/

namespace Sys2Proof.Machine

/-- `v | (1 << n)`. -/
def setBit (v : Word) (n : Nat) : Word := v ||| (1#32 <<< n)

/-- `v & ~(1 << n)`. -/
def clearBit (v : Word) (n : Nat) : Word := v &&& ~~~(1#32 <<< n)

/-- The status flags (10_state.md R23). -/
inductive Flag where
  | pe
  | ore
  | rxne
  | tc
  | txe
  | lbd
  deriving DecidableEq, Repr

/-- The bit of a flag in `STAT` (10_state.md R23). -/
def Flag.bit : Flag → Nat
  | .pe => 0
  | .ore => 3
  | .rxne => 5
  | .tc => 6
  | .txe => 7
  | .lbd => 8

/-- The fields of `CTRL` (10_state.md R26). -/
inductive Field where
  | sbk
  | re
  | te
  | rxneie
  | txeie
  | peie
  | ue
  deriving DecidableEq, Repr

/-- The bit of a field in `CTRL` (10_state.md R26). -/
def Field.bit : Field → Nat
  | .sbk => 0
  | .re => 2
  | .te => 3
  | .rxneie => 5
  | .txeie => 7
  | .peie => 8
  | .ue => 13

/-- The bit of `LBDIE` in `CTRL2` (10_state.md R27). -/
def lbdieBit : Nat := 6

/-- The bit of `OREIE` in `CTRL3` (10_state.md R28). -/
def oreieBit : Nat := 0

/-- The named bits of `STAT` (10_state.md R23). -/
def statMask : Word := 0x000001E9#32
/-- The named bits of `BRR` (10_state.md R25). -/
def brrMask : Word := 0x0000FFFF#32
/-- The named bits of `CTRL` (10_state.md R26). -/
def ctrlMask : Word := 0x000021AD#32
/-- The named bits of `CTRL2` (10_state.md R27). -/
def ctrl2Mask : Word := 0x00000040#32
/-- The named bits of `CTRL3` (10_state.md R28). -/
def ctrl3Mask : Word := 0x00000001#32

/-- `STAT[i].f`. -/
def Inst.flag (x : Inst) (f : Flag) : Bool := x.stat.getLsbD f.bit

/-- `STAT[i].f <- 1`. -/
def Inst.raiseFlag (x : Inst) (f : Flag) : Inst := { x with stat := setBit x.stat f.bit }

/-- `STAT[i].f <- 0`. -/
def Inst.clearFlag (x : Inst) (f : Flag) : Inst := { x with stat := clearBit x.stat f.bit }

/-- `CTRL[i].f`. -/
def Inst.field (x : Inst) (f : Field) : Bool := x.ctrl.getLsbD f.bit

/-- `FLAG(i, k)` (10_state.md R29). -/
def kindFlag : Kind → Flag
  | .overrun => .ore
  | .brk => .lbd
  | .parity => .pe
  | .byteReceived => .rxne
  | .transmitReady => .txe

/-- The effective enable `EN(i, k)` (10_state.md R29). -/
def Inst.enabled (cfg : Config) (x : Inst) : Kind → Bool
  | .overrun => x.ctrl3.getLsbD oreieBit || (cfg.overrunAlias && x.field .rxneie)
  | .brk => x.ctrl2.getLsbD lbdieBit
  | .parity => x.field .peie
  | .byteReceived => x.field .rxneie
  | .transmitReady => x.field .txeie

/-- Kind `k` is a cause: its flag and its effective enable are both set (44_dispatcher.md R95). -/
def Inst.cause (cfg : Config) (x : Inst) (k : Kind) : Bool := x.flag (kindFlag k) && x.enabled cfg k

/-- `line(i)`, the interrupt request line (60_exceptions.md R129). -/
def Inst.line (cfg : Config) (x : Inst) : Bool :=
  x.cause cfg .overrun || x.cause cfg .brk || x.cause cfg .parity || x.cause cfg .byteReceived
  || x.cause cfg .transmitReady

/-- The side effects of a read of `DATA` (20_memory.md R48): RXNE and PE are cleared, and ORE too where
`DR_READ_CLEARS_ORE` holds. -/
def Inst.dataReadEffect (cfg : Config) (x : Inst) : Inst :=
  let y := (x.clearFlag .rxne).clearFlag .pe
  if cfg.drReadClearsOre then y.clearFlag .ore else y

/-- A write of `DATA` (20_memory.md R48): the byte goes to TDR, TXE and TC are cleared. -/
def Inst.dataWrite (x : Inst) (v : Word) : Inst :=
  (({ x with tdr := v.extractLsb' 0 8 } : Inst).clearFlag .txe).clearFlag .tc

/-- A byte arrives without error (46_line.md R120): it is stored, or lost to an overrun. -/
def Inst.receive (x : Inst) (b : Byte) : Inst :=
  if x.flag .rxne then x.raiseFlag .ore
  else ({ x with rdr := b } : Inst).raiseFlag .rxne

/-- A byte arrives with a parity error (46_line.md R121). -/
def Inst.receivePerr (x : Inst) (d : Bool) (b : Byte) : Inst :=
  if x.flag .rxne then (if d then (x.raiseFlag .ore).raiseFlag .pe else x.raiseFlag .ore)
  else (({ x with rdr := b } : Inst).raiseFlag .rxne).raiseFlag .pe

/-- The flag a handler act clears. -/
def errorFlag : ErrorFlag → Flag
  | .ore => .ore
  | .lbd => .lbd
  | .pe => .pe

end Sys2Proof.Machine
end

