-- ==== Sys2Proof/Machine/Operands.lean ====
section
/-! DEFINITION. Operand forms: caller-buffer addresses, direction masks, kinds as register and bit, ring
selects and ring arithmetic, callback entries, handler ids. -/

namespace Sys2Proof.Machine

/-- Every instance id. -/
def allInstIds : List InstId := [0, 1, 2, 3, 4, 5, 6, 7] ++ [8, 9, 10, 11, 12, 13, 14, 15]

/-- The address of the `j`-th byte of a caller buffer at base `a` (20_memory.md R42). -/
def bufAddr (a : Word) (j : Nat) : Word := a + BitVec.ofNat 32 j

/-- An address of `MEM_OK` (20_memory.md R43). -/
def memOk (cfg : Config) (a : Word) : Bool :=
  cfg.memOk.any (fun r => decide (r.1 ≤ a) && decide (a ≤ r.2))

/-- `zext_32` of a byte. -/
def zext (b : Byte) : Word := b.setWidth 32

/-- The bits a direction mask sets in `CTRL`: TE is bit 3, RE is bit 2 (40_configuration.md R73). -/
def directionBits (tx rx : Bool) : Word :=
  (if tx then 0x00000008#32 else 0#32) ||| (if rx then 0x00000004#32 else 0#32)

/-- The registers of one instance (10_state.md R22). -/
inductive Reg where
  | stat
  | data
  | brr
  | ctrl
  | ctrl2
  | ctrl3
  deriving DecidableEq, Repr

/-- The offset of a register in its block (10_state.md R22). -/
def Reg.offset : Reg → Nat
  | .stat => 0x00
  | .data => 0x04
  | .brr => 0x08
  | .ctrl => 0x0C
  | .ctrl2 => 0x10
  | .ctrl3 => 0x14

/-- The register a handler act writes. -/
def ctrlReg : CtrlReg → Reg
  | .brr => .brr
  | .ctrl => .ctrl
  | .ctrl2 => .ctrl2
  | .ctrl3 => .ctrl3

/-- `REG(k)`, the register of the source enable of kind `k` (45_callbacks.md, opening). -/
def enableReg : Kind → Reg
  | .overrun => .ctrl3
  | .brk => .ctrl2
  | .parity => .ctrl
  | .byteReceived => .ctrl
  | .transmitReady => .ctrl

/-- `BIT(k)`, the bit of the source enable of kind `k` (45_callbacks.md, opening). -/
def enableBit : Kind → Nat
  | .overrun => oreieBit
  | .brk => lbdieBit
  | .parity => Field.peie.bit
  | .byteReceived => Field.rxneie.bit
  | .transmitReady => Field.txeie.bit

/-- `CB[i][k]`. -/
def Callbacks.get (c : Callbacks) : Kind → Word
  | .overrun => c.overrun
  | .brk => c.brk
  | .parity => c.parity
  | .byteReceived => c.byteReceived
  | .transmitReady => c.transmitReady

/-- `CB[i][k] <- h`. -/
def Callbacks.set (c : Callbacks) (k : Kind) (h : Word) : Callbacks :=
  match k with
  | .overrun => { c with overrun := h }
  | .brk => { c with brk := h }
  | .parity => { c with parity := h }
  | .byteReceived => { c with byteReceived := h }
  | .transmitReady => { c with transmitReady := h }

/-- The relation of handler id `h`, if it is in `HANDLER_IDS` (00_scope.md R9, R10): never for the id 0. -/
def handlerDef (cfg : Config) (h : Word) : Option HandlerDef :=
  if h = 0#32 then none else cfg.handlers.lookup h

/-- An id SET_CALLBACK accepts: Default or a member of `HANDLER_IDS` (45_callbacks.md R110). -/
def legalHandler (cfg : Config) (h : Word) : Bool :=
  decide (h = 0#32) || (handlerDef cfg h).isSome

/-- The ring of a ring select (30_encoding.md R60). -/
def Inst.ring (x : Inst) : RingSel → Ring
  | .rx => x.rx
  | .tx => x.tx

/-- Replaces a ring of an instance. -/
def Inst.setRing (x : Inst) (sel : RingSel) (q : Ring) : Inst :=
  match sel with
  | .rx => { x with rx := q }
  | .tx => { x with tx := q }

/-- The capacity `C` of a ring (10_state.md R18). -/
def Ring.cap (q : Ring) : Word := 1#32 <<< q.logC.val

/-- The masked successor of an index: `(index + 1) & (C - 1)` (41_ring_buffer.md R77). -/
def Ring.wrap (q : Ring) (n : Word) : Word := (n + 1#32) &&& (q.cap - 1#32)

/-- A ring is empty exactly when `W = R` (41_ring_buffer.md R78). -/
def Ring.empty (q : Ring) : Bool := decide (q.w = q.r)

/-- The occupancy `(W - R) & (C - 1)` (41_ring_buffer.md R79). -/
def Ring.occupancy (q : Ring) : Word := (q.w - q.r) &&& (q.cap - 1#32)

/-- The numeric value of `FAULT` (60_exceptions.md R139). -/
def FaultReason.code : FaultReason → Nat
  | .illegalEncoding => 1
  | .invalidInstance => 2
  | .invalidPinPairing => 3
  | .invalidHandler => 4
  | .divideByZero => 5
  | .baudDivisorOverflow => 6
  | .ringIndexOutOfRange => 7

end Sys2Proof.Machine
end

