-- ==== Sys2Proof/Machine/Ops.lean ====
section
/-! DEFINITION. The shared operations: memory, instances and registers, rings, the bookkeeping of FG and
of the dispatcher, raising a fault, entering and leaving a dispatcher, the pending latch and the
latency counter, and invoking a callback. -/

namespace Sys2Proof.Machine

/-! Memory -/

/-- The byte at an address; an unlisted address reads as 0x00 (log 9). -/
def Memory.read : Memory → Nat → Byte
  | [], _ => 0#8
  | (a, b) :: m, x => if x = a then b else Memory.read m x

/-- Stores a byte, keeping the canonical form: storing 0x00 removes the entry. -/
def Memory.write : Memory → Nat → Byte → Memory
  | [], x, v => if v = 0#8 then [] else [(x, v)]
  | (a, b) :: m, x, v =>
    if x < a then (if v = 0#8 then (a, b) :: m else (x, v) :: (a, b) :: m)
    else if x = a then (if v = 0#8 then m else (a, v) :: m)
    else (a, b) :: Memory.write m x v

/-! Instances and registers -/

/-- What an id at or above `N_INST` reads as; no rule reads it on a machine's own path, since every
operation checks its instance first (30_encoding.md R66). -/
def Inst.absent : Inst :=
  InstLaunch.toInst { cRx := 1, cTx := 1, pairings := [], rdr0 := 0#8, tdr0 := 0#8,
                      rxBuf0 := [], txBuf0 := [] }

/-- `i < N_INST`. -/
def State.has (s : State) (i : InstId) : Bool := decide (i.val < s.insts.length)

/-- Instance `i`. -/
def State.inst (s : State) (i : InstId) : Inst := s.insts.getD i.val Inst.absent

/-- Changes instance `i`; an id at or above `N_INST` changes nothing. -/
def State.modInst (s : State) (i : InstId) (f : Inst → Inst) : State :=
  { s with insts := s.insts.modify i.val f }

/-- The value `RegRead` returns, reserved bits 0 (20_memory.md R46, R48). -/
def Inst.reg (x : Inst) : Reg → Word
  | .stat => x.stat &&& statMask
  | .data => zext x.rdr
  | .brr => x.brr &&& brrMask
  | .ctrl => x.ctrl &&& ctrlMask
  | .ctrl2 => x.ctrl2 &&& ctrl2Mask
  | .ctrl3 => x.ctrl3 &&& ctrl3Mask

/-- What `RegRead` changes: nothing, but for a read of `DATA` (20_memory.md R46, R48). -/
def Inst.regReadEffect (cfg : Config) (x : Inst) : Reg → Inst
  | .data => x.dataReadEffect cfg
  | .stat => x
  | .brr => x
  | .ctrl => x
  | .ctrl2 => x
  | .ctrl3 => x

/-- `RegWrite` (20_memory.md R47, R48): reserved bits are ignored. `STAT` is no writable register and a
write of it changes nothing (log 15). -/
def Inst.regWrite (x : Inst) (r : Reg) (v : Word) : Inst :=
  match r with
  | .stat => x
  | .data => x.dataWrite v
  | .brr => { x with brr := v &&& brrMask }
  | .ctrl => { x with ctrl := v &&& ctrlMask }
  | .ctrl2 => { x with ctrl2 := v &&& ctrl2Mask }
  | .ctrl3 => { x with ctrl3 := v &&& ctrl3Mask }

/-- The value of `RegRead(i, r)`. -/
def State.regVal (s : State) (i : InstId) (r : Reg) : Word := (s.inst i).reg r

/-- The state after `RegRead(i, r)`. -/
def State.regReadEffect (s : State) (i : InstId) (r : Reg) : State :=
  s.modInst i (fun x => x.regReadEffect s.cfg r)

/-- `RegWrite(i, r, v)`. -/
def State.regWrite (s : State) (i : InstId) (r : Reg) (v : Word) : State :=
  s.modInst i (fun x => x.regWrite r v)

/-! Rings -/

/-- `RX[i]` or `TX[i]`. -/
def State.ring (s : State) (i : InstId) (x : RingSel) : Ring := (s.inst i).ring x

/-- Changes a ring. -/
def State.modRing (s : State) (i : InstId) (x : RingSel) (f : Ring → Ring) : State :=
  s.modInst i (fun y => y.setRing x (f (y.ring x)))

/-- `X.W <- w`. -/
def State.setRingW (s : State) (i : InstId) (x : RingSel) (w : Word) : State :=
  s.modRing i x (fun q => { q with w := w })

/-- `X.R <- r`. -/
def State.setRingR (s : State) (i : InstId) (x : RingSel) (r : Word) : State :=
  s.modRing i x (fun q => { q with r := r })

/-- `X.buf[n] <- b`. -/
def State.setCell (s : State) (i : InstId) (x : RingSel) (n : Word) (b : Byte) : State :=
  s.modRing i x (fun q => { q with buf := Memory.write q.buf n.toNat b })

/-! The foreground context -/

/-- `FG.loc` becomes the given label of the given operation. -/
def State.goto (s : State) (op : Instr) (l : Label) : State :=
  { s with fg := { s.fg with loc := .busy op l } }

/-- The last micro-step's `FG.pc <- FG.pc + 1` and `FG.loc <- start` (10_state.md R16). -/
def State.finish (s : State) : State :=
  { s with fg := { s.fg with pc := s.fg.pc + 1, loc := .start } }

/-- `FG.RES <- v`. -/
def State.setRes (s : State) (v : Word) : State := { s with fg := { s.fg with res := some v } }

/-- `FG.OK <- b`. -/
def State.setOk (s : State) (b : Bool) : State := { s with fg := { s.fg with ok := some b } }

/-- `emit E` (10_state.md R39). -/
def State.emit (s : State) (e : Event) : State := { s with trace := s.trace ++ [e] }

/-! Taking an exception: a fault, a dispatcher entry, and the return from one -/

/-- `raise Fault(r)`: the step makes no other change and sets `FAULT` (60_exceptions.md R138). -/
def State.raise (s : State) (r : FaultReason) : Result := .next { s with fault := some r }

/-- The entry E0 of `DISP[i]` (60_exceptions.md R131): `PEND[i] <- 0; ACTIVE <- i; D.loc <- C0`. It saves
nothing and changes no mask. -/
def State.enter (s : State) (i : InstId) : State :=
  { s.modInst i (fun x => { x with pend := false }) with active := some i, dloc := some .c0 }

/-- The exit X1, the only return from handler context (44_dispatcher.md R102, 60_exceptions.md R137). -/
def State.exit (s : State) : State :=
  { s with active := none, dloc := none, lat := s.cfg.irqLatency }

/-- The common first step of an FG operation: the last decode check, `inst >= N_INST` (30_encoding.md
R66, 40_configuration.md opening). -/
def State.begin (s : State) (i : InstId) (k : State → Result) : Result :=
  if s.has i then k s else s.raise .invalidInstance

/-- `MemRead(a, 1)`, or stuck outside `MEM_OK` (20_memory.md R41, R43). -/
def State.memRead (s : State) (a : Word) (k : Byte → Result) : Result :=
  if memOk s.cfg a then k (Memory.read s.mem a.toNat) else .fault .fgStuck

/-- `MemWrite(a, 1, b)`, or stuck outside `MEM_OK` (20_memory.md R41, R43). -/
def State.memWrite (s : State) (a : Word) (b : Byte) (k : State → Result) : Result :=
  if memOk s.cfg a then k { s with mem := Memory.write s.mem a.toNat b } else .fault .fgStuck

/-- Step p2 of PUSH: the range check of the index read, then the storage write (41_ring_buffer.md R80). -/
def State.pushCell (s : State) (i : InstId) (x : RingSel) (w : Word) (b : Byte)
    (k : State → Result) : Result :=
  if (s.ring i x).cap ≤ w then s.raise .ringIndexOutOfRange else k (s.setCell i x w b)

/-- Step q2 of POP: the range check of the index read, then the storage read (41_ring_buffer.md R81). -/
def State.popCell (s : State) (i : InstId) (x : RingSel) (r : Word) (k : Byte → Result) : Result :=
  if (s.ring i x).cap ≤ r then s.raise .ringIndexOutOfRange
  else k (Memory.read (s.ring i x).buf r.toNat)

/-- Step p3 of PUSH: the increment (41_ring_buffer.md R80). -/
def State.pushIncrement (s : State) (i : InstId) (x : RingSel) (w : Word) : State :=
  s.setRingW i x (w + 1#32)

/-- Step p4 of PUSH: the mask (41_ring_buffer.md R80). -/
def State.pushMask (s : State) (i : InstId) (x : RingSel) (w : Word) : State :=
  s.setRingW i x ((s.ring i x).wrap w)

/-- Step q3 of POP: the increment (41_ring_buffer.md R81). -/
def State.popIncrement (s : State) (i : InstId) (x : RingSel) (r : Word) : State :=
  s.setRingR i x (r + 1#32)

/-- Step q4 of POP: the mask (41_ring_buffer.md R81). -/
def State.popMask (s : State) (i : InstId) (x : RingSel) (r : Word) : State :=
  s.setRingR i x ((s.ring i x).wrap r)

/-! The interrupt mechanism -/

/-- The part of `allowed(i)` that names no instance (60_exceptions.md R131). -/
def State.entriesOpen (s : State) : Bool :=
  s.halt.isNone && s.fault.isNone && s.gie && s.active.isNone

/-- `allowed(i)` (60_exceptions.md R131). -/
def State.allowed (s : State) (i : InstId) : Bool :=
  s.entriesOpen && s.has i && (s.inst i).vec && (s.inst i).pend

/-- Some `i` has `allowed(i)` (60_exceptions.md R133). -/
def State.someAllowed (s : State) : Bool := allInstIds.any s.allowed

/-- The pending latch of one instance after a micro-step (60_exceptions.md R130). `before` is whether its
line was asserted before the step, `mine` whether its own dispatcher is active after it. -/
def Inst.latch (cfg : Config) (before mine : Bool) (x : Inst) : Inst :=
  if x.line cfg && (!mine || !before) then { x with pend := true } else x

/-- The pending latches after a micro-step that led from `s` to `t` (60_exceptions.md R130). -/
def State.latchAll (s t : State) : State :=
  { t with insts := t.insts.mapIdx (fun n x =>
      let before := (s.insts.getD n Inst.absent).line s.cfg
      let mine := decide (t.active.map Fin.val = some n)
      x.latch t.cfg before mine) }

/-- The latency counter after a micro-step (60_exceptions.md R133; log 12). -/
def State.countLatency (byFg : Bool) (t : State) : State :=
  if t.someAllowed then (if byFg then { t with lat := t.lat + 1 } else t) else { t with lat := 0 }

/-- What follows every micro-step: the pending latches, then the latency counter. A micro-step that
raised a fault makes no other change (60_exceptions.md R138; log 10). -/
def State.settle (byFg : Bool) (s t : State) : State :=
  if t.fault.isSome then t else (s.latchAll t).countLatency byFg

/-! User handlers and callbacks -/

/-- One change of a user handler invoked by `DISP[i]` (45_callbacks.md R113). A change that names no
existing instance, ring cell, handler id or admitted address changes nothing (log 4). -/
def State.act (s : State) (i : InstId) : HandlerAct → State
  | .clearFlag f => s.modInst i (fun x => x.clearFlag (errorFlag f))
  | .writeReg j r v => s.regWrite j (ctrlReg r) v
  | .readData j => s.regReadEffect j .data
  | .writeData j v => s.regWrite j .data v
  | .setCb j k h =>
    if legalHandler s.cfg h then s.modInst j (fun x => { x with cb := x.cb.set k h }) else s
  | .setGie b => { s with gie := b }
  | .writeMem a b =>
    if memOk s.cfg a then { s with mem := Memory.write s.mem a.toNat b } else s
  | .setRingW j x w => s.setRingW j x w
  | .setRingR j x r => s.setRingR j x r
  | .setCell j x n b => if (s.ring j x).cap ≤ n then s else s.setCell j x n b
  | .setRes v => s.setRes v
  | .setOk b => s.setOk b
  | .setVec j b => s.modInst j (fun x => { x with vec := b })
  | .setClk j b => s.modInst j (fun x => { x with clk := b })
  | .setPins j p => s.modInst j (fun x => { x with pins := p })

/-- The changes of a handler, in order. -/
def State.acts (s : State) (i : InstId) (l : List HandlerAct) : State :=
  l.foldl (fun t a => t.act i a) s

/-- `choose S' with HANDLER(h)(i, k, arg, S, S')` (45_callbacks.md R112), or none where the relation has
no successor. More than one listed effect is a free choice, which a draw is counted for (log 3). -/
def State.runHandler (s : State) (h : Word) (i : InstId) (k : Kind) (arg : Option Byte) :
    Option State :=
  match handlerDef s.cfg h with
  | none => none
  | some (.oneOf []) => none
  | some (.oneOf [l]) => some (s.acts i l)
  | some (.oneOf l) =>
    (l[Config.freeChoice s.draws % l.length]?).map fun a =>
      ({ s with draws := s.draws + 1 } : State).acts i a
  | some .free =>
    (Config.freeHandler h i k arg s).map fun a =>
      ({ s with draws := s.draws + 1 } : State).acts i a

/-- The kinds whose Default is the fail-fast halt (45_callbacks.md R114). -/
def fatal : Kind → Bool
  | .overrun => true
  | .brk => true
  | .parity => true
  | .byteReceived => false
  | .transmitReady => false

/-- `default_halt(i, k)` (45_callbacks.md R114). -/
def State.defaultHalt (s : State) (i : InstId) (k : Kind) : State :=
  ({ s with gie := false, halt := some (i, k) } : State).emit (.halt i k)

/-- `D.loc` becomes the given label. -/
def State.dgoto (s : State) (l : DLoc) : State := { s with dloc := some l }

/-- `invoke(k, arg)`, one micro-step of `DISP[i]`, going on at `next` (45_callbacks.md R112). -/
def State.invoke (s : State) (i : InstId) (k : Kind) (arg : Option Byte) (next : DLoc) : Result :=
  let h := (s.inst i).cb.get k
  if h ≠ 0#32 then
    match s.runHandler h i k arg with
    | some t => .next ((t.emit (.callback i k h arg)).dgoto next)
    | none => .fault .dispatcherStuck
  else if fatal k then .next (s.defaultHalt i k)
  else .next (s.dgoto next)

end Sys2Proof.Machine
end

