-- ==== Sys2Proof/Machine/Async.lean ====
section
/-! DEFINITION. The asynchronous transfers and the break request (43_async.md R90, R92, R94). -/

namespace Sys2Proof.Machine

/-- SEND_ASYNC, steps A1 to A9 (43_async.md R90). -/
def execSendAsync (i : InstId) (a n : Word) (s : State) : Result :=
  let op := Instr.sendAsync i a n
  match s.fg.loc with
  | .start => s.begin i (fun t => .next (t.goto op (.a2 (t.regVal i .ctrl))))
  | .busy _ (.a2 v) =>
    let t := s.regWrite i .ctrl (clearBit v Field.txeie.bit)
    .next (t.goto op (if n = 0#32 then .a8 else .a3 0))
  | .busy _ (.a3 j) => s.memRead (bufAddr a j) (fun b => .next (s.goto op (.a4 j b)))
  | .busy _ (.a4 j b) => .next (s.goto op (.a5 j b (s.ring i .tx).w))
  | .busy _ (.a5 j b w) => s.pushCell i .tx w b (fun t => .next (t.goto op (.a6 j w)))
  | .busy _ (.a6 j w) => .next ((s.pushIncrement i .tx w).goto op (.a7 j w))
  | .busy _ (.a7 j w) =>
    .next ((s.pushMask i .tx w).goto op (if j + 1 < n.toNat then .a3 (j + 1) else .a8))
  | .busy _ .a8 => .next (s.goto op (.a9 (s.regVal i .ctrl)))
  | .busy _ (.a9 v) => .next (s.regWrite i .ctrl (setBit v Field.txeie.bit)).finish
  | _ => .refused .foreignLocation

/-- RECV_ASYNC, steps G0 to G5 (43_async.md R92). -/
def execRecvAsync (i : InstId) (a n : Word) (s : State) : Result :=
  let op := Instr.recvAsync i a n
  match s.fg.loc with
  | .start => s.begin i (fun t =>
      if n = 0#32 then .next (t.setRes 0#32).finish else .next (t.goto op (.g1 0)))
  | .busy _ (.g1 j) =>
    if (s.ring i .rx).empty then .next (s.setRes (BitVec.ofNat 32 j)).finish
    else .next (s.goto op (.g2 j (s.ring i .rx).r))
  | .busy _ (.g2 j r) => s.popCell i .rx r (fun b => .next (s.goto op (.g3 j r b)))
  | .busy _ (.g3 j r b) => .next ((s.popIncrement i .rx r).goto op (.g4 j r b))
  | .busy _ (.g4 j r b) => .next ((s.popMask i .rx r).goto op (.g5 j b))
  | .busy _ (.g5 j b) => s.memWrite (bufAddr a j) b (fun t =>
      if j + 1 = n.toNat then .next (t.setRes (BitVec.ofNat 32 (j + 1))).finish
      else .next (t.goto op (.g1 (j + 1))))
  | _ => .refused .foreignLocation

/-- SEND_BREAK, steps B1 to B4 (43_async.md R94). -/
def execSendBreak (i : InstId) (s : State) : Result :=
  let op := Instr.sendBreak i
  match s.fg.loc with
  | .start => s.begin i (fun t => .next (t.goto op (if (t.inst i).field .sbk then .b2 else .b3)))
  | .busy _ .b2 => .next (s.goto op (if (s.inst i).field .sbk then .b2 else .b3))
  | .busy _ .b3 => .next (s.goto op (.b4 (s.regVal i .ctrl)))
  | .busy _ (.b4 v) => .next (s.regWrite i .ctrl (setBit v Field.sbk.bit)).finish
  | _ => .refused .foreignLocation

end Sys2Proof.Machine
end

