-- ==== Sys2Proof/Machine/Blocking.lean ====
section
/-! DEFINITION. The blocking transfers (42_blocking.md R88, R89). Each poll is one micro-step. -/

namespace Sys2Proof.Machine

/-- SEND_BLOCKING, steps L0 to L3 (42_blocking.md R88). -/
def execSendBlocking (i : InstId) (a n : Word) (s : State) : Result :=
  let op := Instr.sendBlocking i a n
  match s.fg.loc with
  | .start => s.begin i (fun t =>
      if n = 0#32 then .next t.finish else .next (t.goto op (.l1 0)))
  | .busy _ (.l1 j) => .next (s.goto op (if (s.inst i).flag .txe then .l2 j else .l1 j))
  | .busy _ (.l2 j) => s.memRead (bufAddr a j) (fun b => .next (s.goto op (.l3 j b)))
  | .busy _ (.l3 j b) =>
    let t := s.regWrite i .data (zext b)
    if j + 1 = n.toNat then .next t.finish else .next (t.goto op (.l1 (j + 1)))
  | _ => .refused .foreignLocation

/-- RECV_BLOCKING, steps M0 to M3 (42_blocking.md R89). -/
def execRecvBlocking (i : InstId) (a n : Word) (s : State) : Result :=
  let op := Instr.recvBlocking i a n
  match s.fg.loc with
  | .start => s.begin i (fun t =>
      if n = 0#32 then .next t.finish else .next (t.goto op (.m1 0)))
  | .busy _ (.m1 j) => .next (s.goto op (if (s.inst i).flag .rxne then .m2 j else .m1 j))
  | .busy _ (.m2 j) =>
    .next ((s.regReadEffect i .data).goto op (.m3 j ((s.regVal i .data).extractLsb' 0 8)))
  | .busy _ (.m3 j b) => s.memWrite (bufAddr a j) b (fun t =>
      if j + 1 = n.toNat then .next t.finish else .next (t.goto op (.m1 (j + 1))))
  | _ => .refused .foreignLocation

end Sys2Proof.Machine
end

