-- ==== Sys2Proof/Machine/Callback.lean ====
section
/-! DEFINITION. The operations on source enables and on the handler table (45_callbacks.md R108 to
R110). The invocation of a callback (R112, R114) stands in Ops.lean. -/

namespace Sys2Proof.Machine

/-- The effect of step H3 (45_callbacks.md R108): the vector is enabled once. -/
def State.enableVector (s : State) (i : InstId) : State :=
  if (s.inst i).vec then s
  else (s.modInst i (fun x => { x with vec := true })).emit (.vectorEnable i)

/-- ENABLE_CALLBACK, steps H1 to H3 (45_callbacks.md R108). -/
def execEnableCallback (i : InstId) (k : Kind) (s : State) : Result :=
  let op := Instr.enableCallback i k
  match s.fg.loc with
  | .start => s.begin i (fun t => .next (t.goto op (.h2 (t.regVal i (enableReg k)))))
  | .busy _ (.h2 v) => .next ((s.regWrite i (enableReg k) (setBit v (enableBit k))).goto op .h3)
  | .busy _ .h3 => .next (s.enableVector i).finish
  | _ => .refused .foreignLocation

/-- DISABLE_CALLBACK, steps J1 and J2 (45_callbacks.md R109). -/
def execDisableCallback (i : InstId) (k : Kind) (s : State) : Result :=
  match s.fg.loc with
  | .start => s.begin i (fun t =>
      .next (t.goto (.disableCallback i k) (.j2 (t.regVal i (enableReg k)))))
  | .busy _ (.j2 v) => .next (s.regWrite i (enableReg k) (clearBit v (enableBit k))).finish
  | _ => .refused .foreignLocation

/-- SET_CALLBACK, step Z1 (45_callbacks.md R110). -/
def execSetCallback (i : InstId) (k : Kind) (h : Word) (s : State) : Result :=
  match s.fg.loc with
  | .start => s.begin i (fun t =>
      if legalHandler t.cfg h then
        .next (t.modInst i (fun x => { x with cb := x.cb.set k h })).finish
      else t.raise .invalidHandler)
  | _ => .refused .foreignLocation

end Sys2Proof.Machine
end

