-- ==== Sys2Proof/Machine/Configuration.lean ====
section
/-! DEFINITION. The configuration operations (40_configuration.md R70 to R75). -/

namespace Sys2Proof.Machine

/-- ENABLE_CLOCK, step K1 (40_configuration.md R70). -/
def execEnableClock (i : InstId) (s : State) : Result :=
  match s.fg.loc with
  | .start => s.begin i (fun t =>
      .next ((t.modInst i (fun x => { x with clk := true })).emit (.clockEnable i)).finish)
  | _ => .refused .foreignLocation

/-- SELECT_PINS, step S1 (40_configuration.md R71). -/
def execSelectPins (i : InstId) (p : Byte) (s : State) : Result :=
  match s.fg.loc with
  | .start => s.begin i (fun t =>
      if (t.inst i).pairings.contains p then
        .next ((t.modInst i (fun x => { x with pins := some p })).emit (.pinSelect i p)).finish
      else t.raise .invalidPinPairing)
  | _ => .refused .foreignLocation

/-- SET_BAUD, step D1 (40_configuration.md R72). -/
def execSetBaud (i : InstId) (hz baud : Word) (s : State) : Result :=
  match s.fg.loc with
  | .start => s.begin i (fun t =>
      if baud = 0#32 then t.raise .divideByZero
      else if 2 ^ 16 ≤ hz.toNat / baud.toNat then t.raise .baudDivisorOverflow
      else .next (t.regWrite i .brr (BitVec.ofNat 32 (hz.toNat / baud.toNat))).finish)
  | _ => .refused .foreignLocation

/-- ENABLE_DIRECTION, steps E1 and E2 (40_configuration.md R73). -/
def execEnableDirection (i : InstId) (tx rx : Bool) (s : State) : Result :=
  match s.fg.loc with
  | .start => s.begin i (fun t =>
      .next (t.goto (.enableDirection i tx rx) (.e2 (t.regVal i .ctrl))))
  | .busy _ (.e2 v) => .next (s.regWrite i .ctrl (v ||| directionBits tx rx)).finish
  | _ => .refused .foreignLocation

/-- ENABLE, steps N1 and N2 (40_configuration.md R74). -/
def execEnable (i : InstId) (s : State) : Result :=
  match s.fg.loc with
  | .start => s.begin i (fun t => .next (t.goto (.enable i) (.n2 (t.regVal i .ctrl))))
  | .busy _ (.n2 v) => .next (s.regWrite i .ctrl (setBit v Field.ue.bit)).finish
  | _ => .refused .foreignLocation

/-- DISABLE, steps F1 and F2 (40_configuration.md R75). -/
def execDisable (i : InstId) (s : State) : Result :=
  match s.fg.loc with
  | .start => s.begin i (fun t => .next (t.goto (.disable i) (.f2 (t.regVal i .ctrl))))
  | .busy _ (.f2 v) => .next (s.regWrite i .ctrl (clearBit v Field.ue.bit)).finish
  | _ => .refused .foreignLocation

end Sys2Proof.Machine
end

