-- ==== Sys2Proof/Machine/Line.lean ====
section
/-! DEFINITION. The moves of the line agent (46_line.md R116 to R126). A stimulus that is not available
is refused, never skipped (R119). -/

namespace Sys2Proof.Machine

/-- The receive gate (46_line.md R116). -/
def Inst.rxGate (x : Inst) : Bool := x.clk && x.field .ue && x.field .re

/-- The transmit gate (46_line.md R116). -/
def Inst.txGate (x : Inst) : Bool := x.clk && x.field .ue && x.field .te

/-- One line move of instance `i`, or its refusal: the instance must exist (46_line.md R119) and the
move must be available. -/
def State.lineMove (s : State) (i : InstId) (available : Bool) (t : State) : Result :=
  if s.has i then (if available then .next t else .refused .stimulusUnavailable)
  else .refused .stimulusIllegal

/-- LINE_RX_BYTE (46_line.md R120). -/
def execLineRxByte (i : InstId) (b : Byte) (s : State) : Result :=
  s.lineMove i (s.inst i).rxGate (s.modInst i (fun x => x.receive b))

/-- LINE_RX_BYTE_PERR (46_line.md R121). -/
def execLineRxBytePerr (i : InstId) (d : Bool) (b : Byte) (s : State) : Result :=
  s.lineMove i (s.inst i).rxGate (s.modInst i (fun x => x.receivePerr d b))

/-- LINE_BREAK_DETECT (46_line.md R122). -/
def execLineBreakDetect (i : InstId) (s : State) : Result :=
  s.lineMove i (s.inst i).rxGate (s.modInst i (fun x => x.raiseFlag .lbd))

/-- LINE_TX_SHIFT (46_line.md R124). -/
def execLineTxShift (i : InstId) (s : State) : Result :=
  s.lineMove i ((s.inst i).txGate && !(s.inst i).flag .txe)
    ((s.emit (.txOut i (s.inst i).tdr)).modInst i (fun x => x.raiseFlag .txe))

/-- LINE_TX_IDLE (46_line.md R125). -/
def execLineTxIdle (i : InstId) (s : State) : Result :=
  s.lineMove i ((s.inst i).txGate && (s.inst i).flag .txe && !(s.inst i).flag .tc)
    (s.modInst i (fun x => x.raiseFlag .tc))

/-- LINE_BREAK_SENT (46_line.md R126): one micro-step that changes `CTRL` (20_memory.md R49). -/
def execLineBreakSent (i : InstId) (s : State) : Result :=
  s.lineMove i ((s.inst i).txGate && (s.inst i).field .sbk)
    ((s.emit (.txBreak i)).modInst i (fun x => { x with ctrl := clearBit x.ctrl Field.sbk.bit }))

end Sys2Proof.Machine
end

