-- ==== Sys2Proof/Machine/Ring.lean ====
section
/-! DEFINITION. The ring operations RB_PUSH and RB_POP (41_ring_buffer.md R86, R87). Each call is one
micro-step, the one `FG.loc` names. -/

namespace Sys2Proof.Machine

/-- RB_PUSH, steps U1 to U4 (41_ring_buffer.md R86). -/
def execRbPush (i : InstId) (x : RingSel) (b : Byte) (s : State) : Result :=
  let op := Instr.rbPush i x b
  match s.fg.loc with
  | .start => s.begin i (fun t => .next (t.goto op (.u2 (t.ring i x).w)))
  | .busy _ (.u2 w) => s.pushCell i x w b (fun t => .next (t.goto op (.u3 w)))
  | .busy _ (.u3 w) => .next ((s.pushIncrement i x w).goto op (.u4 w))
  | .busy _ (.u4 w) => .next ((s.pushMask i x w).setOk true).finish
  | _ => .refused .foreignLocation

/-- RB_POP, steps V1 to V4 (41_ring_buffer.md R87). -/
def execRbPop (i : InstId) (x : RingSel) (s : State) : Result :=
  let op := Instr.rbPop i x
  match s.fg.loc with
  | .start => s.begin i (fun t =>
      if (t.ring i x).empty then .next ((t.setOk false).setRes 0#32).finish
      else .next (t.goto op (.v2 (t.ring i x).r)))
  | .busy _ (.v2 r) => s.popCell i x r (fun b => .next (s.goto op (.v3 r b)))
  | .busy _ (.v3 r b) => .next ((s.popIncrement i x r).goto op (.v4 r b))
  | .busy _ (.v4 r b) => .next (((s.popMask i x r).setOk true).setRes (zext b)).finish
  | _ => .refused .foreignLocation

end Sys2Proof.Machine
end

