-- ==== Sys2Proof/Machine/Dispatch.lean ====
section
/-! DEFINITION. The meaning of each instruction: one micro-step of its agent. -/

namespace Sys2Proof.Machine

def exec (i : Instr) (s : State) : Host.Outcome State Fault Refusal :=
  match i with
  -- Ring buffer
  | .rbPush inst ring byte => Sys2Proof.Machine.execRbPush inst ring byte s
  | .rbPop inst ring => Sys2Proof.Machine.execRbPop inst ring s
  -- Configuration
  | .enableClock inst => Sys2Proof.Machine.execEnableClock inst s
  | .selectPins inst pairing => Sys2Proof.Machine.execSelectPins inst pairing s
  | .setBaud inst hz baud => Sys2Proof.Machine.execSetBaud inst hz baud s
  | .enableDirection inst tx rx => Sys2Proof.Machine.execEnableDirection inst tx rx s
  | .enable inst => Sys2Proof.Machine.execEnable inst s
  | .disable inst => Sys2Proof.Machine.execDisable inst s
  -- Callbacks
  | .enableCallback inst kind => Sys2Proof.Machine.execEnableCallback inst kind s
  | .disableCallback inst kind => Sys2Proof.Machine.execDisableCallback inst kind s
  | .setCallback inst kind handler => Sys2Proof.Machine.execSetCallback inst kind handler s
  -- Transfers
  | .sendBlocking inst addr len => Sys2Proof.Machine.execSendBlocking inst addr len s
  | .recvBlocking inst addr count => Sys2Proof.Machine.execRecvBlocking inst addr count s
  | .sendAsync inst addr len => Sys2Proof.Machine.execSendAsync inst addr len s
  | .recvAsync inst addr maxCount => Sys2Proof.Machine.execRecvAsync inst addr maxCount s
  | .sendBreak inst => Sys2Proof.Machine.execSendBreak inst s
  -- Line stimuli
  | .lineRxByte inst byte => Sys2Proof.Machine.execLineRxByte inst byte s
  | .lineRxBytePerr inst draw byte => Sys2Proof.Machine.execLineRxBytePerr inst draw byte s
  | .lineBreakDetect inst => Sys2Proof.Machine.execLineBreakDetect inst s
  | .lineTxShift inst => Sys2Proof.Machine.execLineTxShift inst s
  | .lineTxIdle inst => Sys2Proof.Machine.execLineTxIdle inst s
  | .lineBreakSent inst => Sys2Proof.Machine.execLineBreakSent inst s

end Sys2Proof.Machine
end

