-- ==== Sys2Proof/Machine/Dispatcher.lean ====
section
/-! DEFINITION. The micro-steps of the event dispatcher `DISP[i]` (44_dispatcher.md R95 to R102). It has no
encoding (30_encoding.md R64). -/

namespace Sys2Proof.Machine

/-- One classification test (44_dispatcher.md R95): to `hit` if kind `k` is a cause, else to `miss`. -/
def State.classify (s : State) (i : InstId) (k : Kind) (hit miss : DLoc) : Result :=
  .next (s.dgoto (if (s.inst i).cause s.cfg k then hit else miss))

/-- The micro-step of `DISP[i]` at a label. -/
def dispStepAt (i : InstId) (l : DLoc) (s : State) : Result :=
  match l with
  -- Classification (R95)
  | .c0 => s.classify i .overrun .ov1 .c1
  | .c1 => s.classify i .brk .bk1 .c2
  | .c2 => s.classify i .parity .pa1 .c3
  | .c3 => s.classify i .byteReceived .rb1 .c4
  | .c4 => s.classify i .transmitReady .tr1 .c5
  | .c5 => .next (s.dgoto .x1)
  -- Overrun (R97) and Break (R98)
  | .ov1 => s.invoke i .overrun none .x1
  | .bk1 => s.invoke i .brk none .x1
  -- Parity (R99)
  | .pa1 => .next ((s.regReadEffect i .data).dgoto (.pa2 ((s.regVal i .data).extractLsb' 0 8)))
  | .pa2 b => s.invoke i .parity (some b) .x1
  -- Byte received (R100)
  | .rb1 => .next ((s.regReadEffect i .data).dgoto (.rb2 ((s.regVal i .data).extractLsb' 0 8)))
  | .rb2 b => .next (s.dgoto (.rb3 b (s.ring i .rx).w))
  | .rb3 b w => s.pushCell i .rx w b (fun t => .next (t.dgoto (.rb4 b w)))
  | .rb4 b w => .next ((s.pushIncrement i .rx w).dgoto (.rb5 b w))
  | .rb5 b w => .next ((s.pushMask i .rx w).dgoto (.rb6 b))
  | .rb6 b => s.invoke i .byteReceived (some b) .x1
  -- Transmit ready (R101)
  | .tr1 => .next (s.dgoto (if (s.ring i .tx).empty then .tr9 else .tr2 (s.ring i .tx).r))
  | .tr2 r => s.popCell i .tx r (fun b => .next (s.dgoto (.tr3 r b)))
  | .tr3 r b => .next ((s.popIncrement i .tx r).dgoto (.tr4 r b))
  | .tr4 r b => .next ((s.popMask i .tx r).dgoto (.tr5 b))
  | .tr5 b => .next ((s.regWrite i .data (zext b)).dgoto .tr6)
  | .tr6 => .next (s.dgoto (if (s.ring i .tx).empty then .tr7 else .x1))
  | .tr7 => .next (s.dgoto (.tr8 (s.regVal i .ctrl)))
  | .tr8 v => .next ((s.regWrite i .ctrl (clearBit v Field.txeie.bit)).dgoto .x1)
  | .tr9 => s.invoke i .transmitReady none .x1
  -- Exit (R102)
  | .x1 => .next s.exit

/-- The next micro-step of the active dispatcher (60_exceptions.md R134). -/
def dispStep (s : State) : Result :=
  match s.active, s.dloc with
  | some i, some l => dispStepAt i l s
  | _, _ => .refused .moveUnavailable

end Sys2Proof.Machine
end

