-- ==== Sys2Proof/Machine/Agents.lean ====
section
/-! DEFINITION. The agents and their scheduling (60_exceptions.md R133, R134): what a move does, which
moves a state has, and which one comes next. -/

namespace Sys2Proof.Machine

/-- FG has finished: `FG.pc = length(P)` (10_state.md R16). -/
def State.finished (s : State) : Bool := decide (s.prog.length ≤ s.fg.pc)

/-- "FG may step" (60_exceptions.md R133). -/
def State.fgMay (s : State) : Bool :=
  s.active.isNone && s.halt.isNone && s.fault.isNone && !s.finished
  && (!s.someAllowed || decide (s.lat < s.cfg.irqLatency))

/-- The active dispatcher may step (60_exceptions.md R134, R141). -/
def State.dispMay (s : State) : Bool := s.active.isSome && s.halt.isNone && s.fault.isNone

/-- FG's next micro-step: the one `FG.loc` names, or at `start` the first one of the operation at
`P[FG.pc]`, fetched and decoded (10_state.md R16, R17). Whatever is no FG row raises `IllegalEncoding`
(30_encoding.md R65, R66). -/
def fgStep (s : State) : Result :=
  match s.fg.loc with
  | .busy op _ => if op.agent = .foreground then exec op s else .refused .foreignLocation
  | .start =>
    match s.prog[s.fg.pc]? with
    | none => .refused .moveUnavailable
    | some d =>
      match decode d with
      | .ok op => if op.agent = .foreground then exec op s else s.raise .illegalEncoding
      | .error _ => s.raise .illegalEncoding

/-- The step of a line stimulus: decoded, checked and run (46_line.md R119). After a fault no agent
steps, so no stimulus is available (60_exceptions.md R134, R138). -/
def lineStep (d : Descriptor) (s : State) : Result :=
  match decode d with
  | .error _ => .refused .stimulusIllegal
  | .ok op =>
    if op.agent = .line then
      (if s.fault.isSome then .refused .stimulusUnavailable else exec op s)
    else .refused .stimulusIllegal

/-- A micro-step followed by what follows every micro-step (60_exceptions.md R130, R133). -/
def State.after (s : State) (byFg : Bool) (r : Result) : Result :=
  match r with
  | .next t => .next (s.settle byFg t)
  | .fault f => .fault f
  | .refused q => .refused q

/-- A step that is not a line move: it needs `FAULT = none` and its own condition. -/
def State.guarded (s : State) (may : Bool) (r : Result) : Result :=
  match s.fault with
  | some f => .fault (.machineFaulted f)
  | none => if may then r else .refused .moveUnavailable

/-- One chosen move (60_exceptions.md R134). -/
def runMove (m : Move) (s : State) : Result :=
  match m with
  | .fg => s.guarded s.fgMay (s.after true (fgStep s))
  | .enter i => s.guarded (s.allowed i) (s.after false (.next (s.enter i)))
  | .disp => s.guarded s.dispMay (s.after false (dispStep s))
  | .line d => s.after false (lineStep d s)

/-- The answer is a next state. -/
def isNext : Result → Bool
  | .next _ => true
  | .fault _ => false
  | .refused _ => false

/-- The line moves of one instance that a free choice can take, with a free byte and draw. -/
def lineMoves (n : Nat) (i : InstId) : List Instr :=
  [.lineRxByte i (Config.freeByte n), .lineRxBytePerr i (Config.freeDraw n) (Config.freeByte n)]
  ++ [.lineBreakDetect i, .lineTxShift i, .lineTxIdle i, .lineBreakSent i]

/-- The line moves available in a state (46_line.md R116, R117): none after a fault (60_exceptions.md
R134), and those that continue while a halt holds (R141). -/
def State.openLineMoves (n : Nat) (s : State) : List Instr :=
  (allInstIds.flatMap (lineMoves n)).filter (fun op => s.fault.isNone && isNext (exec op s))

/-- The moves of 60_exceptions.md R134 that are possible in a state. -/
def State.moves (n : Nat) (s : State) : List Move :=
  ([Move.fg, Move.disp] ++ allInstIds.map Move.enter).filter (fun m => isNext (runMove m s))
  ++ (s.openLineMoves n).map (fun op => Move.line (encode op))

/-- The next move and the state it is taken in: the schedule's, if one is given (46_line.md R119); else
a free choice among the possible ones (60_exceptions.md R134, R136; 46_line.md R117; log 2, log 3). -/
def State.choose (s : State) : Option (Move × State) :=
  match s.sched with
  | m :: rest => some (m, { s with sched := rest })
  | [] =>
    let t := { s with draws := s.draws + 1 }
    let l := t.moves s.draws
    (l[Config.freeChoice s.draws % l.length]?).map (fun m => (m, t))

/-- Why a state without a possible move has none. -/
def State.stopReason (s : State) : Fault :=
  match s.fault with
  | some f => .machineFaulted f
  | none => .nothingCanStep

/-- One micro-step of the machine. -/
def machineStep (s : State) : Result :=
  match s.choose with
  | some (m, t) => runMove m t
  | none => .fault s.stopReason

/-- `P` with descriptor `d` at index `n`; indexes below `n` that `P` lacks hold descriptors of zeros. -/
def placeAt (p : List Descriptor) (n : Nat) (d : Descriptor) : List Descriptor :=
  p.take n ++ List.replicate (n - p.length) ⟨0#32, 0#32, 0#32⟩ ++ d :: p.drop (n + 1)

/-- What a stimulus needs to be available (46_line.md R116, R124 to R126): the clock and the gates, and
for a transmit move the flags or the break request it waits on. -/
def Inst.openFor (x : Inst) (op : Instr) : Inst :=
  let y := { x with
    clk := true, ctrl := setBit (setBit (setBit x.ctrl Field.ue.bit) Field.re.bit) Field.te.bit }
  match op.mnemonic with
  | .LINE_TX_SHIFT => y.clearFlag .txe
  | .LINE_TX_IDLE => (y.raiseFlag .txe).clearFlag .tc
  | .LINE_BREAK_SENT => { y with ctrl := setBit y.ctrl Field.sbk.bit }
  | _ => y

/-- A descriptor placed where the next micro-step takes it from (log 13): a line stimulus at the head of
the schedule, with its instance made ready for it; anything else at `P[FG.pc]`, with FG at an
operation's start and the next move. -/
def State.place (s : State) (d : Descriptor) : State :=
  let atProgram : State := { s with
    prog := placeAt s.prog s.fg.pc d, fg := { s.fg with loc := .start }, sched := .fg :: s.sched }
  match decode d with
  | .ok op =>
    if op.agent = .line then
      { s.modInst op.inst (fun x => x.openFor op) with sched := .line d :: s.sched }
    else atProgram
  | .error _ => atProgram

end Sys2Proof.Machine
end

