-- ==== Sys2Proof/Machine/Step.lean ====
section
/-! DEFINITION. One step of the machine: one micro-step of one agent (20_memory.md R50, 60_exceptions.md
R134). -/

namespace Sys2Proof.Machine

/-- One step of the machine. -/
def step (s : State) : Host.Outcome State Fault Refusal := machineStep s

/-- `s` with the descriptor of a table row's bits placed where the step takes its next operation from
(log 13). -/
def State.withFetchWord (s : State) (nbits w : Nat) : State :=
  s.place (Descriptor.ofTableWord nbits w)

end Sys2Proof.Machine
end

