-- ==== Sys2Proof/Safety.lean ====
section
/-! DEFINITION. What a run is, when it has completed and when it is quiescent (60_exceptions.md R142),
what a safe run is, the named fairness conditions (46_line.md R118, 60_exceptions.md R134), and the
running of one operation or one dispatcher invocation without interleaving. -/

namespace Sys2Proof.Machine

/-- A run completes when FG has finished without fault or halt (60_exceptions.md R142). -/
def State.completed (s : State) : Bool := s.finished && s.fault.isNone && s.halt.isNone

/-- A completed run is quiescent when no dispatcher is active or can be entered and no enabled vector is
pending (60_exceptions.md R142). -/
def State.quiescent (s : State) : Bool :=
  s.completed && s.active.isNone && !s.someAllowed && !s.insts.any (fun x => x.pend && x.vec)

/-- A state a claim about a program may speak of: no fault has been raised (60_exceptions.md R138). -/
def State.safe (s : State) : Bool := s.fault.isNone

/-- An infinite run: every state steps to the next one. -/
def IsRun (f : Nat → State) : Prop := ∀ n, step (f n) = .next (f (n + 1))

/-- The move a run takes at its n-th step. -/
def takes (f : Nat → State) (n : Nat) (m : Move) : Prop := (f n).choose.map Prod.fst = some m

/-- The line move a run takes at its n-th step. -/
def takesLine (f : Nat → State) (n : Nat) (op : Instr) : Prop :=
  ∃ d, takes f n (.line d) ∧ decode d = .ok op

/-- `LINE_TX_FAIR(i)` (46_line.md R118): if from some point the transmit gate holds for ever and
`TXE = 0` recurs, TX_SHIFT is eventually taken. -/
def LineTxFair (i : InstId) (f : Nat → State) : Prop :=
  ∀ n, (∀ m, n ≤ m → ((f m).inst i).txGate) → (∀ m, n ≤ m → ∃ p, m ≤ p ∧ !((f p).inst i).flag .txe) →
    ∃ m, n ≤ m ∧ takesLine f m (.lineTxShift i)

/-- `LINE_BRK_FAIR(i)` (46_line.md R118): under the same gate, if `SBK = 1` holds, BREAK_SENT is
eventually taken. -/
def LineBrkFair (i : InstId) (f : Nat → State) : Prop :=
  ∀ n, (∀ m, n ≤ m → ((f m).inst i).txGate) → (∀ m, n ≤ m → ((f m).inst i).field .sbk) →
    ∃ m, n ≤ m ∧ takesLine f m (.lineBreakSent i)

/-- `LINE_RX_QUIET(i)` (46_line.md R118): from some point no receive move of instance `i` is taken. -/
def LineRxQuiet (i : InstId) (f : Nat → State) : Prop :=
  ∃ n, ∀ m, n ≤ m → (∀ b, ¬ takesLine f m (.lineRxByte i b)) ∧
    (∀ d b, ¬ takesLine f m (.lineRxBytePerr i d b)) ∧ ¬ takesLine f m (.lineBreakDetect i)

/-- The two fairness obligations of 60_exceptions.md R134: a step of FG, of the active dispatcher or an
entry that stays possible from some point on is eventually taken. No line move is owed. -/
def WeaklyFair (f : Nat → State) : Prop :=
  ∀ m : Move, (∀ d, m ≠ .line d) → ∀ n, (∀ p, n ≤ p → isNext (runMove m (f p))) →
    ∃ p, n ≤ p ∧ takes f p m

/-- `n` micro-steps of one operation with no other agent's step between them: the operation's own
effect, as the rules of 40_configuration.md to 45_callbacks.md write it. -/
def execTimes : Nat → Instr → State → Result
  | 0, _, s => .next s
  | n + 1, i, s =>
    match exec i s with
    | .next t => execTimes n i t
    | .fault f => .fault f
    | .refused q => .refused q

/-- `n` micro-steps of the active dispatcher with no other agent's step between them. -/
def dispTimes : Nat → State → Result
  | 0, s => .next s
  | n + 1, s =>
    match dispStep s with
    | .next t => dispTimes n t
    | .fault f => .fault f
    | .refused q => .refused q

/-- The bytes of a ring from `R` up to `W`, in pop order (41_ring_buffer.md R78, R82): the cells
`R, R + 1, …` modulo `C`, as many as the occupancy. -/
def Ring.contents (q : Ring) : List Byte :=
  (List.range q.occupancy.toNat).map
    (fun n => Memory.read q.buf ((q.r.toNat + n) % 2 ^ q.logC.val))

/-- Both indices are below the capacity (10_state.md R20). -/
abbrev Ring.InRange (q : Ring) : Prop := q.w < q.cap ∧ q.r < q.cap

/-- The operation FG is at: the one it is inside, or the one at `P[FG.pc]` (10_state.md R17). -/
def State.operation (s : State) : Option Instr :=
  match s.fg.loc with
  | .busy op _ => some op
  | .start =>
    match s.prog[s.fg.pc]? with
    | none => none
    | some d =>
      match decode d with
      | .ok op => some op
      | .error _ => none

/-- The kind whose callback a dispatcher micro-step invokes (44_dispatcher.md R97 to R101). -/
def DLoc.invokes : DLoc → Option Kind
  | .ov1 => some .overrun
  | .bk1 => some .brk
  | .pa2 _ => some .parity
  | .rb6 _ => some .byteReceived
  | .tr9 => some .transmitReady
  | _ => none

/-- The argument it passes: the byte read for Parity and ByteReceived, else none (45_callbacks.md R112). -/
def DLoc.argument : DLoc → Option Byte
  | .pa2 b => some b
  | .rb6 b => some b
  | _ => none

/-- The active dispatcher's next micro-step invokes a user handler (45_callbacks.md R112). -/
def State.runsHandler (s : State) : Bool :=
  match s.active, s.dloc with
  | some i, some l =>
    match l.invokes with
    | some k => decide ((s.inst i).cb.get k ≠ 0#32)
    | none => false
  | _, _ => false

/-- How many micro-steps a dispatcher invocation still takes at most, the one at the label included
(44_dispatcher.md R103, DS-10 of 95_test_vectors.md). -/
def DLoc.stepsLeft : DLoc → Nat
  | .c0 => 14 | .c1 => 13 | .c2 => 12 | .c3 => 11 | .c4 => 10 | .c5 => 2
  | .ov1 => 2
  | .bk1 => 2
  | .pa1 => 3 | .pa2 _ => 2
  | .rb1 => 7 | .rb2 _ => 6 | .rb3 _ _ => 5 | .rb4 _ _ => 4 | .rb5 _ _ => 3 | .rb6 _ => 2
  | .tr1 => 9 | .tr2 _ => 8 | .tr3 _ _ => 7 | .tr4 _ _ => 6 | .tr5 _ => 5 | .tr6 => 4
  | .tr7 => 3 | .tr8 _ => 2 | .tr9 => 2
  | .x1 => 1

/-! Frames -/

/-- Every byte of `MEM` reads as before. -/
abbrev SameMem (s t : State) : Prop := ∀ a, Memory.read t.mem a = Memory.read s.mem a

/-- Nothing has changed but, at most, FG's own context, memory, the event history and instance `i`. -/
abbrev SameElsewhere (i : InstId) (s t : State) : Prop :=
  { t with fg := s.fg, insts := s.insts, mem := s.mem, trace := s.trace } = s ∧
    t.insts.length = s.insts.length ∧ ∀ j, j ≠ i → t.inst j = s.inst j

/-- The registers of FG after an operation's last micro-step that writes no result register. -/
abbrev Fg.next (g : Fg) : Fg := { g with pc := g.pc + 1, loc := .start }

/-- FG's context at a label of an operation. -/
abbrev Fg.at (g : Fg) (op : Instr) (l : Label) : Fg := { g with loc := .busy op l }

/-! Invariants of the machine -/

/-- `MEM` and the storage of every ring stand in their canonical form, and list only addresses that
exist: below 2^32, below the capacity. -/
abbrev State.MemoriesCanonical (s : State) : Prop :=
  (Memory.wf s.mem = true ∧ Memory.below (2 ^ 32) s.mem = true) ∧
  ∀ x ∈ s.insts,
    (Memory.wf x.rx.buf = true ∧ Memory.below (2 ^ x.rx.logC.val) x.rx.buf = true) ∧
    (Memory.wf x.tx.buf = true ∧ Memory.below (2 ^ x.tx.logC.val) x.tx.buf = true)

/-- The reserved bits of every register are 0 (10_state.md R22 to R28). -/
abbrev State.ReservedZero (s : State) : Prop :=
  ∀ x ∈ s.insts, x.stat &&& ~~~0x000001E9#32 = 0#32 ∧ x.brr &&& ~~~0x0000FFFF#32 = 0#32 ∧
    x.ctrl &&& ~~~0x000021AD#32 = 0#32 ∧ x.ctrl2 &&& ~~~0x00000040#32 = 0#32 ∧
    x.ctrl3 &&& ~~~0x00000001#32 = 0#32

/-- `PE = 1` implies `RXNE = 1` (46_line.md R123): bits 0 and 5 of `STAT`. -/
abbrev State.ParityWithByte (s : State) : Prop :=
  ∀ x ∈ s.insts, x.stat.getLsbD 0 = true → x.stat.getLsbD 5 = true

/-- FG's label lies in the critical section of SEND_ASYNC: after A2 and before A9 (43_async.md R91). -/
def Label.inSection : Label → Bool
  | .a3 _ => true
  | .a4 _ _ => true
  | .a5 _ _ _ => true
  | .a6 _ _ => true
  | .a7 _ _ => true
  | .a8 => true
  | .a9 _ => true
  | _ => false

/-- Inside a SEND_ASYNC's critical section its instance's `TXEIE` is 0 (43_async.md R91). -/
def State.SendMasked (s : State) : Prop :=
  match s.fg.loc with
  | .busy (.sendAsync i _ _) l => l.inSection = true → (s.inst i).ctrl.getLsbD 7 = false
  | _ => True

/-- An index of an advance in progress is below the capacity: what FG's label holds after the range
check of a PUSH or POP (41_ring_buffer.md R80, R81). -/
def State.FgIndexChecked (s : State) : Prop :=
  match s.fg.loc with
  | .busy (.rbPush i x _) (.u3 w) => w < (s.ring i x).cap
  | .busy (.rbPush i x _) (.u4 w) => w < (s.ring i x).cap
  | .busy (.rbPop i x) (.v3 r _) => r < (s.ring i x).cap
  | .busy (.rbPop i x) (.v4 r _) => r < (s.ring i x).cap
  | .busy (.sendAsync i _ _) (.a6 _ w) => w < (s.ring i .tx).cap
  | .busy (.sendAsync i _ _) (.a7 _ w) => w < (s.ring i .tx).cap
  | .busy (.recvAsync i _ _) (.g3 _ r _) => r < (s.ring i .rx).cap
  | .busy (.recvAsync i _ _) (.g4 _ r _) => r < (s.ring i .rx).cap
  | _ => True

/-- The same for the dispatcher's label (44_dispatcher.md R100, R101). -/
def State.DispIndexChecked (s : State) : Prop :=
  match s.active, s.dloc with
  | some i, some (.rb4 _ w) => w < (s.ring i .rx).cap
  | some i, some (.rb5 _ w) => w < (s.ring i .rx).cap
  | some i, some (.tr3 r _) => r < (s.ring i .tx).cap
  | some i, some (.tr4 r _) => r < (s.ring i .tx).cap
  | _, _ => True

/-- Every ring index is at most the capacity, the transient value of an advance (10_state.md R20). -/
abbrev State.IndicesBounded (s : State) : Prop :=
  ∀ x ∈ s.insts, (x.rx.w ≤ x.rx.cap ∧ x.rx.r ≤ x.rx.cap) ∧ (x.tx.w ≤ x.tx.cap ∧ x.tx.r ≤ x.tx.cap)

/-! The single-producer single-consumer rings under interleaving (41_ring_buffer.md R82, R84) -/

/-- Where the dispatcher of instance `i` stands, if it is the active one. -/
def State.dispAt (s : State) (i : InstId) : Option DLoc := if s.active = some i then s.dloc else none

/-- Where FG stands inside an operation that `p` selects. -/
def State.fgAt (s : State) (p : Instr → Bool) : Option Label :=
  match s.fg.loc with
  | .busy op l => if p op then some l else none
  | .start => none

/-- The consumers of `RX[i]` (41_ring_buffer.md R82). -/
def popsRx (i : InstId) : Instr → Bool
  | .rbPop j .rx => decide (j = i)
  | .recvAsync j _ _ => decide (j = i)
  | _ => false

/-- The dispatcher, producer of `RX[i]`, agrees with the ring at every label of its PUSH (R80). -/
def Ring.PushedByDispatcher (q : Ring) : Option DLoc → Prop
  | some (.rb3 _ w) => w = q.w ∧ w < q.cap
  | some (.rb4 b w) => w = q.w ∧ w < q.cap ∧ Memory.read q.buf w.toNat = b
  | some (.rb5 _ w) => w < q.cap ∧ q.w = w + 1#32
  | _ => q.w < q.cap

/-- The dispatcher, consumer of `TX[i]`, agrees with the ring at every label of its POP (R81). -/
def Ring.PoppedByDispatcher (q : Ring) : Option DLoc → Prop
  | some (.tr2 r) => r = q.r ∧ r < q.cap ∧ q.occupancy ≠ 0#32
  | some (.tr3 r b) => r = q.r ∧ r < q.cap ∧ q.occupancy ≠ 0#32 ∧ Memory.read q.buf r.toNat = b
  | some (.tr4 r _) => r < q.cap ∧ q.r = r + 1#32
  | _ => q.r < q.cap

/-- FG, consumer of `RX[i]`, agrees with the ring at every label of its POP (R81). -/
def Ring.PoppedByForeground (q : Ring) : Option Label → Prop
  | some (.v2 r) => r = q.r ∧ r < q.cap ∧ q.occupancy ≠ 0#32
  | some (.g2 _ r) => r = q.r ∧ r < q.cap ∧ q.occupancy ≠ 0#32
  | some (.v3 r b) => r = q.r ∧ r < q.cap ∧ q.occupancy ≠ 0#32 ∧ Memory.read q.buf r.toNat = b
  | some (.g3 _ r b) => r = q.r ∧ r < q.cap ∧ q.occupancy ≠ 0#32 ∧ Memory.read q.buf r.toNat = b
  | some (.v4 r _) => r < q.cap ∧ q.r = r + 1#32
  | some (.g4 _ r _) => r < q.cap ∧ q.r = r + 1#32
  | _ => q.r < q.cap

/-- FG in an RB_PUSH of byte `b`, producer of `TX[i]`, agrees with the ring at every label (R86). -/
def Ring.PushedDirectly (q : Ring) (b : Byte) : Label → Prop
  | .u2 w => w = q.w ∧ w < q.cap
  | .u3 w => w = q.w ∧ w < q.cap ∧ Memory.read q.buf w.toNat = b
  | .u4 w => w < q.cap ∧ q.w = w + 1#32
  | _ => q.w < q.cap

/-- FG in a SEND_ASYNC of the buffer at `a`, producer of `TX[i]`, agrees with the ring and with the caller's
bytes at every label of its PUSH (R80, 43_async.md R90). -/
def Ring.PushedByForeground (q : Ring) (mem : Memory) (a : Word) : Label → Prop
  | .a4 j b => Memory.read mem (bufAddr a j).toNat = b ∧ q.w < q.cap
  | .a5 j b w => Memory.read mem (bufAddr a j).toNat = b ∧ w = q.w ∧ w < q.cap
  | .a6 j w => w = q.w ∧ w < q.cap ∧
      Memory.read q.buf w.toNat = Memory.read mem (bufAddr a j).toNat
  | .a7 _ w => w < q.cap ∧ q.w = w + 1#32
  | _ => q.w < q.cap

/-- `RX[i]` with its two agents: the dispatcher pushes, FG pops (41_ring_buffer.md R82). -/
def State.RxInRole (s : State) (i : InstId) : Prop :=
  let q := (s.inst i).rx
  Memory.wf q.buf = true ∧ q.PushedByDispatcher (s.dispAt i) ∧
    q.PoppedByForeground (s.fgAt (popsRx i))

/-- The dispatcher's labels at which the TransmitReady case is under way (44_dispatcher.md R101). -/
def DLoc.transmits : DLoc → Bool
  | .tr1 => true
  | .tr2 _ => true
  | .tr3 _ _ => true
  | .tr4 _ _ => true
  | .tr5 _ => true
  | .tr6 => true
  | .tr7 => true
  | .tr8 _ => true
  | _ => false

/-- `TX[i]` with its two agents: SEND_ASYNC and RB_PUSH push, the dispatcher pops (R82); the critical section
of 43_async.md R91 keeps a SEND_ASYNC and the dispatcher apart. -/
def State.TxInRole (s : State) (i : InstId) : Prop :=
  let q := (s.inst i).tx
  Memory.wf q.buf = true ∧ q.PoppedByDispatcher (s.dispAt i) ∧
  match s.fg.loc with
  | .busy (.sendAsync j a _) l => if j = i then q.PushedByForeground s.mem a l ∧
      (l.inSection = true → (s.inst i).ctrl.getLsbD 7 = false ∧
        ∀ d, s.dispAt i = some d → d.transmits = false) else q.w < q.cap
  | .busy (.rbPush j .tx b) l => if j = i then q.PushedDirectly b l else q.w < q.cap
  | _ => q.w < q.cap

end Sys2Proof.Machine
end

