-- ==== Sys2Proof/Certificates/Slice0/Obligations.lean ====
section
/-! DEFINITION. The statements for the provers, from the numbered rules of spec/. A statement about exec
speaks of one micro-step, or of a chain of them with no other agent's step between. -/

open Sys2Proof Sys2Proof.Machine

/-! Encoding -/

/-- 30_encoding.md R57, R63: no field of a descriptor is dropped. -/
def Obligations.OperationDecodesFromItsDescriptor : Prop :=
  ∀ i : Instr, i.wellFormed = true → decode (encode i) = .ok i

/-- 30_encoding.md R67: a legal descriptor names exactly one operation: it is that operation's own
encoding, so no descriptor is a hint, a no-op or a second spelling. -/
def Obligations.LegalDescriptorIsItsOperationsEncoding : Prop :=
  ∀ (d : Descriptor) (i : Instr), decode d = .ok i → encode i = d ∧ i.wellFormed = true

/-- 30_encoding.md R68: the words of the spec's examples decode to the operations of their texts. -/
def Obligations.SpecExampleWordsDecode : Prop :=
  decode ⟨0x01010061#32, 0#32, 0#32⟩ = .ok (.rbPush 0 .tx 0x61#8) ∧
  decode ⟨0x02000000#32, 0#32, 0#32⟩ = .ok (.rbPop 0 .rx) ∧
  decode ⟨0x12100000#32, 0x00F42400#32, 0x0001C200#32⟩ = .ok (.setBaud 1 16000000#32 115200#32) ∧
  decode ⟨0x13030000#32, 0#32, 0#32⟩ = .ok (.enableDirection 0 true true) ∧
  decode ⟨0x20230000#32, 0#32, 0#32⟩ = .ok (.enableCallback 2 .byteReceived) ∧
  decode ⟨0x22000000#32, 7#32, 0#32⟩ = .ok (.setCallback 0 .overrun 7#32) ∧
  decode ⟨0x32000000#32, 0x20000000#32, 3#32⟩ = .ok (.sendAsync 0 0x20000000#32 3#32) ∧
  decode ⟨0x41010055#32, 0#32, 0#32⟩ = .ok (.lineRxBytePerr 0 true 0x55#8)

/-- 30_encoding.md R65, R66; 60_exceptions.md R138: FG at the start of a descriptor that is no FG row raises
IllegalEncoding; an FG operation of an instance at or above N_INST (R58) raises InvalidInstance in its first
micro-step. Neither makes another change: that the step leaves PEND and LAT alone too, which R130 and R133 set
after every other micro-step, is the model's reading of R138 (log 10). -/
def Obligations.IllegalDescriptorsAndInstancesFault : Prop :=
  (∀ (s : State) (rest : List Move) (d : Descriptor),
    s.sched = .fg :: rest → s.fgMay = true → s.fg.loc = .start → s.prog[s.fg.pc]? = some d →
    (∀ i, decode d = .ok i → i.agent = .line) →
    step s = .next { s with sched := rest, fault := some .illegalEncoding }) ∧
  (∀ (s : State) (i : Instr), i.agent = .foreground → s.fg.loc = .start → s.has i.inst = false →
    exec i s = .next { s with fault := some .invalidInstance })

/-! The step -/

/-- A step whose schedule names FG runs exec of the operation FG is at: the one decoded at `P[FG.pc]`
when FG is at an operation's start, else the one it is inside. A step whose schedule names a line
stimulus runs exec of the decoded stimulus (46_line.md R119). A step whose schedule names the active
dispatcher runs its micro-step at D.loc (60_exceptions.md R134). Around each stands what follows every
micro-step: the pending latches and the latency counter (`State.settle`). -/
def Obligations.StepRunsTheDecodedInstruction : Prop :=
  ∀ (s t : State) (rest : List Move) (i : Instr),
    let u := { s with sched := rest }
    (s.sched = .fg :: rest → s.fgMay = true → s.operation = some i → i.agent = .foreground →
      (exec i u = .next t → step s = .next (State.settle true u t)) ∧
      (∀ f, exec i u = .fault f → step s = .fault f) ∧
      (∀ q, exec i u = .refused q → step s = .refused q)) ∧
    (∀ d, s.sched = .line d :: rest → decode d = .ok i → i.agent = .line → s.fault = none →
      (exec i u = .next t → step s = .next (State.settle false u t)) ∧
      (∀ q, exec i u = .refused q → step s = .refused q)) ∧
    (∀ j l, s.sched = .disp :: rest → s.active = some j → s.dloc = some l → s.halt = none →
      s.fault = none →
      (dispStepAt j l u = .next t → step s = .next (State.settle false u t)) ∧
      (∀ f, dispStepAt j l u = .fault f → step s = .fault f))

/-! Configuration operations (40_configuration.md) -/

/-- 40_configuration.md R70, step K1. -/
def Obligations.EnableClockRequestsTheClock : Prop :=
  ∀ (s : State) (i : InstId), s.fg.loc = .start → s.has i = true →
    ∃ t, exec (.enableClock i) s = .next t ∧ t.fg = s.fg.next ∧
      t.inst i = { s.inst i with clk := true } ∧ t.trace = s.trace ++ [.clockEnable i] ∧
      SameMem s t ∧ SameElsewhere i s t

/-- 40_configuration.md R71, step S1: a legal pairing is recorded, any other faults. -/
def Obligations.SelectPinsRecordsALegalPairing : Prop :=
  ∀ (s : State) (i : InstId) (p : Byte), s.fg.loc = .start → s.has i = true →
    (p ∈ (s.inst i).pairings →
      ∃ t, exec (.selectPins i p) s = .next t ∧ t.fg = s.fg.next ∧
        t.inst i = { s.inst i with pins := some p } ∧ t.trace = s.trace ++ [.pinSelect i p] ∧
        SameMem s t ∧ SameElsewhere i s t) ∧
    (p ∉ (s.inst i).pairings →
      exec (.selectPins i p) s = .next { s with fault := some .invalidPinPairing })

/-- 40_configuration.md R72, step D1: the floored quotient, the whole BRR word; a zero baud and a quotient
of 2^16 or more fault. -/
def Obligations.SetBaudLoadsTheFlooredQuotient : Prop :=
  ∀ (s : State) (i : InstId) (hz baud : Word), s.fg.loc = .start → s.has i = true →
    (baud ≠ 0#32 → hz.toNat / baud.toNat < 65536 →
      ∃ t, exec (.setBaud i hz baud) s = .next t ∧ t.fg = s.fg.next ∧
        t.inst i = { s.inst i with brr := BitVec.ofNat 32 (hz.toNat / baud.toNat) } ∧
        t.trace = s.trace ∧ SameMem s t ∧ SameElsewhere i s t) ∧
    (baud = 0#32 → exec (.setBaud i hz baud) s = .next { s with fault := some .divideByZero }) ∧
    (baud ≠ 0#32 → 65536 ≤ hz.toNat / baud.toNat →
      exec (.setBaud i hz baud) s = .next { s with fault := some .baudDivisorOverflow })

/-- 40_configuration.md R73, steps E1 and E2: TE is bit 3, RE is bit 2, and E2 writes back what E1 read. -/
def Obligations.EnableDirectionMicroSteps : Prop :=
  ∀ (s : State) (i : InstId) (tx rx : Bool), s.has i = true →
    (s.fg.loc = .start →
      exec (.enableDirection i tx rx) s = .next { s with
        fg := s.fg.at (.enableDirection i tx rx) (.e2 ((s.inst i).ctrl &&& 0x21AD#32)) }) ∧
    (∀ op v, s.fg.loc = .busy op (.e2 v) →
      ∃ t, exec (.enableDirection i tx rx) s = .next t ∧ t.fg = s.fg.next ∧
        t.inst i = { s.inst i with ctrl :=
          (v ||| ((if tx then 8#32 else 0#32) ||| (if rx then 4#32 else 0#32))) &&& 0x21AD#32 } ∧
        t.trace = s.trace ∧ SameMem s t ∧ SameElsewhere i s t)

/-- 40_configuration.md R74 and R75, steps N1, N2 and F1, F2: UE is bit 13. -/
def Obligations.EnableAndDisableMicroSteps : Prop :=
  ∀ (s : State) (i : InstId), s.has i = true →
    (s.fg.loc = .start →
      exec (.enable i) s = .next { s with
        fg := s.fg.at (.enable i) (.n2 ((s.inst i).ctrl &&& 0x21AD#32)) } ∧
      exec (.disable i) s = .next { s with
        fg := s.fg.at (.disable i) (.f2 ((s.inst i).ctrl &&& 0x21AD#32)) }) ∧
    (∀ op v, s.fg.loc = .busy op (.n2 v) →
      ∃ t, exec (.enable i) s = .next t ∧ t.fg = s.fg.next ∧
        t.inst i = { s.inst i with ctrl := (v ||| 0x2000#32) &&& 0x21AD#32 } ∧
        t.trace = s.trace ∧ SameMem s t ∧ SameElsewhere i s t) ∧
    (∀ op v, s.fg.loc = .busy op (.f2 v) →
      ∃ t, exec (.disable i) s = .next t ∧ t.fg = s.fg.next ∧
        t.inst i = { s.inst i with ctrl := (v &&& ~~~0x2000#32) &&& 0x21AD#32 } ∧
        t.trace = s.trace ∧ SameMem s t ∧ SameElsewhere i s t)

/-- 40_configuration.md R73: uninterrupted, ENABLE_DIRECTION only sets direction bits; every other field of
CTRL keeps its value, so two calls do not clobber each other. -/
def Obligations.EnableDirectionNeverClobbers : Prop :=
  ∀ (s : State) (i : InstId) (tx rx : Bool), s.fg.loc = .start → s.has i = true →
    ∃ t, execTimes 2 (.enableDirection i tx rx) s = .next t ∧
      ((t.inst i).field .te = (tx || (s.inst i).field .te)) ∧
      ((t.inst i).field .re = (rx || (s.inst i).field .re)) ∧
      ∀ f, f ≠ .te → f ≠ .re → (t.inst i).field f = (s.inst i).field f

/-! Ring buffer (41_ring_buffer.md) -/

/-- 41_ring_buffer.md R86, steps U1 to U4. -/
def Obligations.RbPushMicroSteps : Prop :=
  ∀ (s : State) (i : InstId) (x : RingSel) (b : Byte), s.has i = true →
    let op := Instr.rbPush i x b
    let q := s.ring i x
    (s.fg.loc = .start → exec op s = .next { s with fg := s.fg.at op (.u2 q.w) }) ∧
    (∀ o w, s.fg.loc = .busy o (.u2 w) → w.toNat < 2 ^ q.logC.val →
      ∃ t, exec op s = .next t ∧ t.fg = s.fg.at op (.u3 w) ∧
        t.inst i = (s.inst i).setRing x { q with buf := Memory.write q.buf w.toNat b } ∧
        t.trace = s.trace ∧ SameMem s t ∧ SameElsewhere i s t) ∧
    (∀ o w, s.fg.loc = .busy o (.u3 w) →
      ∃ t, exec op s = .next t ∧ t.fg = s.fg.at op (.u4 w) ∧
        t.inst i = (s.inst i).setRing x { q with w := w + 1#32 } ∧
        t.trace = s.trace ∧ SameMem s t ∧ SameElsewhere i s t) ∧
    (∀ o w, s.fg.loc = .busy o (.u4 w) →
      ∃ t, exec op s = .next t ∧ t.fg = { s.fg.next with ok := some true } ∧
        t.inst i = (s.inst i).setRing x { q with w := (w + 1#32) &&& (1#32 <<< q.logC.val - 1#32) } ∧
        t.trace = s.trace ∧ SameMem s t ∧ SameElsewhere i s t)

/-- 41_ring_buffer.md R87, steps V1 to V4. -/
def Obligations.RbPopMicroSteps : Prop :=
  ∀ (s : State) (i : InstId) (x : RingSel), s.has i = true →
    let op := Instr.rbPop i x
    let q := s.ring i x
    (s.fg.loc = .start → q.w = q.r →
      exec op s = .next { s with fg := { s.fg.next with ok := some false, res := some 0#32 } }) ∧
    (s.fg.loc = .start → q.w ≠ q.r →
      exec op s = .next { s with fg := s.fg.at op (.v2 q.r) }) ∧
    (∀ o r, s.fg.loc = .busy o (.v2 r) → r.toNat < 2 ^ q.logC.val →
      exec op s = .next { s with fg := s.fg.at op (.v3 r (Memory.read q.buf r.toNat)) }) ∧
    (∀ o r b, s.fg.loc = .busy o (.v3 r b) →
      ∃ t, exec op s = .next t ∧ t.fg = s.fg.at op (.v4 r b) ∧
        t.inst i = (s.inst i).setRing x { q with r := r + 1#32 } ∧
        t.trace = s.trace ∧ SameMem s t ∧ SameElsewhere i s t) ∧
    (∀ o r b, s.fg.loc = .busy o (.v4 r b) →
      ∃ t, exec op s = .next t ∧
        t.fg = { s.fg.next with ok := some true, res := some (b.setWidth 32) } ∧
        t.inst i = (s.inst i).setRing x { q with r := (r + 1#32) &&& (1#32 <<< q.logC.val - 1#32) } ∧
        t.trace = s.trace ∧ SameMem s t ∧ SameElsewhere i s t)

/-- 10_state.md R20, 60_exceptions.md R138, R139: a PUSH or POP step that would address storage with an
index at or above the capacity raises RingIndexOutOfRange and makes no other change, for FG's four ring
operations and the dispatcher's two. -/
def Obligations.OutOfRangeIndexFaults : Prop :=
  ∀ (s : State) (i : InstId) (n : Word) (o : Instr),
    let bad : Result := .next { s with fault := some .ringIndexOutOfRange }
    (∀ x b, s.fg.loc = .busy o (.u2 n) → 2 ^ (s.ring i x).logC.val ≤ n.toNat →
      exec (.rbPush i x b) s = bad) ∧
    (∀ x, s.fg.loc = .busy o (.v2 n) → 2 ^ (s.ring i x).logC.val ≤ n.toNat →
      exec (.rbPop i x) s = bad) ∧
    (∀ a len j b, s.fg.loc = .busy o (.a5 j b n) → 2 ^ (s.ring i .tx).logC.val ≤ n.toNat →
      exec (.sendAsync i a len) s = bad) ∧
    (∀ a len j, s.fg.loc = .busy o (.g2 j n) → 2 ^ (s.ring i .rx).logC.val ≤ n.toNat →
      exec (.recvAsync i a len) s = bad) ∧
    (∀ b, 2 ^ (s.ring i .rx).logC.val ≤ n.toNat → dispStepAt i (.rb3 b n) s = bad) ∧
    (2 ^ (s.ring i .tx).logC.val ≤ n.toNat → dispStepAt i (.tr2 n) s = bad)

/-- 41_ring_buffer.md R80, R84: an uninterrupted RB_PUSH on a ring that holds fewer than `C - 1` bytes
appends its byte, and leaves everything else of the machine alone. -/
def Obligations.PushAppendsItsByte : Prop :=
  ∀ (s : State) (i : InstId) (x : RingSel) (b : Byte), s.fg.loc = .start → s.has i = true →
    (s.ring i x).InRange → Memory.wf (s.ring i x).buf = true →
    (s.ring i x).occupancy.toNat + 1 < 2 ^ (s.ring i x).logC.val →
    ∃ t, execTimes 4 (.rbPush i x b) s = .next t ∧
      (t.ring i x).contents = (s.ring i x).contents ++ [b] ∧ (t.ring i x).InRange ∧
      t.fg = { s.fg.next with ok := some true } ∧
      (t.inst i).setRing x (s.ring i x) = s.inst i ∧
      t.trace = s.trace ∧ SameMem s t ∧ SameElsewhere i s t

/-- 41_ring_buffer.md R81, R84: an uninterrupted RB_POP takes the oldest byte, or reports none. -/
def Obligations.PopTakesTheOldestByte : Prop :=
  ∀ (s : State) (i : InstId) (x : RingSel), s.fg.loc = .start → s.has i = true →
    (s.ring i x).InRange →
    ((s.ring i x).contents = [] →
      exec (.rbPop i x) s =
        .next { s with fg := { s.fg.next with ok := some false, res := some 0#32 } }) ∧
    (∀ b l, (s.ring i x).contents = b :: l →
      ∃ t, execTimes 4 (.rbPop i x) s = .next t ∧
        (t.ring i x).contents = l ∧ (t.ring i x).InRange ∧
        t.fg = { s.fg.next with ok := some true, res := some (b.setWidth 32) } ∧
        (t.inst i).setRing x (s.ring i x) = s.inst i ∧
        t.trace = s.trace ∧ SameMem s t ∧ SameElsewhere i s t)

/-- 41_ring_buffer.md R83, R85: an uninterrupted RB_PUSH at occupancy `C - 1` leaves `W = R`: the ring
reads empty, FG.OK is 1 all the same, and no fault reports it. With capacity 1 every push does so. -/
def Obligations.PushOntoAFullRingEmptiesIt : Prop :=
  ∀ (s : State) (i : InstId) (x : RingSel) (b : Byte), s.fg.loc = .start → s.has i = true →
    (s.ring i x).InRange → (s.ring i x).occupancy.toNat + 1 = 2 ^ (s.ring i x).logC.val →
    ∃ t, execTimes 4 (.rbPush i x b) s = .next t ∧ (t.ring i x).w = (s.ring i x).r ∧
      (t.ring i x).r = (s.ring i x).r ∧ (t.ring i x).contents = [] ∧
      t.fg = { s.fg.next with ok := some true } ∧ t.fault = s.fault ∧ t.trace = s.trace

/-! Callback operations (45_callbacks.md) -/

/-- 45_callbacks.md R108, steps H1 to H3: the source enable of kind `k` by its register and bit, then the
vector, enabled and reported once. -/
def Obligations.EnableCallbackMicroSteps : Prop :=
  ∀ (s : State) (i : InstId) (k : Kind), s.has i = true →
    let op := Instr.enableCallback i k
    let x := s.inst i
    (s.fg.loc = .start → exec op s = .next { s with fg := s.fg.at op (.h2 (match k with
      | .overrun => x.ctrl3 &&& 1#32
      | .brk => x.ctrl2 &&& 0x40#32
      | .parity | .byteReceived | .transmitReady => x.ctrl &&& 0x21AD#32)) }) ∧
    (∀ o v, s.fg.loc = .busy o (.h2 v) →
      ∃ t, exec op s = .next t ∧ t.fg = s.fg.at op .h3 ∧ t.inst i = (match k with
          | .overrun => { x with ctrl3 := (v ||| 1#32) &&& 1#32 }
          | .brk => { x with ctrl2 := (v ||| 0x40#32) &&& 0x40#32 }
          | .parity => { x with ctrl := (v ||| 0x100#32) &&& 0x21AD#32 }
          | .byteReceived => { x with ctrl := (v ||| 0x20#32) &&& 0x21AD#32 }
          | .transmitReady => { x with ctrl := (v ||| 0x80#32) &&& 0x21AD#32 }) ∧
        t.trace = s.trace ∧ SameMem s t ∧ SameElsewhere i s t) ∧
    (∀ o, s.fg.loc = .busy o .h3 →
      ∃ t, exec op s = .next t ∧ t.fg = s.fg.next ∧ t.inst i = { x with vec := true } ∧
        t.trace = s.trace ++ (if x.vec then [] else [.vectorEnable i]) ∧
        SameMem s t ∧ SameElsewhere i s t)

/-- 45_callbacks.md R109, steps J1 and J2: only the enable bit is cleared; the flag and the vector stay. -/
def Obligations.DisableCallbackMicroSteps : Prop :=
  ∀ (s : State) (i : InstId) (k : Kind), s.has i = true →
    let op := Instr.disableCallback i k
    let x := s.inst i
    (s.fg.loc = .start → exec op s = .next { s with fg := s.fg.at op (.j2 (match k with
      | .overrun => x.ctrl3 &&& 1#32
      | .brk => x.ctrl2 &&& 0x40#32
      | .parity | .byteReceived | .transmitReady => x.ctrl &&& 0x21AD#32)) }) ∧
    (∀ o v, s.fg.loc = .busy o (.j2 v) →
      ∃ t, exec op s = .next t ∧ t.fg = s.fg.next ∧ t.inst i = (match k with
          | .overrun => { x with ctrl3 := (v &&& ~~~1#32) &&& 1#32 }
          | .brk => { x with ctrl2 := (v &&& ~~~0x40#32) &&& 0x40#32 }
          | .parity => { x with ctrl := (v &&& ~~~0x100#32) &&& 0x21AD#32 }
          | .byteReceived => { x with ctrl := (v &&& ~~~0x20#32) &&& 0x21AD#32 }
          | .transmitReady => { x with ctrl := (v &&& ~~~0x80#32) &&& 0x21AD#32 }) ∧
        t.trace = s.trace ∧ SameMem s t ∧ SameElsewhere i s t)

/-- 45_callbacks.md R110, step Z1: a legal id (Default, or a non-zero member of HANDLER_IDS) is bound to
the one kind, any other faults; no enable bit and no vector changes. -/
def Obligations.SetCallbackBindsALegalHandler : Prop :=
  ∀ (s : State) (i : InstId) (k : Kind) (h : Word), s.fg.loc = .start → s.has i = true →
    (h = 0#32 ∨ (∃ r, s.cfg.handlers.lookup h = some r) →
      ∃ t, exec (.setCallback i k h) s = .next t ∧ t.fg = s.fg.next ∧
        t.inst i = { s.inst i with cb := (t.inst i).cb } ∧ (t.inst i).cb.get k = h ∧
        (∀ l, l ≠ k → (t.inst i).cb.get l = (s.inst i).cb.get l) ∧
        t.trace = s.trace ∧ SameMem s t ∧ SameElsewhere i s t) ∧
    (h ≠ 0#32 → s.cfg.handlers.lookup h = none →
      exec (.setCallback i k h) s = .next { s with fault := some .invalidHandler })

/-! Blocking transfers (42_blocking.md) -/

/-- 42_blocking.md R88, steps L0 to L3: TXE is bit 7 and TC bit 6 of STAT; L1 spins while TXE is 0, L2 is
stuck outside MEM_OK, and L3 loads TDR and clears TXE and TC. -/
def Obligations.SendBlockingMicroSteps : Prop :=
  ∀ (s : State) (i : InstId) (a n : Word), s.has i = true →
    let op := Instr.sendBlocking i a n
    (s.fg.loc = .start →
      exec op s = .next { s with fg := if n = 0#32 then s.fg.next else s.fg.at op (.l1 0) }) ∧
    (∀ o j, s.fg.loc = .busy o (.l1 j) → exec op s = .next { s with
      fg := s.fg.at op (if (s.inst i).stat.getLsbD 7 then .l2 j else .l1 j) }) ∧
    (∀ o j, s.fg.loc = .busy o (.l2 j) → memOk s.cfg (bufAddr a j) = true →
      exec op s = .next { s with
        fg := s.fg.at op (.l3 j (Memory.read s.mem (bufAddr a j).toNat)) }) ∧
    (∀ o j, s.fg.loc = .busy o (.l2 j) → memOk s.cfg (bufAddr a j) = false →
      exec op s = .fault .fgStuck) ∧
    (∀ o j b, s.fg.loc = .busy o (.l3 j b) →
      ∃ t, exec op s = .next t ∧
        t.fg = (if j + 1 = n.toNat then s.fg.next else s.fg.at op (.l1 (j + 1))) ∧
        t.inst i = { s.inst i with tdr := b, stat := (s.inst i).stat &&& ~~~0xC0#32 } ∧
        t.trace = s.trace ∧ SameMem s t ∧ SameElsewhere i s t)

/-- 42_blocking.md R89, steps M0 to M3: RXNE is bit 5, PE bit 0 and ORE bit 3 of STAT; M2 reads RDR and
clears RXNE and PE, and ORE where DR_READ_CLEARS_ORE holds; M3 stores one byte, at the one address. -/
def Obligations.RecvBlockingMicroSteps : Prop :=
  ∀ (s : State) (i : InstId) (a n : Word), s.has i = true →
    let op := Instr.recvBlocking i a n
    (s.fg.loc = .start →
      exec op s = .next { s with fg := if n = 0#32 then s.fg.next else s.fg.at op (.m1 0) }) ∧
    (∀ o j, s.fg.loc = .busy o (.m1 j) → exec op s = .next { s with
      fg := s.fg.at op (if (s.inst i).stat.getLsbD 5 then .m2 j else .m1 j) }) ∧
    (∀ o j, s.fg.loc = .busy o (.m2 j) →
      ∃ t, exec op s = .next t ∧ t.fg = s.fg.at op (.m3 j (s.inst i).rdr) ∧
        t.inst i = { s.inst i with stat := (s.inst i).stat &&&
          ~~~(if s.cfg.drReadClearsOre then 0x29#32 else 0x21#32) } ∧
        t.trace = s.trace ∧ SameMem s t ∧ SameElsewhere i s t) ∧
    (∀ o j b, s.fg.loc = .busy o (.m3 j b) → Memory.wf s.mem = true →
      memOk s.cfg (bufAddr a j) = true →
      ∃ t, exec op s = .next t ∧
        t.fg = (if j + 1 = n.toNat then s.fg.next else s.fg.at op (.m1 (j + 1))) ∧
        Memory.read t.mem (bufAddr a j).toNat = b ∧
        (∀ c, c ≠ (bufAddr a j).toNat → Memory.read t.mem c = Memory.read s.mem c) ∧
        t.inst i = s.inst i ∧ t.trace = s.trace ∧ SameElsewhere i s t) ∧
    (∀ o j b, s.fg.loc = .busy o (.m3 j b) → memOk s.cfg (bufAddr a j) = false →
      exec op s = .fault .fgStuck)

/-! Asynchronous transfers (43_async.md) -/

/-- 43_async.md R90, steps A1 to A9: TXEIE is bit 7 of CTRL; A2 clears it, A9 sets it whatever
it was; A4 to A7 are a PUSH on TX. -/
def Obligations.SendAsyncMicroSteps : Prop :=
  ∀ (s : State) (i : InstId) (a n : Word), s.has i = true →
    let op := Instr.sendAsync i a n
    let q := (s.inst i).tx
    (s.fg.loc = .start →
      exec op s = .next { s with fg := s.fg.at op (.a2 ((s.inst i).ctrl &&& 0x21AD#32)) }) ∧
    (∀ o v, s.fg.loc = .busy o (.a2 v) →
      ∃ t, exec op s = .next t ∧ t.fg = s.fg.at op (if n = 0#32 then .a8 else .a3 0) ∧
        t.inst i = { s.inst i with ctrl := (v &&& ~~~0x80#32) &&& 0x21AD#32 } ∧
        t.trace = s.trace ∧ SameMem s t ∧ SameElsewhere i s t) ∧
    (∀ o j, s.fg.loc = .busy o (.a3 j) → memOk s.cfg (bufAddr a j) = true →
      exec op s = .next { s with
        fg := s.fg.at op (.a4 j (Memory.read s.mem (bufAddr a j).toNat)) }) ∧
    (∀ o j, s.fg.loc = .busy o (.a3 j) → memOk s.cfg (bufAddr a j) = false →
      exec op s = .fault .fgStuck) ∧
    (∀ o j b, s.fg.loc = .busy o (.a4 j b) →
      exec op s = .next { s with fg := s.fg.at op (.a5 j b (s.inst i).tx.w) }) ∧
    (∀ o j b w, s.fg.loc = .busy o (.a5 j b w) → w.toNat < 2 ^ q.logC.val →
      ∃ t, exec op s = .next t ∧ t.fg = s.fg.at op (.a6 j w) ∧
        t.inst i = { s.inst i with tx := { q with buf := Memory.write q.buf w.toNat b } } ∧
        t.trace = s.trace ∧ SameMem s t ∧ SameElsewhere i s t) ∧
    (∀ o j w, s.fg.loc = .busy o (.a6 j w) →
      ∃ t, exec op s = .next t ∧ t.fg = s.fg.at op (.a7 j w) ∧
        t.inst i = { s.inst i with tx := { q with w := w + 1#32 } } ∧
        t.trace = s.trace ∧ SameMem s t ∧ SameElsewhere i s t) ∧
    (∀ o j w, s.fg.loc = .busy o (.a7 j w) →
      ∃ t, exec op s = .next t ∧
        t.fg = s.fg.at op (if j + 1 < n.toNat then .a3 (j + 1) else .a8) ∧
        t.inst i = { s.inst i with
          tx := { q with w := (w + 1#32) &&& (1#32 <<< q.logC.val - 1#32) } } ∧
        t.trace = s.trace ∧ SameMem s t ∧ SameElsewhere i s t) ∧
    (∀ o, s.fg.loc = .busy o .a8 →
      exec op s = .next { s with fg := s.fg.at op (.a9 ((s.inst i).ctrl &&& 0x21AD#32)) }) ∧
    (∀ o v, s.fg.loc = .busy o (.a9 v) →
      ∃ t, exec op s = .next t ∧ t.fg = s.fg.next ∧
        t.inst i = { s.inst i with ctrl := (v ||| 0x80#32) &&& 0x21AD#32 } ∧
        t.trace = s.trace ∧ SameMem s t ∧ SameElsewhere i s t)

/-- 43_async.md R90: an uninterrupted SEND_ASYNC of `n` bytes that fit appends exactly the caller's bytes, in
order, to TX, and ends with TXEIE set; nothing else of the machine changes. -/
def Obligations.SendAsyncQueuesTheCallersBytes : Prop :=
  ∀ (s : State) (i : InstId) (a n : Word), s.fg.loc = .start → s.has i = true →
    (s.inst i).tx.InRange → Memory.wf (s.inst i).tx.buf = true →
    (s.inst i).tx.occupancy.toNat + n.toNat < 2 ^ (s.inst i).tx.logC.val →
    (∀ j, j < n.toNat → memOk s.cfg (bufAddr a j) = true) →
    ∃ t, execTimes (4 + 5 * n.toNat) (.sendAsync i a n) s = .next t ∧
      (t.inst i).tx.contents = (s.inst i).tx.contents ++
        (List.range n.toNat).map (fun j => Memory.read s.mem (bufAddr a j).toNat) ∧
      (t.inst i).tx.InRange ∧ t.fg = s.fg.next ∧
      { t.inst i with tx := (s.inst i).tx } =
        { s.inst i with ctrl := ((s.inst i).ctrl ||| 0x80#32) &&& 0x21AD#32 } ∧
      t.trace = s.trace ∧ SameMem s t ∧ SameElsewhere i s t

/-- 43_async.md R92, steps G0 to G5: POP on RX, one store per byte, and FG.RES at the end. -/
def Obligations.RecvAsyncMicroSteps : Prop :=
  ∀ (s : State) (i : InstId) (a n : Word), s.has i = true →
    let op := Instr.recvAsync i a n
    let q := (s.inst i).rx
    (s.fg.loc = .start → exec op s = .next { s with
      fg := if n = 0#32 then { s.fg.next with res := some 0#32 } else s.fg.at op (.g1 0) }) ∧
    (∀ o j, s.fg.loc = .busy o (.g1 j) → exec op s = .next { s with
      fg := if q.w = q.r then { s.fg.next with res := some (BitVec.ofNat 32 j) }
        else s.fg.at op (.g2 j q.r) }) ∧
    (∀ o j r, s.fg.loc = .busy o (.g2 j r) → r.toNat < 2 ^ q.logC.val →
      exec op s = .next { s with fg := s.fg.at op (.g3 j r (Memory.read q.buf r.toNat)) }) ∧
    (∀ o j r b, s.fg.loc = .busy o (.g3 j r b) →
      ∃ t, exec op s = .next t ∧ t.fg = s.fg.at op (.g4 j r b) ∧
        t.inst i = { s.inst i with rx := { q with r := r + 1#32 } } ∧
        t.trace = s.trace ∧ SameMem s t ∧ SameElsewhere i s t) ∧
    (∀ o j r b, s.fg.loc = .busy o (.g4 j r b) →
      ∃ t, exec op s = .next t ∧ t.fg = s.fg.at op (.g5 j b) ∧
        t.inst i = { s.inst i with
          rx := { q with r := (r + 1#32) &&& (1#32 <<< q.logC.val - 1#32) } } ∧
        t.trace = s.trace ∧ SameMem s t ∧ SameElsewhere i s t) ∧
    (∀ o j b, s.fg.loc = .busy o (.g5 j b) → Memory.wf s.mem = true →
      memOk s.cfg (bufAddr a j) = true →
      ∃ t, exec op s = .next t ∧
        t.fg = (if j + 1 = n.toNat then { s.fg.next with res := some (BitVec.ofNat 32 (j + 1)) }
          else s.fg.at op (.g1 (j + 1))) ∧
        Memory.read t.mem (bufAddr a j).toNat = b ∧
        (∀ c, c ≠ (bufAddr a j).toNat → Memory.read t.mem c = Memory.read s.mem c) ∧
        t.inst i = s.inst i ∧ t.trace = s.trace ∧ SameElsewhere i s t) ∧
    (∀ o j b, s.fg.loc = .busy o (.g5 j b) → memOk s.cfg (bufAddr a j) = false →
      exec op s = .fault .fgStuck)

/-- 43_async.md R92: an uninterrupted RECV_ASYNC copies the oldest `min maxCount (bytes held)` bytes of RX to
the caller's buffer, in order, takes them off the ring, and returns their number in FG.RES; every other
byte of memory is unchanged. -/
def Obligations.RecvAsyncCopiesTheOldestBytes : Prop :=
  ∀ (s : State) (i : InstId) (a n : Word), s.fg.loc = .start → s.has i = true →
    (s.inst i).rx.InRange → Memory.wf s.mem = true →
    (∀ j, j < min n.toNat (s.inst i).rx.contents.length → memOk s.cfg (bufAddr a j) = true) →
    ∃ m t, execTimes m (.recvAsync i a n) s = .next t ∧
      t.fg = { s.fg.next with
        res := some (BitVec.ofNat 32 (min n.toNat (s.inst i).rx.contents.length)) } ∧
      (t.inst i).rx.contents = (s.inst i).rx.contents.drop n.toNat ∧
      (∀ j b, j < n.toNat → (s.inst i).rx.contents[j]? = some b →
        Memory.read t.mem (bufAddr a j).toNat = b) ∧
      (∀ c, (∀ j, j < min n.toNat (s.inst i).rx.contents.length → c ≠ (bufAddr a j).toNat) →
        Memory.read t.mem c = Memory.read s.mem c) ∧
      { t.inst i with rx := (s.inst i).rx } = s.inst i ∧
      t.trace = s.trace ∧ SameElsewhere i s t

/-- 43_async.md R94, steps B1 to B4: SBK is bit 0 of CTRL; B2 spins while it is 1. -/
def Obligations.SendBreakMicroSteps : Prop :=
  ∀ (s : State) (i : InstId), s.has i = true →
    let op := Instr.sendBreak i
    let next : Label := if (s.inst i).ctrl.getLsbD 0 then .b2 else .b3
    (s.fg.loc = .start → exec op s = .next { s with fg := s.fg.at op next }) ∧
    (∀ o, s.fg.loc = .busy o .b2 → exec op s = .next { s with fg := s.fg.at op next }) ∧
    (∀ o, s.fg.loc = .busy o .b3 →
      exec op s = .next { s with fg := s.fg.at op (.b4 ((s.inst i).ctrl &&& 0x21AD#32)) }) ∧
    (∀ o v, s.fg.loc = .busy o (.b4 v) →
      ∃ t, exec op s = .next t ∧ t.fg = s.fg.next ∧
        t.inst i = { s.inst i with ctrl := (v ||| 1#32) &&& 0x21AD#32 } ∧
        t.trace = s.trace ∧ SameMem s t ∧ SameElsewhere i s t)

/-! Line moves (46_line.md) -/

/-- 46_line.md R120 and R121 with their gate (R116): a byte is stored with RXNE set, and PE too where it came
with a parity error; or, while RXNE is already 1, it is lost with ORE set: RDR then keeps the unread byte,
and PE is set exactly when a parity error came and the draw `d` says so. -/
def Obligations.LineBytesAreStoredOrOverrun : Prop :=
  ∀ (s : State) (i : InstId) (d : Bool) (b : Byte), s.has i = true → (s.inst i).rxGate = true →
    (∃ t, exec (.lineRxByte i b) s = .next t ∧ t.fg = s.fg ∧
      t.inst i = (if (s.inst i).stat.getLsbD 5
        then { s.inst i with stat := (s.inst i).stat ||| 0x08#32 }
        else { s.inst i with rdr := b, stat := (s.inst i).stat ||| 0x20#32 }) ∧
      t.trace = s.trace ∧ SameMem s t ∧ SameElsewhere i s t) ∧
    (∃ t, exec (.lineRxBytePerr i d b) s = .next t ∧ t.fg = s.fg ∧
      t.inst i = (if (s.inst i).stat.getLsbD 5
        then { s.inst i with stat := (s.inst i).stat ||| (if d then 0x09#32 else 0x08#32) }
        else { s.inst i with rdr := b, stat := (s.inst i).stat ||| 0x21#32 }) ∧
      t.trace = s.trace ∧ SameMem s t ∧ SameElsewhere i s t)

/-- 46_line.md R122, R124, R125, R126 with their gates (R116): a break detected sets LBD (bit 8); a shift
emits TDR and sets TXE (bit 7); an idle line sets TC (bit 6); a break sent is emitted and clears SBK. -/
def Obligations.LineBreakAndTransmitMoves : Prop :=
  ∀ (s : State) (i : InstId), s.has i = true →
    ((s.inst i).rxGate = true →
      ∃ t, exec (.lineBreakDetect i) s = .next t ∧ t.fg = s.fg ∧
        t.inst i = { s.inst i with stat := (s.inst i).stat ||| 0x100#32 } ∧
        t.trace = s.trace ∧ SameMem s t ∧ SameElsewhere i s t) ∧
    ((s.inst i).txGate = true → (s.inst i).stat.getLsbD 7 = false →
      ∃ t, exec (.lineTxShift i) s = .next t ∧ t.fg = s.fg ∧
        t.inst i = { s.inst i with stat := (s.inst i).stat ||| 0x80#32 } ∧
        t.trace = s.trace ++ [.txOut i (s.inst i).tdr] ∧ SameMem s t ∧ SameElsewhere i s t) ∧
    ((s.inst i).txGate = true → (s.inst i).stat.getLsbD 7 = true →
      (s.inst i).stat.getLsbD 6 = false →
      ∃ t, exec (.lineTxIdle i) s = .next t ∧ t.fg = s.fg ∧
        t.inst i = { s.inst i with stat := (s.inst i).stat ||| 0x40#32 } ∧
        t.trace = s.trace ∧ SameMem s t ∧ SameElsewhere i s t) ∧
    ((s.inst i).txGate = true → (s.inst i).ctrl.getLsbD 0 = true →
      ∃ t, exec (.lineBreakSent i) s = .next t ∧ t.fg = s.fg ∧
        t.inst i = { s.inst i with ctrl := (s.inst i).ctrl &&& ~~~1#32 } ∧
        t.trace = s.trace ++ [.txBreak i] ∧ SameMem s t ∧ SameElsewhere i s t)

/-- 46_line.md R116, R119: a stimulus whose gate is closed (no clock, UE = 0, or its direction bit 0), or
whose own condition fails, is refused; so is one of an instance at or above N_INST. -/
def Obligations.UnavailableStimulusIsRefused : Prop :=
  ∀ (s : State) (i : InstId) (b : Byte) (d : Bool),
    let x := s.inst i
    (s.has i = true →
      let no : Result := .refused .stimulusUnavailable
      (x.clk = false ∨ x.ctrl.getLsbD 13 = false ∨ x.ctrl.getLsbD 2 = false →
        exec (.lineRxByte i b) s = no ∧ exec (.lineRxBytePerr i d b) s = no ∧
        exec (.lineBreakDetect i) s = no) ∧
      (x.clk = false ∨ x.ctrl.getLsbD 13 = false ∨ x.ctrl.getLsbD 3 = false →
        exec (.lineTxShift i) s = no ∧ exec (.lineTxIdle i) s = no ∧
        exec (.lineBreakSent i) s = no) ∧
      (x.stat.getLsbD 7 = true → exec (.lineTxShift i) s = no) ∧
      (x.stat.getLsbD 7 = false ∨ x.stat.getLsbD 6 = true → exec (.lineTxIdle i) s = no) ∧
      (x.ctrl.getLsbD 0 = false → exec (.lineBreakSent i) s = no)) ∧
    (s.has i = false →
      let no : Result := .refused .stimulusIllegal
      exec (.lineRxByte i b) s = no ∧ exec (.lineRxBytePerr i d b) s = no ∧
      exec (.lineBreakDetect i) s = no ∧ exec (.lineTxShift i) s = no ∧
      exec (.lineTxIdle i) s = no ∧ exec (.lineBreakSent i) s = no)

/-! The dispatcher (44_dispatcher.md) -/

/-- 44_dispatcher.md R95, 60_exceptions.md R136: from C0, uninterrupted, the dispatcher goes to the case of
the first cause in the order Overrun, Break, Parity, ByteReceived, TransmitReady (flag and effective
enable, 10_state.md R29), or to the exit when there is none; it changes nothing else. -/
def Obligations.ClassifierTakesTheFirstCause : Prop :=
  ∀ (s : State) (i : InstId), s.active = some i → s.dloc = some .c0 →
    let x := s.inst i
    let overrun := x.stat.getLsbD 3 &&
      (x.ctrl3.getLsbD 0 || (s.cfg.overrunAlias && x.ctrl.getLsbD 5))
    let brk := x.stat.getLsbD 8 && x.ctrl2.getLsbD 6
    let parity := x.stat.getLsbD 0 && x.ctrl.getLsbD 8
    let received := x.stat.getLsbD 5 && x.ctrl.getLsbD 5
    let ready := x.stat.getLsbD 7 && x.ctrl.getLsbD 7
    let reaches := fun (n : Nat) (l : DLoc) => dispTimes n s = .next { s with dloc := some l }
    (overrun = true → reaches 1 .ov1) ∧
    (overrun = false → brk = true → reaches 2 .bk1) ∧
    (overrun = false → brk = false → parity = true → reaches 3 .pa1) ∧
    (overrun = false → brk = false → parity = false → received = true → reaches 4 .rb1) ∧
    (overrun = false → brk = false → parity = false → received = false → ready = true →
      reaches 5 .tr1) ∧
    (overrun = false → brk = false → parity = false → received = false → ready = false →
      reaches 6 .x1)

/-- 44_dispatcher.md R100: uninterrupted, RB1 to RB5 take the byte off DATA (RXNE and PE cleared, ORE too
where DR_READ_CLEARS_ORE holds) and append it to RX, ready to invoke the ByteReceived callback. At occupancy
`C - 1` the ring reads empty afterwards (41_ring_buffer.md R83), and RB6 is reached with the byte all the same. -/
def Obligations.ByteReceivedCaseQueuesTheByte : Prop :=
  ∀ (s : State) (i : InstId), s.active = some i → s.dloc = some .rb1 → s.has i = true →
    (s.inst i).rx.InRange → Memory.wf (s.inst i).rx.buf = true →
    let q := (s.inst i).rx
    ∃ t, dispTimes 5 s = .next t ∧ t.dloc = some (.rb6 (s.inst i).rdr) ∧
      (q.occupancy.toNat + 1 < 2 ^ q.logC.val →
        (t.inst i).rx.contents = q.contents ++ [(s.inst i).rdr]) ∧
      (q.occupancy.toNat + 1 = 2 ^ q.logC.val →
        (t.inst i).rx.contents = [] ∧ (t.inst i).rx.w = q.r) ∧
      (t.inst i).rx.r = q.r ∧ (t.inst i).rx.InRange ∧
      { t.inst i with rx := q } = { s.inst i with stat := (s.inst i).stat &&&
        ~~~(if s.cfg.drReadClearsOre then 0x29#32 else 0x21#32) } ∧
      t.fg = s.fg ∧ t.trace = s.trace ∧ SameMem s t ∧
      SameElsewhere i s { t with dloc := s.dloc }

/-- 44_dispatcher.md R101. Uninterrupted, TR1 on a ring that holds bytes moves the oldest to DATA (TXE and TC
cleared); if that drains the ring TXEIE (bit 7 of CTRL) is cleared, else CTRL is left alone. On the transient
`W = C` of an unmasked RB_PUSH (70_reset_and_hazards.md R149) it pops the cell at R whatever R is, finds the ring
not drained and leaves CTRL alone; at `R = 0` the cell popped is one the ring does not hold (log 23). Then
TR2 to TR8 label by label: TR8 writes back what TR7 read, so it undoes a change of CTRL made between them, such as
the line's clear of SBK (R155). -/
def Obligations.TransmitReadyCaseDrainsTheRing : Prop :=
  ∀ (s : State) (i : InstId), s.has i = true →
    let x := s.inst i
    let q := x.tx
    (∀ (b : Byte) (l : List Byte), s.active = some i → s.dloc = some .tr1 → q.InRange →
      q.contents = b :: l →
      ∃ t, dispTimes (if l = [] then 8 else 6) s = .next t ∧ t.dloc = some .x1 ∧
        (t.inst i).tx.contents = l ∧ (t.inst i).tx.InRange ∧
        { t.inst i with tx := q } = { x with
          tdr := b, stat := x.stat &&& ~~~0xC0#32,
          ctrl := if l = [] then (x.ctrl &&& ~~~0x80#32) &&& 0x21AD#32 else x.ctrl } ∧
        t.fg = s.fg ∧ t.trace = s.trace ∧ SameMem s t ∧
        SameElsewhere i s { t with dloc := s.dloc }) ∧
    (s.active = some i → s.dloc = some .tr1 → q.w.toNat = 2 ^ q.logC.val →
      q.r.toNat < 2 ^ q.logC.val →
      ∃ t, dispTimes 6 s = .next t ∧ t.dloc = some .x1 ∧
        t.inst i = { x with
          tx := { q with r := (q.r + 1#32) &&& (1#32 <<< q.logC.val - 1#32) },
          tdr := Memory.read q.buf q.r.toNat, stat := x.stat &&& ~~~0xC0#32 } ∧
        t.fg = s.fg ∧ t.trace = s.trace ∧ SameMem s t ∧
        SameElsewhere i s { t with dloc := s.dloc }) ∧
    (q.w ≠ q.r → dispStepAt i .tr1 s = .next { s with dloc := some (.tr2 q.r) }) ∧
    (∀ r, r.toNat < 2 ^ q.logC.val → dispStepAt i (.tr2 r) s =
      .next { s with dloc := some (.tr3 r (Memory.read q.buf r.toNat)) }) ∧
    (∀ r b, ∃ t, dispStepAt i (.tr3 r b) s = .next t ∧ t.dloc = some (.tr4 r b) ∧
      t.inst i = { x with tx := { q with r := r + 1#32 } } ∧ t.fg = s.fg ∧
      t.trace = s.trace ∧ SameMem s t ∧ SameElsewhere i s { t with dloc := s.dloc }) ∧
    (∀ r b, ∃ t, dispStepAt i (.tr4 r b) s = .next t ∧ t.dloc = some (.tr5 b) ∧
      t.inst i = { x with
        tx := { q with r := (r + 1#32) &&& (1#32 <<< q.logC.val - 1#32) } } ∧ t.fg = s.fg ∧
      t.trace = s.trace ∧ SameMem s t ∧ SameElsewhere i s { t with dloc := s.dloc }) ∧
    (∀ b, ∃ t, dispStepAt i (.tr5 b) s = .next t ∧ t.dloc = some .tr6 ∧
      t.inst i = { x with tdr := b, stat := x.stat &&& ~~~0xC0#32 } ∧ t.fg = s.fg ∧
      t.trace = s.trace ∧ SameMem s t ∧ SameElsewhere i s { t with dloc := s.dloc }) ∧
    dispStepAt i .tr6 s = .next { s with dloc := some (if q.w = q.r then .tr7 else .x1) } ∧
    dispStepAt i .tr7 s = .next { s with dloc := some (.tr8 (x.ctrl &&& 0x21AD#32)) } ∧
    (∀ v, ∃ t, dispStepAt i (.tr8 v) s = .next t ∧ t.dloc = some .x1 ∧
      t.inst i = { x with ctrl := (v &&& ~~~0x80#32) &&& 0x21AD#32 } ∧ t.fg = s.fg ∧
      t.trace = s.trace ∧ SameMem s t ∧ SameElsewhere i s { t with dloc := s.dloc })

/-- 44_dispatcher.md R99, R101: Parity reads the erroring byte off DATA and pushes nothing; TransmitReady on an
empty ring touches no hardware and goes to its callback. -/
def Obligations.ParityAndEmptyRingCases : Prop :=
  ∀ (s : State) (i : InstId), s.has i = true →
    (∃ t, dispStepAt i .pa1 s = .next t ∧ t.dloc = some (.pa2 (s.inst i).rdr) ∧ t.fg = s.fg ∧
      t.inst i = { s.inst i with stat := (s.inst i).stat &&&
        ~~~(if s.cfg.drReadClearsOre then 0x29#32 else 0x21#32) } ∧
      t.trace = s.trace ∧ SameMem s t ∧ SameElsewhere i s { t with dloc := s.dloc }) ∧
    ((s.inst i).tx.w = (s.inst i).tx.r →
      dispStepAt i .tr1 s = .next { s with dloc := some .tr9 })

/-- 45_callbacks.md R112, R114: an invocation with the Default handler halts for Overrun, Break and Parity
(GIE cleared, HALT recorded, D.loc kept), and is a no-op for ByteReceived and TransmitReady. With a bound
handler it runs the handler's relation, appends the Callback event and goes on. For the canonical handlers
of R113: `id` changes nothing else, `clr_ore` and `clr_lbd` clear their flag (bits 3 and 8 of STAT), and an
empty relation has no step. The dispatcher invokes at OV1, BK1, PA2, RB6 and TR9 (44_dispatcher.md R97 to R101),
each for its kind and argument, and goes on to X1. -/
def Obligations.InvocationRunsTheBoundHandler : Prop :=
  ∀ (s : State) (i : InstId) (k : Kind) (arg : Option Byte) (l : DLoc),
    ((s.inst i).cb.get k = 0#32 →
      (k = .overrun ∨ k = .brk ∨ k = .parity →
        s.invoke i k arg l = .next { s with
          gie := false, halt := some (i, k), trace := s.trace ++ [.halt i k] }) ∧
      (k = .byteReceived ∨ k = .transmitReady →
        s.invoke i k arg l = .next { s with dloc := some l })) ∧
    (∀ (h : Word) (r : HandlerDef), s.has i = true → (s.inst i).cb.get k = h → h ≠ 0#32 →
      s.cfg.handlers.lookup h = some r →
      let ev := Event.callback i k h arg
      (r = .oneOf [[]] →
        s.invoke i k arg l = .next { s with trace := s.trace ++ [ev], dloc := some l }) ∧
      (∀ f, r = .oneOf [[.clearFlag f]] → f ≠ .pe →
        ∃ t, s.invoke i k arg l = .next t ∧ t.dloc = some l ∧ t.trace = s.trace ++ [ev] ∧
          t.inst i = { s.inst i with stat := (s.inst i).stat &&&
            ~~~(if f = .ore then 0x08#32 else 0x100#32) } ∧
          t.fg = s.fg ∧ SameMem s t ∧ SameElsewhere i s { t with dloc := s.dloc }) ∧
      (r = .oneOf [] → s.invoke i k arg l = .fault .dispatcherStuck)) ∧
    dispStepAt i .ov1 s = s.invoke i .overrun none .x1 ∧
    dispStepAt i .bk1 s = s.invoke i .brk none .x1 ∧
    (∀ b, dispStepAt i (.pa2 b) s = s.invoke i .parity (some b) .x1) ∧
    (∀ b, dispStepAt i (.rb6 b) s = s.invoke i .byteReceived (some b) .x1) ∧
    dispStepAt i .tr9 s = s.invoke i .transmitReady none .x1

/-- 45_callbacks.md R113: whatever a user handler's relation is, an invocation changes neither FG.pc, FG.loc,
ACTIVE, LAT, HALT, FAULT, P nor a PEND or a parameter; TRACE gains the Callback event only; no flag of STAT
becomes set and RDR is kept. ORE, LBD and PE of the invoking instance may be cleared; every other change of a
flag, and any of TDR, is one of a DATA access (20_memory.md R48): RXNE goes with PE and, in another instance, PE
with RXNE and ORE with both, where DR_READ_CLEARS_ORE holds; TXE, TC and TDR go with TXE and TC cleared. -/
def Obligations.UserHandlerStaysInItsChangeSet : Prop :=
  ∀ (s t : State) (i : InstId) (k : Kind) (arg : Option Byte) (l : DLoc),
    (s.inst i).cb.get k ≠ 0#32 → s.invoke i k arg l = .next t →
    t.fg.pc = s.fg.pc ∧ t.fg.loc = s.fg.loc ∧ t.active = s.active ∧ t.lat = s.lat ∧
    t.halt = s.halt ∧ t.fault = s.fault ∧ t.prog = s.prog ∧ t.cfg = s.cfg ∧ t.dloc = some l ∧
    t.trace = s.trace ++ [.callback i k ((s.inst i).cb.get k) arg] ∧
    t.insts.length = s.insts.length ∧
    ∀ j, let x := s.inst j
      let y := t.inst j
      let clears := fun (f : Flag) => x.flag f = true ∧ y.flag f = false
      y.pend = x.pend ∧ y.pairings = x.pairings ∧ y.rx.logC = x.rx.logC ∧ y.tx.logC = x.tx.logC ∧
      y.rdr = x.rdr ∧ (∀ f, y.flag f = true → x.flag f = true) ∧
      (clears .rxne → y.flag .pe = false ∧ (s.cfg.drReadClearsOre = true → y.flag .ore = false)) ∧
      (clears .txe ∨ clears .tc ∨ y.tdr ≠ x.tdr → y.flag .txe = false ∧ y.flag .tc = false) ∧
      (j ≠ i → ¬ clears .lbd ∧ (clears .pe → y.flag .rxne = false) ∧
        (clears .ore → s.cfg.drReadClearsOre = true ∧ y.flag .rxne = false ∧ y.flag .pe = false))

/-- 44_dispatcher.md R103: no dispatcher micro-step waits: it answers a next state, but where it invokes a bound
handler whose relation has no successor (45_callbacks.md R112), and there it is stuck; and every step of the machine in
handler context is a line move that leaves the dispatcher where it is, or brings the invocation nearer its
end, of which at most 14 micro-steps were left at C0. -/
def Obligations.InvocationEndsWithinFourteenSteps : Prop :=
  (∀ (s : State) (i : InstId) (l : DLoc),
    (∃ t, dispStepAt i l s = .next t) ∨
    (dispStepAt i l s = .fault .dispatcherStuck ∧ ∃ k, l.invokes = some k ∧
      (s.inst i).cb.get k ≠ 0#32 ∧ s.runHandler ((s.inst i).cb.get k) i k l.argument = none)) ∧
  (∀ (s t : State) (i : InstId) (l : DLoc), s.active = some i → s.dloc = some l →
    step s = .next t →
    (t.active = some i ∧ t.dloc = some l ∧ ∃ d m, s.choose = some (.line d, m)) ∨
    t.active = none ∨ t.halt ≠ none ∨ t.fault ≠ none ∨
    (t.active = some i ∧ ∃ l', t.dloc = some l' ∧ l'.stepsLeft < l.stepsLeft)) ∧
  DLoc.c0.stepsLeft = 14 ∧ ∀ l : DLoc, 1 ≤ l.stepsLeft

/-! Interrupts (60_exceptions.md) -/

/-- 60_exceptions.md R131, R135: a scheduled entry is taken exactly when it is allowed; it clears PEND, makes
the instance's dispatcher active at C0, and saves and masks nothing. -/
def Obligations.EntryIsTakenExactlyWhenAllowed : Prop :=
  ∀ (s : State) (rest : List Move) (i : InstId), s.sched = .enter i :: rest → s.fault = none →
    let allowed := s.halt = none ∧ s.gie = true ∧ s.has i = true ∧ (s.inst i).vec = true ∧
      (s.inst i).pend = true ∧ s.active = none
    (allowed → ∃ t, step s = .next t ∧ t.active = some i ∧ t.dloc = some .c0 ∧
      t.inst i = { s.inst i with pend := false } ∧
      (∀ j, j ≠ i → { t.inst j with pend := (s.inst j).pend } = s.inst j) ∧
      t.fg = s.fg ∧ t.gie = s.gie ∧ t.mem = s.mem ∧ t.trace = s.trace ∧ t.halt = none ∧
      t.fault = none ∧ t.prog = s.prog ∧ t.cfg = s.cfg) ∧
    (¬ allowed → step s = .refused .moveUnavailable)

/-- 44_dispatcher.md R102, its step line: the exit X1 frees the dispatcher and sets LAT to the bound; it changes
nothing else, FG's context included: nothing is restored or re-enabled (60_exceptions.md R137). -/
def Obligations.ExitReturnsToTheForeground : Prop :=
  ∀ (s : State) (i : InstId), dispStepAt i .x1 s =
    .next { s with active := none, dloc := none, lat := s.cfg.irqLatency }

/-- 60_exceptions.md R130: after every micro-step that raises no fault, PEND of an instance whose dispatcher is
not active is set if its line is asserted; PEND of the active one is set if its line rose; a PEND newly set
has that reason; and only the instance's own entry clears one. -/
def Obligations.PendingLatchFollowsTheLine : Prop :=
  ∀ (s t u : State) (m : Move) (i : InstId), s.choose = some (m, u) →
    step s = .next t → t.fault = none → s.has i = true →
    let before := (s.inst i).line s.cfg
    let now := (t.inst i).line t.cfg
    (t.active ≠ some i → now = true → (t.inst i).pend = true) ∧
    (t.active = some i → before = false → now = true → (t.inst i).pend = true) ∧
    ((t.inst i).pend = true → (m ≠ .enter i ∧ (s.inst i).pend = true) ∨
      (now = true ∧ (t.active ≠ some i ∨ before = false))) ∧
    ((s.inst i).pend = true → m ≠ .enter i → (t.inst i).pend = true)

/-- 60_exceptions.md R133, R131: FG may step exactly when no dispatcher is active, no halt and no fault is set, FG
has not finished, and no entry is allowed or LAT is below IRQ_LATENCY; else it is refused. After any micro-step
that raises no fault LAT is 0 if no entry is allowed; if one is, LAT is one more after an FG step, as before after
a line move, IRQ_LATENCY after a dispatcher's step (44_dispatcher.md R102: its exit). That the test is made after
the step's own pending latches is the model's reading (log 12). -/
def Obligations.LatencyCounterBoundsTheForeground : Prop :=
  ∀ (s t u : State) (rest : List Move) (m : Move),
    let allowed := fun (i : InstId) => s.halt = none ∧ s.fault = none ∧ s.gie = true ∧
      s.has i = true ∧ (s.inst i).vec = true ∧ (s.inst i).pend = true ∧ s.active = none
    (∀ i, s.allowed i = true ↔ allowed i) ∧
    (s.fgMay = true ↔ s.active = none ∧ s.halt = none ∧ s.fault = none ∧
      s.fg.pc < s.prog.length ∧ ((∀ i, ¬ allowed i) ∨ s.lat < s.cfg.irqLatency)) ∧
    (s.sched = .fg :: rest → s.fault = none → s.fgMay = false →
      step s = .refused .moveUnavailable) ∧
    (s.choose = some (m, u) → step s = .next t → t.fault = none →
      ((∀ i, t.allowed i = false) → t.lat = 0) ∧
      ((∃ i, t.allowed i = true) →
        (m = .fg → t.lat = s.lat + 1) ∧
        (∀ d, m = .line d → t.lat = s.lat) ∧
        (m = .disp → t.lat = s.cfg.irqLatency) ∧
        ∀ i, m ≠ .enter i))

/-- 70_reset_and_hazards.md R151: with TXE and TXEIE set, an empty TX ring, no higher cause and the Default
handler, an allowed entry and its eight dispatcher steps lead back to an allowed entry with nothing of FG,
of the instance, of memory or of the history changed, and FG may not step. -/
def Obligations.TransmitReadyStormRepeats : Prop :=
  ∀ (s : State) (i : InstId) (rest : List Move),
    s.sched = .enter i :: (List.replicate 8 .disp ++ rest) → s.allowed i = true →
    (s.inst i).cause s.cfg .overrun = false → (s.inst i).cause s.cfg .brk = false →
    (s.inst i).cause s.cfg .parity = false → (s.inst i).cause s.cfg .byteReceived = false →
    (s.inst i).cause s.cfg .transmitReady = true → (s.inst i).tx.w = (s.inst i).tx.r →
    (s.inst i).cb.transmitReady = 0#32 →
    ∃ t, Sys2Proof.core.run 9 s = .next t ∧ t.sched = rest ∧ t.allowed i = true ∧
      t.fgMay = false ∧ t.fg = s.fg ∧ t.inst i = s.inst i ∧ t.mem = s.mem ∧ t.trace = s.trace ∧
      t.lat = s.cfg.irqLatency

/-- 60_exceptions.md R134, R138: once FAULT is set no agent, LINE included, takes a step, whatever is scheduled or
freely chosen. -/
def Obligations.FaultStopsEveryAgent : Prop :=
  ∀ (s : State) (f : FaultReason), s.fault = some f → ∀ t, step s ≠ .next t

/-- 60_exceptions.md R141, 10_state.md R35: while HALT is set only line moves step; FG's context, the active
dispatcher and its place, HALT and GIE stay as they are. -/
def Obligations.HaltFreezesTheCore : Prop :=
  ∀ (s t : State), s.halt ≠ none → step s = .next t →
    (∃ d m, s.choose = some (.line d, m)) ∧ t.halt = s.halt ∧ t.fg = s.fg ∧ t.active = s.active ∧
    t.dloc = s.dloc ∧ t.gie = s.gie ∧ t.mem = s.mem

/-- 60_exceptions.md R131, R134: while a dispatcher is active no step writes FG.pc or FG.loc, and no step enters
another dispatcher; only a user handler writes FG.RES or FG.OK. -/
def Obligations.ForegroundIsFrozenInHandlerContext : Prop :=
  ∀ (s t : State) (i : InstId), s.active = some i → step s = .next t →
    t.fg.pc = s.fg.pc ∧ t.fg.loc = s.fg.loc ∧ (t.active = some i ∨ t.active = none) ∧
    (s.runsHandler = false → t.fg = s.fg)

/-! Whole-machine rules -/

/-- 70_reset_and_hazards.md R146, 20_memory.md R54, 10_state.md R18: no step changes a parameter, the
program, the number of instances, a pin-pairing set or a capacity. -/
def Obligations.ParametersAndProgramNeverChange : Prop :=
  ∀ (s t : State), step s = .next t →
    t.cfg = s.cfg ∧ t.prog = s.prog ∧ t.insts.length = s.insts.length ∧
    ∀ i, (t.inst i).pairings = (s.inst i).pairings ∧ (t.inst i).rx.logC = (s.inst i).rx.logC ∧
      (t.inst i).tx.logC = (s.inst i).tx.logC

/-- 10_state.md R16: FG.pc never decreases; a step advances it by one, leaving FG at the next operation's start,
or leaves it. -/
def Obligations.ProgramCounterNeverDecreases : Prop :=
  ∀ (s t : State), step s = .next t →
    t.fg.pc = s.fg.pc ∨ (t.fg.pc = s.fg.pc + 1 ∧ t.fg.loc = .start ∧ s.fg.pc < s.prog.length)

/-- 10_state.md R15: only RB_PUSH, RB_POP, RECV_ASYNC and a user handler write FG.RES or FG.OK; RECV_ASYNC writes
no FG.OK and RB_PUSH no FG.RES. -/
def Obligations.ResultRegistersHaveThreeWriters : Prop :=
  ∀ (s t : State), step s = .next t → s.runsHandler = false →
    (t.fg.res ≠ s.fg.res → (∃ i x, s.operation = some (.rbPop i x)) ∨
      (∃ i a n, s.operation = some (.recvAsync i a n))) ∧
    (t.fg.ok ≠ s.fg.ok → (∃ i x b, s.operation = some (.rbPush i x b)) ∨
      (∃ i x, s.operation = some (.rbPop i x)))

/-- 10_state.md R21, R30, R32: without a user handler, only SET_CALLBACK writes the callback table, VEC is never
cleared and is set only by ENABLE_CALLBACK, and GIE is cleared only with a halt. -/
def Obligations.CallbackTableVectorsAndMaskWriters : Prop :=
  ∀ (s t : State), step s = .next t → s.runsHandler = false →
    (∀ i, (t.inst i).cb ≠ (s.inst i).cb → ∃ k h, s.operation = some (.setCallback i k h)) ∧
    (∀ i, (s.inst i).vec = true → (t.inst i).vec = true) ∧
    (∀ i, (t.inst i).vec ≠ (s.inst i).vec → ∃ k, s.operation = some (.enableCallback i k)) ∧
    (t.gie ≠ s.gie → t.gie = false ∧ t.halt ≠ none)

/-- 20_memory.md R41: without a user handler, only RECV_BLOCKING and RECV_ASYNC store to MEM, and a step of
either stores at most the one byte of the caller's buffer its count names. -/
def Obligations.MemoryIsWrittenByTheReceivesOnly : Prop :=
  ∀ (s t : State), step s = .next t → s.runsHandler = false → ∀ c : Nat,
    Memory.read t.mem c ≠ Memory.read s.mem c →
    (∃ i a n j b, s.fg.loc = .busy (.recvBlocking i a n) (.m3 j b) ∧
      c = (bufAddr a j).toNat ∧ memOk s.cfg (bufAddr a j) = true) ∨
    (∃ i a n j b, s.fg.loc = .busy (.recvAsync i a n) (.g5 j b) ∧
      c = (bufAddr a j).toNat ∧ memOk s.cfg (bufAddr a j) = true)

/-- The canonical form of MEM and of ring storage (the model's data form, log 9) is kept by every step. -/
def Obligations.StepKeepsMemoriesCanonical : Prop :=
  ∀ (s t : State), s.MemoriesCanonical → step s = .next t → t.MemoriesCanonical

/-- 10_state.md R22, 20_memory.md R47: every step keeps the reserved bits of STAT, BRR, CTRL, CTRL2 and CTRL3
at 0, user handlers included. -/
def Obligations.StepKeepsReservedBitsZero : Prop :=
  ∀ (s t : State), s.ReservedZero → step s = .next t → t.ReservedZero

/-- 46_line.md R123: every step keeps `PE = 1 implies RXNE = 1`. -/
def Obligations.StepKeepsParityWithItsByte : Prop :=
  ∀ (s t : State), s.ParityWithByte → step s = .next t → t.ParityWithByte

/-- 10_state.md R20: every step that runs no user handler keeps every ring index at or below its capacity, and
below it for an advance in progress, whatever ring operations the program mixes. It says nothing of the faults:
an agent that meets another's transient `W = C` out of role still raises RingIndexOutOfRange. -/
def Obligations.StepKeepsRingIndicesBounded : Prop :=
  ∀ (s t : State), s.runsHandler = false →
    s.IndicesBounded → s.FgIndexChecked → s.DispIndexChecked → step s = .next t →
    t.IndicesBounded ∧ t.FgIndexChecked ∧ t.DispIndexChecked

/-- 43_async.md R91: from the end of A2 to the end of A8 of a SEND_ASYNC its instance's TXEIE is 0: every step
that runs no user handler keeps it so. -/
def Obligations.StepKeepsTheSendMask : Prop :=
  ∀ (s t : State), s.SendMasked → s.runsHandler = false → step s = .next t → t.SendMasked

/-- 41_ring_buffer.md R84 for RX, at every micro-step boundary: while the dispatcher pushes and FG pops, no
FG operation pushes, and no push completes at occupancy `C - 1`, a step changes the bytes of the ring only by
appending the dispatcher's byte (its step p3) or by taking the oldest byte, the one FG's POP has read (its
step q3); and the two agents stay in agreement with the ring. -/
def Obligations.ReceiveRingIsFifoUnderInterleaving : Prop :=
  ∀ (s t : State) (i : InstId), s.RxInRole i → s.has i = true → s.runsHandler = false →
    (∀ b, s.operation ≠ some (.rbPush i .rx b)) →
    (∀ b w, s.dispAt i = some (.rb4 b w) →
      (s.inst i).rx.occupancy.toNat + 1 < 2 ^ (s.inst i).rx.logC.val) →
    step s = .next t →
    t.RxInRole i ∧
    ((t.inst i).rx.contents = (s.inst i).rx.contents ∨
      (∃ b w, s.dispAt i = some (.rb4 b w) ∧
        (t.inst i).rx.contents = (s.inst i).rx.contents ++ [b]) ∨
      (∃ r b, (s.fgAt (popsRx i) = some (.v3 r b) ∨
          ∃ j, s.fgAt (popsRx i) = some (.g3 j r b)) ∧
        (s.inst i).rx.contents = b :: (t.inst i).rx.contents))

/-- 41_ring_buffer.md R84 for TX, with the critical section of 43_async.md R91, at every micro-step boundary:
while SEND_ASYNC and RB_PUSH push and the dispatcher pops, no RB_POP uses the ring, no push completes at occupancy
`C - 1`, and no pop begins on a drained ring that shows the transient `W = C`, a step changes the bytes of the ring
only by appending the caller's `j`-th byte (A6) or RB_PUSH's byte (U3), or by taking the oldest byte, the one the
dispatcher has read (TR3); and the agents stay in agreement with the ring. The last premise is no rule of the spec:
only an unmasked RB_PUSH (70_reset_and_hazards.md R149) meets that state, and R84 fails in it (log 23). -/
def Obligations.TransmitRingIsFifoUnderInterleaving : Prop :=
  ∀ (s t : State) (i : InstId), s.TxInRole i → s.has i = true → s.runsHandler = false →
    s.operation ≠ some (.rbPop i .tx) →
    (∀ a n j w, s.fg.loc = .busy (.sendAsync i a n) (.a6 j w) →
      (s.inst i).tx.occupancy.toNat + 1 < 2 ^ (s.inst i).tx.logC.val) →
    (∀ b w, s.fg.loc = .busy (.rbPush i .tx b) (.u3 w) →
      (s.inst i).tx.occupancy.toNat + 1 < 2 ^ (s.inst i).tx.logC.val) →
    (s.dispAt i = some .tr1 → (s.inst i).tx.w = (s.inst i).tx.cap →
      (s.inst i).tx.occupancy ≠ 0#32) →
    step s = .next t →
    t.TxInRole i ∧
    ((t.inst i).tx.contents = (s.inst i).tx.contents ∨
      (∃ a n j w, s.fg.loc = .busy (.sendAsync i a n) (.a6 j w) ∧
        (t.inst i).tx.contents = (s.inst i).tx.contents ++
          [Memory.read s.mem (bufAddr a j).toNat]) ∨
      (∃ b w, s.fg.loc = .busy (.rbPush i .tx b) (.u3 w) ∧
        (t.inst i).tx.contents = (s.inst i).tx.contents ++ [b]) ∨
      (∃ r b, s.dispAt i = some (.tr3 r b) ∧
        (s.inst i).tx.contents = b :: (t.inst i).tx.contents))

/-! Reset (70_reset_and_hazards.md) -/

/-- 70_reset_and_hazards.md R144: the reset state of every legal launch, element by element; the values the spec
leaves unspecified (ring storage, TDR) are the launch's, arbitrary. -/
def Obligations.ResetStateOfEveryLaunch : Prop :=
  ∀ l : Launch, l.legal = true → ∃ s, State.launch l = some s ∧
    s.cfg = l.cfg ∧ s.prog = l.prog ∧
    s.fg = { pc := 0, loc := .start, res := none, ok := none } ∧
    s.gie = true ∧ s.active = none ∧ s.dloc = none ∧ s.lat = 0 ∧ s.halt = none ∧ s.fault = none ∧
    s.mem = l.mem0 ∧ s.trace = [] ∧ s.insts.length = l.insts.length ∧
    ∀ (n : Nat) (y : InstLaunch), l.insts[n]? = some y → ∃ x, s.insts[n]? = some x ∧
      x.rx.w = 0#32 ∧ x.rx.r = 0#32 ∧ x.tx.w = 0#32 ∧ x.tx.r = 0#32 ∧
      2 ^ x.rx.logC.val = y.cRx ∧ 2 ^ x.tx.logC.val = y.cTx ∧
      (∀ k, x.cb.get k = 0#32) ∧ x.stat = 0x000000C0#32 ∧ x.rdr = y.rdr0 ∧ x.brr = 0#32 ∧
      x.ctrl = 0#32 ∧ x.ctrl2 = 0#32 ∧ x.ctrl3 = 0#32 ∧ x.vec = false ∧ x.pend = false ∧
      x.clk = false ∧ x.pins = none ∧ x.pairings = y.pairings

/-- 00_scope.md R11: a launch with a capacity that is no power of two, or with N_INST outside 1 to 16, has no
machine. -/
def Obligations.IllegalLaunchHasNoMachine : Prop :=
  ∀ l : Launch, (l.insts.length = 0 ∨ 16 < l.insts.length ∨
      ∃ y ∈ l.insts, (∀ k, y.cRx ≠ 2 ^ k) ∨ (∀ k, y.cTx ≠ 2 ^ k)) →
    State.launch l = none

/-- 70_reset_and_hazards.md R145: at reset no source is asserted and no entry is allowed, so nothing interrupts
FG's first micro-step; with an empty program FG has finished. The invariants hold there. -/
def Obligations.ResetIsQuietAndMeetsTheInvariants : Prop :=
  ∀ (l : Launch) (s : State), State.launch l = some s →
    (∀ i, s.allowed i = false) ∧ (∀ x ∈ s.insts, x.line s.cfg = false) ∧
    (s.fgMay = true ↔ l.prog ≠ []) ∧
    s.MemoriesCanonical ∧ s.ReservedZero ∧ s.ParityWithByte ∧ s.IndicesBounded ∧
    s.FgIndexChecked ∧ s.DispIndexChecked ∧ s.SendMasked ∧
    ∀ i, s.has i = true → s.RxInRole i ∧ s.TxInRole i
end

