-- ==== Sys2Proof/Laws/Memory.lean ====
section
/-! SUPPORT. The laws of memory: read after write, the canonical form is kept, and canonical memories
that read the same are equal. -/

namespace Sys2Proof.Machine

theorem Memory.wfFrom_mono {lo lo' : Nat} {m : Memory} (h : lo' ≤ lo) (hm : m.wfFrom lo = true) :
    m.wfFrom lo' = true := by
  cases m with
  | nil => rfl
  | cons c m =>
    obtain ⟨a, b⟩ := c
    simp only [Memory.wfFrom, Bool.and_eq_true, decide_eq_true_eq] at hm ⊢
    exact ⟨⟨by omega, hm.1.2⟩, hm.2⟩

/-- Below its first address a canonical memory reads as unlisted. -/
theorem Memory.read_below {lo x : Nat} {m : Memory} (hm : m.wfFrom lo = true) (hx : x < lo) :
    m.read x = 0#8 := by
  induction m generalizing lo with
  | nil => rfl
  | cons c m ih =>
    obtain ⟨a, b⟩ := c
    simp only [Memory.wfFrom, Bool.and_eq_true, decide_eq_true_eq] at hm
    have hne : ¬ x = a := by omega
    simp only [Memory.read, hne, if_false]
    exact ih hm.2 (by omega)

theorem Memory.read_write_ne (m : Memory) {x y : Nat} (v : Byte) (h : y ≠ x) :
    (m.write x v).read y = m.read y := by
  induction m with
  | nil => by_cases hv : v = 0#8 <;> simp [Memory.write, Memory.read, hv, h]
  | cons c m ih =>
    obtain ⟨a, b⟩ := c
    simp only [Memory.write]
    split
    · split <;> simp [Memory.read, h]
    · split
      · rename_i hxa
        split <;> simp [Memory.read, ← hxa, h]
      · simp [Memory.read, ih]

theorem Memory.read_writeFrom_self {lo : Nat} {m : Memory} (x : Nat) (v : Byte)
    (hm : m.wfFrom lo = true) : (m.write x v).read x = v := by
  induction m generalizing lo with
  | nil => by_cases hv : v = 0#8 <;> simp [Memory.write, Memory.read, hv]
  | cons c m ih =>
    obtain ⟨a, b⟩ := c
    simp only [Memory.wfFrom, Bool.and_eq_true, decide_eq_true_eq] at hm
    simp only [Memory.write]
    split
    · rename_i hxa
      have hne : ¬ x = a := by omega
      split
      · rename_i hv
        rw [Memory.read, if_neg hne, Memory.read_below hm.2 (by omega), hv]
      · simp [Memory.read]
    · split
      · rename_i hxa
        split
        · rename_i hv
          rw [Memory.read_below hm.2 (by omega), hv]
        · simp [Memory.read, hxa]
      · rename_i hxa
        rw [Memory.read, if_neg hxa]
        exact ih hm.2

/-- A read after a write to the same address gives the byte written. -/
theorem Memory.read_write_self {m : Memory} (x : Nat) (v : Byte) (hm : m.wf = true) :
    (m.write x v).read x = v := Memory.read_writeFrom_self x v hm

theorem Memory.write_wfFrom {lo : Nat} {m : Memory} {x : Nat} (v : Byte) (hx : lo ≤ x)
    (hm : m.wfFrom lo = true) : (m.write x v).wfFrom lo = true := by
  induction m generalizing lo with
  | nil => by_cases hv : v = 0#8 <;> simp [Memory.write, Memory.wfFrom, hv, hx]
  | cons c m ih =>
    obtain ⟨a, b⟩ := c
    simp only [Memory.wfFrom, Bool.and_eq_true, decide_eq_true_eq] at hm
    simp only [Memory.write]
    split
    · rename_i hxa
      split
      · simp [Memory.wfFrom, hm]
      · rename_i hv
        simp only [Memory.wfFrom, Bool.and_eq_true, decide_eq_true_eq]
        exact ⟨⟨hx, hv⟩, ⟨by omega, hm.1.2⟩, hm.2⟩
    · split
      · split
        · exact Memory.wfFrom_mono (by omega) hm.2
        · rename_i hv
          simp only [Memory.wfFrom, Bool.and_eq_true, decide_eq_true_eq]
          exact ⟨⟨hm.1.1, hv⟩, hm.2⟩
      · simp only [Memory.wfFrom, Bool.and_eq_true, decide_eq_true_eq]
        exact ⟨hm.1, ih (by omega) hm.2⟩

/-- Every write keeps the canonical form. -/
theorem Memory.write_wf {m : Memory} (x : Nat) (v : Byte) (hm : m.wf = true) :
    (m.write x v).wf = true := Memory.write_wfFrom v (Nat.zero_le x) hm

theorem Memory.ext_wfFrom {lo : Nat} {m n : Memory} (hm : m.wfFrom lo = true)
    (hn : n.wfFrom lo = true) (h : ∀ x, m.read x = n.read x) : m = n := by
  induction m generalizing lo n with
  | nil =>
    cases n with
    | nil => rfl
    | cons d n =>
      obtain ⟨c, e⟩ := d
      simp only [Memory.wfFrom, Bool.and_eq_true, decide_eq_true_eq] at hn
      have := h c
      simp [Memory.read] at this
      exact absurd this.symm hn.1.2
  | cons p m ih =>
    obtain ⟨a, b⟩ := p
    simp only [Memory.wfFrom, Bool.and_eq_true, decide_eq_true_eq] at hm
    cases n with
    | nil =>
      have := h a
      simp [Memory.read] at this
      exact absurd this hm.1.2
    | cons d n =>
      obtain ⟨c, e⟩ := d
      simp only [Memory.wfFrom, Bool.and_eq_true, decide_eq_true_eq] at hn
      have hac : a = c := by
        rcases Nat.lt_trichotomy a c with hlt | heq | hlt
        · have := h a
          have hne : ¬ a = c := by omega
          rw [Memory.read, if_pos rfl, Memory.read, if_neg hne,
            Memory.read_below hn.2 (by omega)] at this
          exact absurd this hm.1.2
        · exact heq
        · have := h c
          have hne : ¬ c = a := by omega
          rw [Memory.read, if_neg hne, Memory.read, if_pos rfl,
            Memory.read_below hm.2 (by omega)] at this
          exact absurd this.symm hn.1.2
      subst hac
      have hbe : b = e := by simpa [Memory.read] using h a
      subst hbe
      have : m = n := by
        refine ih hm.2 hn.2 (fun x => ?_)
        by_cases hx : x = a
        · subst hx
          rw [Memory.read_below hm.2 (by omega), Memory.read_below hn.2 (by omega)]
        · simpa [Memory.read, hx] using h x
      rw [this]

/-- Canonical memories that read the same are the same data. -/
theorem Memory.ext_wf {m n : Memory} (hm : m.wf = true) (hn : n.wf = true)
    (h : ∀ x, m.read x = n.read x) : m = n := Memory.ext_wfFrom hm hn h

end Sys2Proof.Machine
end

