-- ==== Sys2Proof/Laws/State.lean ====
section
/-! SUPPORT. One lemma per field of State for each of its updates, true by definition, so that no proof
unfolds a record update. -/

namespace Sys2Proof.Machine

/-! `State.modInst` -/

@[simp] theorem State.modInst_cfg (s : State) (i : InstId) (f : Inst → Inst) :
    (s.modInst i f).cfg = s.cfg := rfl
@[simp] theorem State.modInst_prog (s : State) (i : InstId) (f : Inst → Inst) :
    (s.modInst i f).prog = s.prog := rfl
@[simp] theorem State.modInst_fg (s : State) (i : InstId) (f : Inst → Inst) :
    (s.modInst i f).fg = s.fg := rfl
@[simp] theorem State.modInst_insts (s : State) (i : InstId) (f : Inst → Inst) :
    (s.modInst i f).insts = s.insts.modify i.val f := rfl
@[simp] theorem State.modInst_gie (s : State) (i : InstId) (f : Inst → Inst) :
    (s.modInst i f).gie = s.gie := rfl
@[simp] theorem State.modInst_active (s : State) (i : InstId) (f : Inst → Inst) :
    (s.modInst i f).active = s.active := rfl
@[simp] theorem State.modInst_dloc (s : State) (i : InstId) (f : Inst → Inst) :
    (s.modInst i f).dloc = s.dloc := rfl
@[simp] theorem State.modInst_lat (s : State) (i : InstId) (f : Inst → Inst) :
    (s.modInst i f).lat = s.lat := rfl
@[simp] theorem State.modInst_halt (s : State) (i : InstId) (f : Inst → Inst) :
    (s.modInst i f).halt = s.halt := rfl
@[simp] theorem State.modInst_fault (s : State) (i : InstId) (f : Inst → Inst) :
    (s.modInst i f).fault = s.fault := rfl
@[simp] theorem State.modInst_mem (s : State) (i : InstId) (f : Inst → Inst) :
    (s.modInst i f).mem = s.mem := rfl
@[simp] theorem State.modInst_trace (s : State) (i : InstId) (f : Inst → Inst) :
    (s.modInst i f).trace = s.trace := rfl
@[simp] theorem State.modInst_sched (s : State) (i : InstId) (f : Inst → Inst) :
    (s.modInst i f).sched = s.sched := rfl
@[simp] theorem State.modInst_draws (s : State) (i : InstId) (f : Inst → Inst) :
    (s.modInst i f).draws = s.draws := rfl

/-! `State.goto` -/

@[simp] theorem State.goto_cfg (s : State) (op : Instr) (l : Label) :
    (s.goto op l).cfg = s.cfg := rfl
@[simp] theorem State.goto_prog (s : State) (op : Instr) (l : Label) :
    (s.goto op l).prog = s.prog := rfl
@[simp] theorem State.goto_fg (s : State) (op : Instr) (l : Label) :
    (s.goto op l).fg = { s.fg with loc := .busy op l } := rfl
@[simp] theorem State.goto_insts (s : State) (op : Instr) (l : Label) :
    (s.goto op l).insts = s.insts := rfl
@[simp] theorem State.goto_gie (s : State) (op : Instr) (l : Label) :
    (s.goto op l).gie = s.gie := rfl
@[simp] theorem State.goto_active (s : State) (op : Instr) (l : Label) :
    (s.goto op l).active = s.active := rfl
@[simp] theorem State.goto_dloc (s : State) (op : Instr) (l : Label) :
    (s.goto op l).dloc = s.dloc := rfl
@[simp] theorem State.goto_lat (s : State) (op : Instr) (l : Label) :
    (s.goto op l).lat = s.lat := rfl
@[simp] theorem State.goto_halt (s : State) (op : Instr) (l : Label) :
    (s.goto op l).halt = s.halt := rfl
@[simp] theorem State.goto_fault (s : State) (op : Instr) (l : Label) :
    (s.goto op l).fault = s.fault := rfl
@[simp] theorem State.goto_mem (s : State) (op : Instr) (l : Label) :
    (s.goto op l).mem = s.mem := rfl
@[simp] theorem State.goto_trace (s : State) (op : Instr) (l : Label) :
    (s.goto op l).trace = s.trace := rfl
@[simp] theorem State.goto_sched (s : State) (op : Instr) (l : Label) :
    (s.goto op l).sched = s.sched := rfl
@[simp] theorem State.goto_draws (s : State) (op : Instr) (l : Label) :
    (s.goto op l).draws = s.draws := rfl

/-! `State.finish` -/

@[simp] theorem State.finish_cfg (s : State) : (s.finish).cfg = s.cfg := rfl
@[simp] theorem State.finish_prog (s : State) : (s.finish).prog = s.prog := rfl
@[simp] theorem State.finish_fg (s : State) :
    (s.finish).fg = { s.fg with pc := s.fg.pc + 1, loc := .start } := rfl
@[simp] theorem State.finish_insts (s : State) : (s.finish).insts = s.insts := rfl
@[simp] theorem State.finish_gie (s : State) : (s.finish).gie = s.gie := rfl
@[simp] theorem State.finish_active (s : State) : (s.finish).active = s.active := rfl
@[simp] theorem State.finish_dloc (s : State) : (s.finish).dloc = s.dloc := rfl
@[simp] theorem State.finish_lat (s : State) : (s.finish).lat = s.lat := rfl
@[simp] theorem State.finish_halt (s : State) : (s.finish).halt = s.halt := rfl
@[simp] theorem State.finish_fault (s : State) : (s.finish).fault = s.fault := rfl
@[simp] theorem State.finish_mem (s : State) : (s.finish).mem = s.mem := rfl
@[simp] theorem State.finish_trace (s : State) : (s.finish).trace = s.trace := rfl
@[simp] theorem State.finish_sched (s : State) : (s.finish).sched = s.sched := rfl
@[simp] theorem State.finish_draws (s : State) : (s.finish).draws = s.draws := rfl

/-! `State.setRes` -/

@[simp] theorem State.setRes_cfg (s : State) (v : Word) : (s.setRes v).cfg = s.cfg := rfl
@[simp] theorem State.setRes_prog (s : State) (v : Word) : (s.setRes v).prog = s.prog := rfl
@[simp] theorem State.setRes_fg (s : State) (v : Word) :
    (s.setRes v).fg = { s.fg with res := some v } := rfl
@[simp] theorem State.setRes_insts (s : State) (v : Word) : (s.setRes v).insts = s.insts := rfl
@[simp] theorem State.setRes_gie (s : State) (v : Word) : (s.setRes v).gie = s.gie := rfl
@[simp] theorem State.setRes_active (s : State) (v : Word) : (s.setRes v).active = s.active := rfl
@[simp] theorem State.setRes_dloc (s : State) (v : Word) : (s.setRes v).dloc = s.dloc := rfl
@[simp] theorem State.setRes_lat (s : State) (v : Word) : (s.setRes v).lat = s.lat := rfl
@[simp] theorem State.setRes_halt (s : State) (v : Word) : (s.setRes v).halt = s.halt := rfl
@[simp] theorem State.setRes_fault (s : State) (v : Word) : (s.setRes v).fault = s.fault := rfl
@[simp] theorem State.setRes_mem (s : State) (v : Word) : (s.setRes v).mem = s.mem := rfl
@[simp] theorem State.setRes_trace (s : State) (v : Word) : (s.setRes v).trace = s.trace := rfl
@[simp] theorem State.setRes_sched (s : State) (v : Word) : (s.setRes v).sched = s.sched := rfl
@[simp] theorem State.setRes_draws (s : State) (v : Word) : (s.setRes v).draws = s.draws := rfl

/-! `State.setOk` -/

@[simp] theorem State.setOk_cfg (s : State) (b : Bool) : (s.setOk b).cfg = s.cfg := rfl
@[simp] theorem State.setOk_prog (s : State) (b : Bool) : (s.setOk b).prog = s.prog := rfl
@[simp] theorem State.setOk_fg (s : State) (b : Bool) :
    (s.setOk b).fg = { s.fg with ok := some b } := rfl
@[simp] theorem State.setOk_insts (s : State) (b : Bool) : (s.setOk b).insts = s.insts := rfl
@[simp] theorem State.setOk_gie (s : State) (b : Bool) : (s.setOk b).gie = s.gie := rfl
@[simp] theorem State.setOk_active (s : State) (b : Bool) : (s.setOk b).active = s.active := rfl
@[simp] theorem State.setOk_dloc (s : State) (b : Bool) : (s.setOk b).dloc = s.dloc := rfl
@[simp] theorem State.setOk_lat (s : State) (b : Bool) : (s.setOk b).lat = s.lat := rfl
@[simp] theorem State.setOk_halt (s : State) (b : Bool) : (s.setOk b).halt = s.halt := rfl
@[simp] theorem State.setOk_fault (s : State) (b : Bool) : (s.setOk b).fault = s.fault := rfl
@[simp] theorem State.setOk_mem (s : State) (b : Bool) : (s.setOk b).mem = s.mem := rfl
@[simp] theorem State.setOk_trace (s : State) (b : Bool) : (s.setOk b).trace = s.trace := rfl
@[simp] theorem State.setOk_sched (s : State) (b : Bool) : (s.setOk b).sched = s.sched := rfl
@[simp] theorem State.setOk_draws (s : State) (b : Bool) : (s.setOk b).draws = s.draws := rfl

/-! `State.emit` -/

@[simp] theorem State.emit_cfg (s : State) (e : Event) : (s.emit e).cfg = s.cfg := rfl
@[simp] theorem State.emit_prog (s : State) (e : Event) : (s.emit e).prog = s.prog := rfl
@[simp] theorem State.emit_fg (s : State) (e : Event) : (s.emit e).fg = s.fg := rfl
@[simp] theorem State.emit_insts (s : State) (e : Event) : (s.emit e).insts = s.insts := rfl
@[simp] theorem State.emit_gie (s : State) (e : Event) : (s.emit e).gie = s.gie := rfl
@[simp] theorem State.emit_active (s : State) (e : Event) : (s.emit e).active = s.active := rfl
@[simp] theorem State.emit_dloc (s : State) (e : Event) : (s.emit e).dloc = s.dloc := rfl
@[simp] theorem State.emit_lat (s : State) (e : Event) : (s.emit e).lat = s.lat := rfl
@[simp] theorem State.emit_halt (s : State) (e : Event) : (s.emit e).halt = s.halt := rfl
@[simp] theorem State.emit_fault (s : State) (e : Event) : (s.emit e).fault = s.fault := rfl
@[simp] theorem State.emit_mem (s : State) (e : Event) : (s.emit e).mem = s.mem := rfl
@[simp] theorem State.emit_trace (s : State) (e : Event) : (s.emit e).trace = s.trace ++ [e] := rfl
@[simp] theorem State.emit_sched (s : State) (e : Event) : (s.emit e).sched = s.sched := rfl
@[simp] theorem State.emit_draws (s : State) (e : Event) : (s.emit e).draws = s.draws := rfl

/-! `State.enter` -/

@[simp] theorem State.enter_cfg (s : State) (i : InstId) : (s.enter i).cfg = s.cfg := rfl
@[simp] theorem State.enter_prog (s : State) (i : InstId) : (s.enter i).prog = s.prog := rfl
@[simp] theorem State.enter_fg (s : State) (i : InstId) : (s.enter i).fg = s.fg := rfl
@[simp] theorem State.enter_insts (s : State) (i : InstId) :
    (s.enter i).insts = s.insts.modify i.val (fun x => { x with pend := false }) := rfl
@[simp] theorem State.enter_gie (s : State) (i : InstId) : (s.enter i).gie = s.gie := rfl
@[simp] theorem State.enter_active (s : State) (i : InstId) : (s.enter i).active = some i := rfl
@[simp] theorem State.enter_dloc (s : State) (i : InstId) : (s.enter i).dloc = some .c0 := rfl
@[simp] theorem State.enter_lat (s : State) (i : InstId) : (s.enter i).lat = s.lat := rfl
@[simp] theorem State.enter_halt (s : State) (i : InstId) : (s.enter i).halt = s.halt := rfl
@[simp] theorem State.enter_fault (s : State) (i : InstId) : (s.enter i).fault = s.fault := rfl
@[simp] theorem State.enter_mem (s : State) (i : InstId) : (s.enter i).mem = s.mem := rfl
@[simp] theorem State.enter_trace (s : State) (i : InstId) : (s.enter i).trace = s.trace := rfl
@[simp] theorem State.enter_sched (s : State) (i : InstId) : (s.enter i).sched = s.sched := rfl
@[simp] theorem State.enter_draws (s : State) (i : InstId) : (s.enter i).draws = s.draws := rfl

/-! `State.exit` -/

@[simp] theorem State.exit_cfg (s : State) : (s.exit).cfg = s.cfg := rfl
@[simp] theorem State.exit_prog (s : State) : (s.exit).prog = s.prog := rfl
@[simp] theorem State.exit_fg (s : State) : (s.exit).fg = s.fg := rfl
@[simp] theorem State.exit_insts (s : State) : (s.exit).insts = s.insts := rfl
@[simp] theorem State.exit_gie (s : State) : (s.exit).gie = s.gie := rfl
@[simp] theorem State.exit_active (s : State) : (s.exit).active = none := rfl
@[simp] theorem State.exit_dloc (s : State) : (s.exit).dloc = none := rfl
@[simp] theorem State.exit_lat (s : State) : (s.exit).lat = s.cfg.irqLatency := rfl
@[simp] theorem State.exit_halt (s : State) : (s.exit).halt = s.halt := rfl
@[simp] theorem State.exit_fault (s : State) : (s.exit).fault = s.fault := rfl
@[simp] theorem State.exit_mem (s : State) : (s.exit).mem = s.mem := rfl
@[simp] theorem State.exit_trace (s : State) : (s.exit).trace = s.trace := rfl
@[simp] theorem State.exit_sched (s : State) : (s.exit).sched = s.sched := rfl
@[simp] theorem State.exit_draws (s : State) : (s.exit).draws = s.draws := rfl

/-! `State.dgoto` -/

@[simp] theorem State.dgoto_cfg (s : State) (l : DLoc) : (s.dgoto l).cfg = s.cfg := rfl
@[simp] theorem State.dgoto_prog (s : State) (l : DLoc) : (s.dgoto l).prog = s.prog := rfl
@[simp] theorem State.dgoto_fg (s : State) (l : DLoc) : (s.dgoto l).fg = s.fg := rfl
@[simp] theorem State.dgoto_insts (s : State) (l : DLoc) : (s.dgoto l).insts = s.insts := rfl
@[simp] theorem State.dgoto_gie (s : State) (l : DLoc) : (s.dgoto l).gie = s.gie := rfl
@[simp] theorem State.dgoto_active (s : State) (l : DLoc) : (s.dgoto l).active = s.active := rfl
@[simp] theorem State.dgoto_dloc (s : State) (l : DLoc) : (s.dgoto l).dloc = some l := rfl
@[simp] theorem State.dgoto_lat (s : State) (l : DLoc) : (s.dgoto l).lat = s.lat := rfl
@[simp] theorem State.dgoto_halt (s : State) (l : DLoc) : (s.dgoto l).halt = s.halt := rfl
@[simp] theorem State.dgoto_fault (s : State) (l : DLoc) : (s.dgoto l).fault = s.fault := rfl
@[simp] theorem State.dgoto_mem (s : State) (l : DLoc) : (s.dgoto l).mem = s.mem := rfl
@[simp] theorem State.dgoto_trace (s : State) (l : DLoc) : (s.dgoto l).trace = s.trace := rfl
@[simp] theorem State.dgoto_sched (s : State) (l : DLoc) : (s.dgoto l).sched = s.sched := rfl
@[simp] theorem State.dgoto_draws (s : State) (l : DLoc) : (s.dgoto l).draws = s.draws := rfl

/-! `State.defaultHalt` -/

@[simp] theorem State.defaultHalt_cfg (s : State) (i : InstId) (k : Kind) :
    (s.defaultHalt i k).cfg = s.cfg := rfl
@[simp] theorem State.defaultHalt_prog (s : State) (i : InstId) (k : Kind) :
    (s.defaultHalt i k).prog = s.prog := rfl
@[simp] theorem State.defaultHalt_fg (s : State) (i : InstId) (k : Kind) :
    (s.defaultHalt i k).fg = s.fg := rfl
@[simp] theorem State.defaultHalt_insts (s : State) (i : InstId) (k : Kind) :
    (s.defaultHalt i k).insts = s.insts := rfl
@[simp] theorem State.defaultHalt_gie (s : State) (i : InstId) (k : Kind) :
    (s.defaultHalt i k).gie = false := rfl
@[simp] theorem State.defaultHalt_active (s : State) (i : InstId) (k : Kind) :
    (s.defaultHalt i k).active = s.active := rfl
@[simp] theorem State.defaultHalt_dloc (s : State) (i : InstId) (k : Kind) :
    (s.defaultHalt i k).dloc = s.dloc := rfl
@[simp] theorem State.defaultHalt_lat (s : State) (i : InstId) (k : Kind) :
    (s.defaultHalt i k).lat = s.lat := rfl
@[simp] theorem State.defaultHalt_halt (s : State) (i : InstId) (k : Kind) :
    (s.defaultHalt i k).halt = some (i, k) := rfl
@[simp] theorem State.defaultHalt_fault (s : State) (i : InstId) (k : Kind) :
    (s.defaultHalt i k).fault = s.fault := rfl
@[simp] theorem State.defaultHalt_mem (s : State) (i : InstId) (k : Kind) :
    (s.defaultHalt i k).mem = s.mem := rfl
@[simp] theorem State.defaultHalt_trace (s : State) (i : InstId) (k : Kind) :
    (s.defaultHalt i k).trace = s.trace ++ [.halt i k] := rfl
@[simp] theorem State.defaultHalt_sched (s : State) (i : InstId) (k : Kind) :
    (s.defaultHalt i k).sched = s.sched := rfl
@[simp] theorem State.defaultHalt_draws (s : State) (i : InstId) (k : Kind) :
    (s.defaultHalt i k).draws = s.draws := rfl

/-! Every other update of an instance is a `modInst`. -/

theorem State.regWrite_eq_modInst (s : State) (i : InstId) (r : Reg) (v : Word) :
    s.regWrite i r v = s.modInst i (fun x => x.regWrite r v) := rfl
theorem State.regReadEffect_eq_modInst (s : State) (i : InstId) (r : Reg) :
    s.regReadEffect i r = s.modInst i (fun x => x.regReadEffect s.cfg r) := rfl
theorem State.setRingW_eq_modInst (s : State) (i : InstId) (x : RingSel) (w : Word) :
    s.setRingW i x w = s.modInst i (fun y => y.setRing x { y.ring x with w := w }) := rfl
theorem State.setRingR_eq_modInst (s : State) (i : InstId) (x : RingSel) (r : Word) :
    s.setRingR i x r = s.modInst i (fun y => y.setRing x { y.ring x with r := r }) := rfl
theorem State.setCell_eq_modInst (s : State) (i : InstId) (x : RingSel) (n : Word) (b : Byte) :
    s.setCell i x n b = s.modInst i (fun y =>
      y.setRing x { y.ring x with buf := Memory.write (y.ring x).buf n.toNat b }) := rfl
theorem State.pushIncrement_eq_setRingW (s : State) (i : InstId) (x : RingSel) (w : Word) :
    s.pushIncrement i x w = s.setRingW i x (w + 1#32) := rfl
theorem State.pushMask_eq_setRingW (s : State) (i : InstId) (x : RingSel) (w : Word) :
    s.pushMask i x w = s.setRingW i x ((s.ring i x).wrap w) := rfl
theorem State.popIncrement_eq_setRingR (s : State) (i : InstId) (x : RingSel) (r : Word) :
    s.popIncrement i x r = s.setRingR i x (r + 1#32) := rfl
theorem State.popMask_eq_setRingR (s : State) (i : InstId) (x : RingSel) (r : Word) :
    s.popMask i x r = s.setRingR i x ((s.ring i x).wrap r) := rfl

/-! Reading an instance after an update. -/

theorem State.has_iff (s : State) (i : InstId) : s.has i = true ↔ i.val < s.insts.length := by
  simp [State.has]

@[simp] theorem State.has_modInst (s : State) (i j : InstId) (f : Inst → Inst) :
    (s.modInst i f).has j = s.has j := by simp [State.has]

@[simp] theorem State.inst_modInst_self {s : State} {i : InstId} (h : s.has i = true)
    (f : Inst → Inst) : (s.modInst i f).inst i = f (s.inst i) := by
  have hi := (s.has_iff i).1 h
  simp [State.inst, List.getD_eq_getElem?_getD, hi]

theorem State.inst_modInst_of_ne {s : State} {i j : InstId} (h : j ≠ i) (f : Inst → Inst) :
    (s.modInst i f).inst j = s.inst j := by
  have hne : ¬ i.val = j.val := fun e => h (Fin.ext e.symm)
  simp [State.inst, List.getD_eq_getElem?_getD, hne]

theorem State.modInst_of_absent {s : State} {i : InstId} (h : s.has i = false) (f : Inst → Inst) :
    s.modInst i f = s := by
  have hi : s.insts.length ≤ i.val := by simpa [State.has] using h
  have hm : s.insts.modify i.val f = s.insts := by
    apply List.ext_getElem?
    intro n
    rw [List.getElem?_modify]
    by_cases hn : i.val = n
    · subst hn; simp [List.getElem?_eq_none hi]
    · simp [hn]
  show { s with insts := s.insts.modify i.val f } = s
  rw [hm]

/-- An update that changes nothing. -/
theorem State.modInst_id (s : State) (i : InstId) : s.modInst i (fun x => x) = s := by
  have : s.insts.modify i.val (fun x => x) = s.insts := by
    apply List.ext_getElem?
    intro n
    rw [List.getElem?_modify]
    by_cases hn : i.val = n <;> simp [hn]
  show { s with insts := s.insts.modify i.val (fun x => x) } = s
  rw [this]

/-- Two updates of one instance are one. -/
theorem State.modInst_modInst (s : State) (i : InstId) (f g : Inst → Inst) :
    (s.modInst i f).modInst i g = s.modInst i (fun x => g (f x)) := by
  have : (s.insts.modify i.val f).modify i.val g = s.insts.modify i.val (fun x => g (f x)) := by
    apply List.ext_getElem?
    intro n
    simp only [List.getElem?_modify]
    by_cases hn : i.val = n <;> cases s.insts[n]? <;> simp [hn]
  show { s with insts := (s.insts.modify i.val f).modify i.val g } = _
  rw [this]
  rfl

/-! The updates that leave the instances alone leave each of them alone. -/

@[simp] theorem State.inst_goto (s : State) (op : Instr) (l : Label) (j : InstId) :
    (s.goto op l).inst j = s.inst j := rfl
@[simp] theorem State.has_goto (s : State) (op : Instr) (l : Label) (j : InstId) :
    (s.goto op l).has j = s.has j := rfl
@[simp] theorem State.inst_finish (s : State) (j : InstId) :
    (s.finish).inst j = s.inst j := rfl
@[simp] theorem State.has_finish (s : State) (j : InstId) :
    (s.finish).has j = s.has j := rfl
@[simp] theorem State.inst_setRes (s : State) (v : Word) (j : InstId) :
    (s.setRes v).inst j = s.inst j := rfl
@[simp] theorem State.has_setRes (s : State) (v : Word) (j : InstId) :
    (s.setRes v).has j = s.has j := rfl
@[simp] theorem State.inst_setOk (s : State) (b : Bool) (j : InstId) :
    (s.setOk b).inst j = s.inst j := rfl
@[simp] theorem State.has_setOk (s : State) (b : Bool) (j : InstId) :
    (s.setOk b).has j = s.has j := rfl
@[simp] theorem State.inst_emit (s : State) (e : Event) (j : InstId) :
    (s.emit e).inst j = s.inst j := rfl
@[simp] theorem State.has_emit (s : State) (e : Event) (j : InstId) :
    (s.emit e).has j = s.has j := rfl
@[simp] theorem State.inst_exit (s : State) (j : InstId) :
    (s.exit).inst j = s.inst j := rfl
@[simp] theorem State.has_exit (s : State) (j : InstId) :
    (s.exit).has j = s.has j := rfl
@[simp] theorem State.inst_dgoto (s : State) (l : DLoc) (j : InstId) :
    (s.dgoto l).inst j = s.inst j := rfl
@[simp] theorem State.has_dgoto (s : State) (l : DLoc) (j : InstId) :
    (s.dgoto l).has j = s.has j := rfl
@[simp] theorem State.inst_defaultHalt (s : State) (i : InstId) (k : Kind) (j : InstId) :
    (s.defaultHalt i k).inst j = s.inst j := rfl
@[simp] theorem State.has_defaultHalt (s : State) (i : InstId) (k : Kind) (j : InstId) :
    (s.defaultHalt i k).has j = s.has j := rfl

/-! Rings and fields of an instance. -/

@[simp] theorem Inst.ring_setRing_self (x : Inst) (a : RingSel) (q : Ring) :
    (x.setRing a q).ring a = q := by cases a <;> rfl
theorem Inst.ring_setRing_of_ne (x : Inst) {a b : RingSel} (h : b ≠ a) (q : Ring) :
    (x.setRing a q).ring b = x.ring b := by cases a <;> cases b <;> simp_all [Inst.setRing, Inst.ring]
@[simp] theorem Inst.setRing_pairings (x : Inst) (a : RingSel) (q : Ring) :
    (x.setRing a q).pairings = x.pairings := by cases a <;> rfl
@[simp] theorem Inst.setRing_cb (x : Inst) (a : RingSel) (q : Ring) :
    (x.setRing a q).cb = x.cb := by cases a <;> rfl
@[simp] theorem Inst.setRing_stat (x : Inst) (a : RingSel) (q : Ring) :
    (x.setRing a q).stat = x.stat := by cases a <;> rfl
@[simp] theorem Inst.setRing_rdr (x : Inst) (a : RingSel) (q : Ring) :
    (x.setRing a q).rdr = x.rdr := by cases a <;> rfl
@[simp] theorem Inst.setRing_tdr (x : Inst) (a : RingSel) (q : Ring) :
    (x.setRing a q).tdr = x.tdr := by cases a <;> rfl
@[simp] theorem Inst.setRing_brr (x : Inst) (a : RingSel) (q : Ring) :
    (x.setRing a q).brr = x.brr := by cases a <;> rfl
@[simp] theorem Inst.setRing_ctrl (x : Inst) (a : RingSel) (q : Ring) :
    (x.setRing a q).ctrl = x.ctrl := by cases a <;> rfl
@[simp] theorem Inst.setRing_ctrl2 (x : Inst) (a : RingSel) (q : Ring) :
    (x.setRing a q).ctrl2 = x.ctrl2 := by cases a <;> rfl
@[simp] theorem Inst.setRing_ctrl3 (x : Inst) (a : RingSel) (q : Ring) :
    (x.setRing a q).ctrl3 = x.ctrl3 := by cases a <;> rfl
@[simp] theorem Inst.setRing_vec (x : Inst) (a : RingSel) (q : Ring) :
    (x.setRing a q).vec = x.vec := by cases a <;> rfl
@[simp] theorem Inst.setRing_pend (x : Inst) (a : RingSel) (q : Ring) :
    (x.setRing a q).pend = x.pend := by cases a <;> rfl
@[simp] theorem Inst.setRing_clk (x : Inst) (a : RingSel) (q : Ring) :
    (x.setRing a q).clk = x.clk := by cases a <;> rfl
@[simp] theorem Inst.setRing_pins (x : Inst) (a : RingSel) (q : Ring) :
    (x.setRing a q).pins = x.pins := by cases a <;> rfl

/-! What a register access leaves alone in an instance. -/

@[simp] theorem Inst.regWrite_pairings (x : Inst) (r : Reg) (v : Word) :
    (x.regWrite r v).pairings = x.pairings := by cases r <;> rfl
@[simp] theorem Inst.regWrite_rx (x : Inst) (r : Reg) (v : Word) :
    (x.regWrite r v).rx = x.rx := by cases r <;> rfl
@[simp] theorem Inst.regWrite_tx (x : Inst) (r : Reg) (v : Word) :
    (x.regWrite r v).tx = x.tx := by cases r <;> rfl
@[simp] theorem Inst.regWrite_cb (x : Inst) (r : Reg) (v : Word) :
    (x.regWrite r v).cb = x.cb := by cases r <;> rfl
@[simp] theorem Inst.regWrite_rdr (x : Inst) (r : Reg) (v : Word) :
    (x.regWrite r v).rdr = x.rdr := by cases r <;> rfl
@[simp] theorem Inst.regWrite_vec (x : Inst) (r : Reg) (v : Word) :
    (x.regWrite r v).vec = x.vec := by cases r <;> rfl
@[simp] theorem Inst.regWrite_pend (x : Inst) (r : Reg) (v : Word) :
    (x.regWrite r v).pend = x.pend := by cases r <;> rfl
@[simp] theorem Inst.regWrite_clk (x : Inst) (r : Reg) (v : Word) :
    (x.regWrite r v).clk = x.clk := by cases r <;> rfl
@[simp] theorem Inst.regWrite_pins (x : Inst) (r : Reg) (v : Word) :
    (x.regWrite r v).pins = x.pins := by cases r <;> rfl
@[simp] theorem Inst.regReadEffect_pairings (cfg : Config) (x : Inst) (r : Reg) :
    (x.regReadEffect cfg r).pairings = x.pairings := by
  cases r <;> first | rfl | (simp only [Inst.regReadEffect, Inst.dataReadEffect]; split <;> rfl)
@[simp] theorem Inst.regReadEffect_rx (cfg : Config) (x : Inst) (r : Reg) :
    (x.regReadEffect cfg r).rx = x.rx := by
  cases r <;> first | rfl | (simp only [Inst.regReadEffect, Inst.dataReadEffect]; split <;> rfl)
@[simp] theorem Inst.regReadEffect_tx (cfg : Config) (x : Inst) (r : Reg) :
    (x.regReadEffect cfg r).tx = x.tx := by
  cases r <;> first | rfl | (simp only [Inst.regReadEffect, Inst.dataReadEffect]; split <;> rfl)
@[simp] theorem Inst.regReadEffect_cb (cfg : Config) (x : Inst) (r : Reg) :
    (x.regReadEffect cfg r).cb = x.cb := by
  cases r <;> first | rfl | (simp only [Inst.regReadEffect, Inst.dataReadEffect]; split <;> rfl)
@[simp] theorem Inst.regReadEffect_rdr (cfg : Config) (x : Inst) (r : Reg) :
    (x.regReadEffect cfg r).rdr = x.rdr := by
  cases r <;> first | rfl | (simp only [Inst.regReadEffect, Inst.dataReadEffect]; split <;> rfl)
@[simp] theorem Inst.regReadEffect_tdr (cfg : Config) (x : Inst) (r : Reg) :
    (x.regReadEffect cfg r).tdr = x.tdr := by
  cases r <;> first | rfl | (simp only [Inst.regReadEffect, Inst.dataReadEffect]; split <;> rfl)
@[simp] theorem Inst.regReadEffect_brr (cfg : Config) (x : Inst) (r : Reg) :
    (x.regReadEffect cfg r).brr = x.brr := by
  cases r <;> first | rfl | (simp only [Inst.regReadEffect, Inst.dataReadEffect]; split <;> rfl)
@[simp] theorem Inst.regReadEffect_ctrl (cfg : Config) (x : Inst) (r : Reg) :
    (x.regReadEffect cfg r).ctrl = x.ctrl := by
  cases r <;> first | rfl | (simp only [Inst.regReadEffect, Inst.dataReadEffect]; split <;> rfl)
@[simp] theorem Inst.regReadEffect_ctrl2 (cfg : Config) (x : Inst) (r : Reg) :
    (x.regReadEffect cfg r).ctrl2 = x.ctrl2 := by
  cases r <;> first | rfl | (simp only [Inst.regReadEffect, Inst.dataReadEffect]; split <;> rfl)
@[simp] theorem Inst.regReadEffect_ctrl3 (cfg : Config) (x : Inst) (r : Reg) :
    (x.regReadEffect cfg r).ctrl3 = x.ctrl3 := by
  cases r <;> first | rfl | (simp only [Inst.regReadEffect, Inst.dataReadEffect]; split <;> rfl)
@[simp] theorem Inst.regReadEffect_vec (cfg : Config) (x : Inst) (r : Reg) :
    (x.regReadEffect cfg r).vec = x.vec := by
  cases r <;> first | rfl | (simp only [Inst.regReadEffect, Inst.dataReadEffect]; split <;> rfl)
@[simp] theorem Inst.regReadEffect_pend (cfg : Config) (x : Inst) (r : Reg) :
    (x.regReadEffect cfg r).pend = x.pend := by
  cases r <;> first | rfl | (simp only [Inst.regReadEffect, Inst.dataReadEffect]; split <;> rfl)
@[simp] theorem Inst.regReadEffect_clk (cfg : Config) (x : Inst) (r : Reg) :
    (x.regReadEffect cfg r).clk = x.clk := by
  cases r <;> first | rfl | (simp only [Inst.regReadEffect, Inst.dataReadEffect]; split <;> rfl)
@[simp] theorem Inst.regReadEffect_pins (cfg : Config) (x : Inst) (r : Reg) :
    (x.regReadEffect cfg r).pins = x.pins := by
  cases r <;> first | rfl | (simp only [Inst.regReadEffect, Inst.dataReadEffect]; split <;> rfl)

@[simp] theorem Callbacks.get_set_self (c : Callbacks) (k : Kind) (h : Word) :
    (c.set k h).get k = h := by cases k <;> rfl
theorem Callbacks.get_set_of_ne (c : Callbacks) {k l : Kind} (hne : l ≠ k) (h : Word) :
    (c.set k h).get l = c.get l := by cases k <;> cases l <;> simp_all [Callbacks.set, Callbacks.get]

end Sys2Proof.Machine
end

