-- ==== Sys2Proof/Laws/Ops.lean ====
section
/-! SUPPORT. What each shared operation can do, said once. -/

namespace Sys2Proof.Machine

/-! Bits of words -/

theorem getLsbD_setBit (v : Word) {n : Nat} (hn : n < 32) (m : Nat) :
    (setBit v n).getLsbD m = (decide (m = n) || v.getLsbD m) := by
  simp only [setBit, BitVec.getLsbD_or, BitVec.getLsbD_shiftLeft, BitVec.getLsbD_one]
  by_cases h : m = n
  · subst h; simp [hn]
  · by_cases h32 : m < 32
    · by_cases hlt : m < n
      · simp [h, hlt]
      · have : ¬ m - n = 0 := by omega
        simp [h, this]
    · simp [h, h32]

theorem getLsbD_clearBit (v : Word) {n : Nat} (hn : n < 32) (m : Nat) :
    (clearBit v n).getLsbD m = (!decide (m = n) && v.getLsbD m) := by
  simp only [clearBit, BitVec.getLsbD_and, BitVec.getLsbD_not, BitVec.getLsbD_shiftLeft,
    BitVec.getLsbD_one]
  by_cases h : m = n
  · subst h; simp [hn]
  · by_cases h32 : m < 32
    · by_cases hlt : m < n
      · simp [h, hlt, h32]
      · have : ¬ m - n = 0 := by omega
        simp [h, this, h32]
    · simp [BitVec.getLsbD_of_ge v m (by omega)]

theorem Flag.bit_lt (f : Flag) : f.bit < 32 := by cases f <;> decide
theorem Field.bit_lt (f : Field) : f.bit < 32 := by cases f <;> decide
theorem Flag.bit_injective {f g : Flag} (h : f.bit = g.bit) : f = g := by
  cases f <;> cases g <;> first | rfl | cases h
theorem Field.bit_injective {f g : Field} (h : f.bit = g.bit) : f = g := by
  cases f <;> cases g <;> first | rfl | cases h

/-- Setting a flag sets it and no other. -/
theorem Inst.flag_raiseFlag (x : Inst) (f g : Flag) :
    (x.raiseFlag f).flag g = (decide (g = f) || x.flag g) := by
  simp only [Inst.flag, Inst.raiseFlag, getLsbD_setBit _ f.bit_lt]
  by_cases h : g = f
  · simp [h]
  · have hb : ¬ g.bit = f.bit := fun e => h (Flag.bit_injective e)
    simp [h, hb]

/-- Clearing a flag clears it and no other. -/
theorem Inst.flag_clearFlag (x : Inst) (f g : Flag) :
    (x.clearFlag f).flag g = (!decide (g = f) && x.flag g) := by
  simp only [Inst.flag, Inst.clearFlag, getLsbD_clearBit _ f.bit_lt]
  by_cases h : g = f
  · simp [h]
  · have hb : ¬ g.bit = f.bit := fun e => h (Flag.bit_injective e)
    simp [h, hb]

theorem Inst.flag_congr {x y : Inst} (h : x.stat = y.stat) (f : Flag) : x.flag f = y.flag f := by
  simp [Inst.flag, h]

/-- A read of `DATA` clears RXNE and PE, and ORE where `DR_READ_CLEARS_ORE` holds. -/
theorem Inst.flag_dataReadEffect (cfg : Config) (x : Inst) (g : Flag) :
    (x.dataReadEffect cfg).flag g =
      (!decide (g = .rxne) && !decide (g = .pe) && !(decide (g = .ore) && cfg.drReadClearsOre)
        && x.flag g) := by
  unfold Inst.dataReadEffect
  cases hc : cfg.drReadClearsOre <;> simp [Inst.flag_clearFlag] <;> cases g <;> simp

/-- A write of `DATA` clears TXE and TC. -/
theorem Inst.flag_dataWrite (x : Inst) (v : Word) (g : Flag) :
    (x.dataWrite v).flag g = (!decide (g = .txe) && !decide (g = .tc) && x.flag g) := by
  unfold Inst.dataWrite
  simp only [Inst.flag_clearFlag]
  cases g <;> simp [Inst.flag]

/-! Outcomes -/

theorem State.begin_of_has {s : State} {i : InstId} (h : s.has i = true) (k : State → Result) :
    s.begin i k = k s := by simp [State.begin, h]
theorem State.begin_of_absent {s : State} {i : InstId} (h : s.has i = false)
    (k : State → Result) : s.begin i k = .next { s with fault := some .invalidInstance } := by
  simp [State.begin, h, State.raise]

theorem State.memRead_of_ok {s : State} {a : Word} (h : memOk s.cfg a = true) (k : Byte → Result) :
    s.memRead a k = k (Memory.read s.mem a.toNat) := by simp [State.memRead, h]
theorem State.memRead_stuck {s : State} {a : Word} (h : memOk s.cfg a = false)
    (k : Byte → Result) : s.memRead a k = .fault .fgStuck := by simp [State.memRead, h]
theorem State.memWrite_of_ok {s : State} {a : Word} (h : memOk s.cfg a = true) (b : Byte)
    (k : State → Result) :
    s.memWrite a b k = k { s with mem := Memory.write s.mem a.toNat b } := by
  simp [State.memWrite, h]
theorem State.memWrite_stuck {s : State} {a : Word} (h : memOk s.cfg a = false) (b : Byte)
    (k : State → Result) : s.memWrite a b k = .fault .fgStuck := by simp [State.memWrite, h]

theorem State.pushCell_of_lt {s : State} {i : InstId} {x : RingSel} {w : Word}
    (h : w < (s.ring i x).cap) (b : Byte) (k : State → Result) :
    s.pushCell i x w b k = k (s.setCell i x w b) := by
  simp [State.pushCell, BitVec.not_le.2 h]
theorem State.pushCell_of_ge {s : State} {i : InstId} {x : RingSel} {w : Word}
    (h : (s.ring i x).cap ≤ w) (b : Byte) (k : State → Result) :
    s.pushCell i x w b k = .next { s with fault := some .ringIndexOutOfRange } := by
  simp [State.pushCell, h, State.raise]
theorem State.popCell_of_lt {s : State} {i : InstId} {x : RingSel} {r : Word}
    (h : r < (s.ring i x).cap) (k : Byte → Result) :
    s.popCell i x r k = k (Memory.read (s.ring i x).buf r.toNat) := by
  simp [State.popCell, BitVec.not_le.2 h]
theorem State.popCell_of_ge {s : State} {i : InstId} {x : RingSel} {r : Word}
    (h : (s.ring i x).cap ≤ r) (k : Byte → Result) :
    s.popCell i x r k = .next { s with fault := some .ringIndexOutOfRange } := by
  simp [State.popCell, h, State.raise]

/-- Everything an operation's first micro-step check can do. -/
theorem State.begin_cases {s t : State} {i : InstId} {k : State → Result}
    (h : s.begin i k = .next t) :
    (s.has i = true ∧ k s = .next t) ∨
    (s.has i = false ∧ t = { s with fault := some .invalidInstance }) := by
  unfold State.begin at h
  split at h
  · rename_i hi; exact .inl ⟨hi, h⟩
  · rename_i hi; cases h; exact .inr ⟨by simpa using hi, rfl⟩

/-- A read of memory goes on only at an admitted address. -/
theorem State.memRead_cases {s t : State} {a : Word} {k : Byte → Result}
    (h : s.memRead a k = .next t) :
    memOk s.cfg a = true ∧ k (Memory.read s.mem a.toNat) = .next t := by
  unfold State.memRead at h
  split at h
  · rename_i ha; exact ⟨ha, h⟩
  · cases h

/-- A write of memory goes on only at an admitted address. -/
theorem State.memWrite_cases {s t : State} {a : Word} {b : Byte} {k : State → Result}
    (h : s.memWrite a b k = .next t) :
    memOk s.cfg a = true ∧ k { s with mem := Memory.write s.mem a.toNat b } = .next t := by
  unfold State.memWrite at h
  split at h
  · rename_i ha; exact ⟨ha, h⟩
  · cases h

/-- A storage write happens below the capacity, or raises RingIndexOutOfRange. -/
theorem State.pushCell_cases {s t : State} {i : InstId} {x : RingSel} {w : Word} {b : Byte}
    {k : State → Result} (h : s.pushCell i x w b k = .next t) :
    (w < (s.ring i x).cap ∧ k (s.setCell i x w b) = .next t) ∨
    ((s.ring i x).cap ≤ w ∧ t = { s with fault := some .ringIndexOutOfRange }) := by
  unfold State.pushCell at h
  split at h
  · rename_i hw; cases h; exact .inr ⟨hw, rfl⟩
  · rename_i hw; exact .inl ⟨BitVec.not_le.1 hw, h⟩

/-- A storage read happens below the capacity, or raises RingIndexOutOfRange. -/
theorem State.popCell_cases {s t : State} {i : InstId} {x : RingSel} {r : Word}
    {k : Byte → Result} (h : s.popCell i x r k = .next t) :
    (r < (s.ring i x).cap ∧ k (Memory.read (s.ring i x).buf r.toNat) = .next t) ∨
    ((s.ring i x).cap ≤ r ∧ t = { s with fault := some .ringIndexOutOfRange }) := by
  unfold State.popCell at h
  split at h
  · rename_i hr; cases h; exact .inr ⟨hr, rfl⟩
  · rename_i hr; exact .inl ⟨BitVec.not_le.1 hr, h⟩

/-! What follows a micro-step changes pending latches and the latency counter, nothing else. -/

section
variable (b : Bool) (s t : State)

@[simp] theorem State.settle_cfg : (s.settle b t).cfg = t.cfg := by
  unfold State.settle State.countLatency; (repeat' split) <;> rfl
@[simp] theorem State.settle_prog : (s.settle b t).prog = t.prog := by
  unfold State.settle State.countLatency; (repeat' split) <;> rfl
@[simp] theorem State.settle_fg : (s.settle b t).fg = t.fg := by
  unfold State.settle State.countLatency; (repeat' split) <;> rfl
@[simp] theorem State.settle_gie : (s.settle b t).gie = t.gie := by
  unfold State.settle State.countLatency; (repeat' split) <;> rfl
@[simp] theorem State.settle_active : (s.settle b t).active = t.active := by
  unfold State.settle State.countLatency; (repeat' split) <;> rfl
@[simp] theorem State.settle_dloc : (s.settle b t).dloc = t.dloc := by
  unfold State.settle State.countLatency; (repeat' split) <;> rfl
@[simp] theorem State.settle_halt : (s.settle b t).halt = t.halt := by
  unfold State.settle State.countLatency; (repeat' split) <;> rfl
@[simp] theorem State.settle_fault : (s.settle b t).fault = t.fault := by
  unfold State.settle State.countLatency; (repeat' split) <;> rfl
@[simp] theorem State.settle_mem : (s.settle b t).mem = t.mem := by
  unfold State.settle State.countLatency; (repeat' split) <;> rfl
@[simp] theorem State.settle_trace : (s.settle b t).trace = t.trace := by
  unfold State.settle State.countLatency; (repeat' split) <;> rfl
@[simp] theorem State.settle_sched : (s.settle b t).sched = t.sched := by
  unfold State.settle State.countLatency; (repeat' split) <;> rfl
@[simp] theorem State.settle_draws : (s.settle b t).draws = t.draws := by
  unfold State.settle State.countLatency; (repeat' split) <;> rfl

theorem State.settle_insts : (s.settle b t).insts =
    if t.fault.isSome then t.insts else (s.latchAll t).insts := by
  unfold State.settle State.countLatency; (repeat' split) <;> simp_all

end

@[simp] theorem State.latchAll_length (s t : State) :
    (s.latchAll t).insts.length = t.insts.length := by simp [State.latchAll]

@[simp] theorem State.settle_length (b : Bool) (s t : State) :
    (s.settle b t).insts.length = t.insts.length := by
  rw [State.settle_insts]; split <;> simp

@[simp] theorem State.settle_has (b : Bool) (s t : State) (i : InstId) :
    (s.settle b t).has i = t.has i := by simp [State.has]

/-- An instance after a latch differs at most in its pending latch. -/
theorem Inst.latch_eq (cfg : Config) (before mine : Bool) (x : Inst) :
    ∃ p, x.latch cfg before mine = { x with pend := p } := by
  unfold Inst.latch; split
  · exact ⟨true, rfl⟩
  · exact ⟨x.pend, rfl⟩

/-- An instance after what follows a micro-step differs at most in its pending latch. -/
theorem State.settle_inst (b : Bool) (s t : State) (i : InstId) :
    ∃ p, (s.settle b t).inst i = { t.inst i with pend := p } := by
  unfold State.inst
  rw [State.settle_insts]
  split
  · exact ⟨(t.insts.getD i.val Inst.absent).pend, rfl⟩
  · simp only [State.latchAll, List.getD_eq_getElem?_getD, List.getElem?_mapIdx]
    cases h : t.insts[i.val]? with
    | none => exact ⟨Inst.absent.pend, rfl⟩
    | some x => exact Inst.latch_eq _ _ _ x

/-! User handlers: the state outside their change set (45_callbacks.md R113). -/

/-- The part of a state no user handler may change. -/
def State.outsideHandlers (s : State) :=
  (s.cfg, s.prog, s.fg.pc, s.fg.loc, s.active, s.dloc, s.lat, s.halt, s.fault, s.trace, s.sched,
    s.insts.length)

theorem State.act_outside (s : State) (i : InstId) (a : HandlerAct) :
    (s.act i a).outsideHandlers = s.outsideHandlers := by
  cases a <;> simp only [State.act] <;> (try split) <;>
    simp [State.outsideHandlers, State.regWrite, State.regReadEffect, State.setRingW,
      State.setRingR, State.setCell, State.modRing]

theorem State.acts_outside (s : State) (i : InstId) (l : List HandlerAct) :
    (s.acts i l).outsideHandlers = s.outsideHandlers := by
  induction l generalizing s with
  | nil => rfl
  | cons a l ih =>
    show ((s.act i a).acts i l).outsideHandlers = _
    rw [ih, State.act_outside]

/-- A handler that returns has made a list of changes, with at most one draw counted. -/
theorem State.runHandler_cases {s t : State} {h : Word} {i : InstId} {k : Kind} {arg : Option Byte}
    (hr : s.runHandler h i k arg = some t) :
    ∃ l d, t = ({ s with draws := d } : State).acts i l := by
  unfold State.runHandler at hr
  split at hr
  · cases hr
  · cases hr
  · cases hr; exact ⟨_, s.draws, rfl⟩
  · obtain ⟨a, -, rfl⟩ := Option.map_eq_some_iff.1 hr
    exact ⟨a, _, rfl⟩
  · obtain ⟨a, -, rfl⟩ := Option.map_eq_some_iff.1 hr
    exact ⟨a, _, rfl⟩

theorem State.runHandler_outside {s t : State} {h : Word} {i : InstId} {k : Kind}
    {arg : Option Byte} (hr : s.runHandler h i k arg = some t) :
    t.outsideHandlers = s.outsideHandlers := by
  obtain ⟨l, d, rfl⟩ := State.runHandler_cases hr
  rw [State.acts_outside]; rfl

/-- Everything an invocation can do when it answers a next state. -/
theorem State.invoke_cases {s t : State} {i : InstId} {k : Kind} {arg : Option Byte} {l : DLoc}
    (h : s.invoke i k arg l = .next t) :
    (∃ u, (s.inst i).cb.get k ≠ 0#32 ∧ s.runHandler ((s.inst i).cb.get k) i k arg = some u ∧
      t = (u.emit (.callback i k ((s.inst i).cb.get k) arg)).dgoto l) ∨
    ((s.inst i).cb.get k = 0#32 ∧ fatal k = true ∧ t = s.defaultHalt i k) ∨
    ((s.inst i).cb.get k = 0#32 ∧ fatal k = false ∧ t = s.dgoto l) := by
  unfold State.invoke at h
  simp only at h
  split at h
  · rename_i hne
    split at h
    · rename_i u hu
      cases h
      exact .inl ⟨u, hne, hu, rfl⟩
    · cases h
  · rename_i hz
    have hz : (s.inst i).cb.get k = 0#32 := by simpa using hz
    split at h
    · rename_i hf
      cases h; exact .inr (.inl ⟨hz, hf, rfl⟩)
    · rename_i hf
      cases h; exact .inr (.inr ⟨hz, by simpa using hf, rfl⟩)

end Sys2Proof.Machine
end

