-- ==== Sys2Proof/Laws/Step.lean ====
section
/-! SUPPORT. Everything a step can do, said once: a step that answers a next state is one micro-step of one
agent, followed by the pending latches and the latency counter. -/

namespace Sys2Proof.Machine

theorem State.after_next {s t : State} {b : Bool} {r : Result} (h : s.after b r = .next t) :
    ∃ u, r = .next u ∧ t = s.settle b u := by
  unfold State.after at h
  split at h
  · cases h; exact ⟨_, rfl, rfl⟩
  · cases h
  · cases h

theorem State.guarded_next {s t : State} {may : Bool} {r : Result}
    (h : s.guarded may r = .next t) : s.fault = none ∧ may = true ∧ r = .next t := by
  unfold State.guarded at h
  split at h
  · cases h
  · rename_i hf
    split at h
    · rename_i hm; exact ⟨hf, hm, h⟩
    · cases h

/-- The four moves, each with the condition it needs and the micro-step it takes. -/
theorem runMove_cases {m : Move} {s t : State} (h : runMove m s = .next t) :
    (m = .fg ∧ s.fault = none ∧ s.fgMay = true ∧
      ∃ u, fgStep s = .next u ∧ t = s.settle true u) ∨
    (∃ i, m = .enter i ∧ s.fault = none ∧ s.allowed i = true ∧ t = s.settle false (s.enter i)) ∨
    (m = .disp ∧ s.fault = none ∧ s.dispMay = true ∧
      ∃ i l u, s.active = some i ∧ s.dloc = some l ∧ dispStepAt i l s = .next u ∧
        t = s.settle false u) ∨
    (∃ d op u, m = .line d ∧ s.fault = none ∧ decode d = .ok op ∧ op.agent = .line ∧
      exec op s = .next u ∧ t = s.settle false u) := by
  cases m with
  | fg =>
    obtain ⟨hf, hm, ha⟩ := State.guarded_next h
    exact .inl ⟨rfl, hf, hm, State.after_next ha⟩
  | enter i =>
    obtain ⟨hf, hm, ha⟩ := State.guarded_next h
    obtain ⟨u, hu, rfl⟩ := State.after_next ha
    cases hu
    exact .inr (.inl ⟨i, rfl, hf, hm, rfl⟩)
  | disp =>
    obtain ⟨hf, hm, ha⟩ := State.guarded_next h
    obtain ⟨u, hu, rfl⟩ := State.after_next ha
    unfold dispStep at hu
    split at hu
    · rename_i i l hi hl
      exact .inr (.inr (.inl ⟨rfl, hf, hm, i, l, u, hi, hl, hu, rfl⟩))
    · cases hu
  | line d =>
    obtain ⟨u, hu, rfl⟩ := State.after_next h
    unfold lineStep at hu
    split at hu
    · cases hu
    · rename_i op hd
      split at hu
      · rename_i ha
        split at hu
        · cases hu
        · rename_i hf
          exact .inr (.inr (.inr ⟨d, op, u, rfl, by simpa using hf, hd, ha, hu, rfl⟩))
      · cases hu

/-- An FG micro-step runs an FG operation, or raises IllegalEncoding at an operation's start. -/
theorem fgStep_cases {s t : State} (h : fgStep s = .next t) :
    (∃ op l, s.fg.loc = .busy op l ∧ op.agent = .foreground ∧ exec op s = .next t) ∨
    (s.fg.loc = .start ∧ ∃ d op, s.prog[s.fg.pc]? = some d ∧ decode d = .ok op ∧
      op.agent = .foreground ∧ exec op s = .next t) ∨
    (s.fg.loc = .start ∧ t = { s with fault := some .illegalEncoding }) := by
  unfold fgStep at h
  split at h
  · rename_i op l hl
    split at h
    · rename_i ha; exact .inl ⟨op, l, hl, ha, h⟩
    · cases h
  · rename_i hl
    split at h
    · cases h
    · rename_i d hd
      split at h
      · rename_i op hop
        split at h
        · rename_i ha; exact .inr (.inl ⟨hl, d, op, hd, hop, ha, h⟩)
        · cases h; exact .inr (.inr ⟨hl, rfl⟩)
      · cases h; exact .inr (.inr ⟨hl, rfl⟩)

/-- A step is one move of a state that differs at most in the schedule and the count of draws. -/
theorem step_cases {s t : State} (h : step s = .next t) :
    ∃ m l d, runMove m { s with sched := l, draws := d } = .next t := by
  unfold step machineStep State.choose at h
  split at h
  · rename_i m u hc
    split at hc
    · rename_i m' rest hs
      cases hc
      exact ⟨m, rest, s.draws, h⟩
    · simp only [Option.map_eq_some_iff] at hc
      obtain ⟨m', -, he⟩ := hc
      cases he
      exact ⟨m, s.sched, s.draws + 1, h⟩
  · cases h

/-- A line move answers a next state only of an instance that exists and when it is available. -/
theorem State.lineMove_cases {s t u : State} {i : InstId} {available : Bool}
    (h : s.lineMove i available t = .next u) : s.has i = true ∧ available = true ∧ u = t := by
  unfold State.lineMove at h
  split at h
  · rename_i hi
    split at h
    · rename_i ha; cases h; exact ⟨hi, ha, rfl⟩
    · cases h
  · cases h

end Sys2Proof.Machine
end

