-- ==== Sys2Proof/Laws/Exec.lean ====
section
/-! SUPPORT. The shape of every micro-step, said once for each agent: what it can change when it answers a
next state. -/

namespace Sys2Proof.Machine

/-- Every way a micro-step can change one instance, its pending latch apart. -/
inductive Inst.Change (cfg : Config) : Inst → Inst → Prop where
  | refl (x : Inst) : Change cfg x x
  | ringW (x : Inst) (a : RingSel) (w : Word) :
    Change cfg x (x.setRing a { x.ring a with w := w })
  | ringR (x : Inst) (a : RingSel) (r : Word) :
    Change cfg x (x.setRing a { x.ring a with r := r })
  | cell (x : Inst) (a : RingSel) (n : Word) (b : Byte) (h : n < (x.ring a).cap) :
    Change cfg x (x.setRing a { x.ring a with buf := Memory.write (x.ring a).buf n.toNat b })
  | write (x : Inst) (r : Reg) (v : Word) : Change cfg x (x.regWrite r v)
  | read (x : Inst) (r : Reg) : Change cfg x (x.regReadEffect cfg r)
  | clearError (x : Inst) (f : ErrorFlag) : Change cfg x (x.clearFlag (errorFlag f))
  | callback (x : Inst) (k : Kind) (h : Word) : Change cfg x { x with cb := x.cb.set k h }
  | vector (x : Inst) (b : Bool) : Change cfg x { x with vec := b }
  | clock (x : Inst) (b : Bool) : Change cfg x { x with clk := b }
  | pinPair (x : Inst) (p : Option Byte) : Change cfg x { x with pins := p }
  | receive (x : Inst) (b : Byte) : Change cfg x (x.receive b)
  | receivePerr (x : Inst) (d : Bool) (b : Byte) : Change cfg x (x.receivePerr d b)
  | raise (x : Inst) (f : Flag) (h : f ≠ .pe) : Change cfg x (x.raiseFlag f)
  | breakSent (x : Inst) : Change cfg x { x with ctrl := clearBit x.ctrl Field.sbk.bit }

/-- No change touches the pending latch, the pin pairings or a capacity. -/
theorem Inst.Change.fixed {cfg : Config} {x y : Inst} (h : Inst.Change cfg x y) :
    y.pend = x.pend ∧ y.pairings = x.pairings ∧ y.rx.logC = x.rx.logC ∧ y.tx.logC = x.tx.logC := by
  cases h with
  | ringW a w => cases a <;> exact ⟨rfl, rfl, rfl, rfl⟩
  | ringR a r => cases a <;> exact ⟨rfl, rfl, rfl, rfl⟩
  | cell a n b h => cases a <;> exact ⟨rfl, rfl, rfl, rfl⟩
  | write r v => cases r <;> exact ⟨rfl, rfl, rfl, rfl⟩
  | read r =>
    cases r <;> try exact ⟨rfl, rfl, rfl, rfl⟩
    simp only [Inst.regReadEffect, Inst.dataReadEffect]
    split <;> exact ⟨rfl, rfl, rfl, rfl⟩
  | receive b => simp only [Inst.receive]; split <;> exact ⟨rfl, rfl, rfl, rfl⟩
  | receivePerr d b =>
    simp only [Inst.receivePerr]
    split
    · split <;> exact ⟨rfl, rfl, rfl, rfl⟩
    · exact ⟨rfl, rfl, rfl, rfl⟩
  | _ => exact ⟨rfl, rfl, rfl, rfl⟩

/-- FG goes from context `g` to `h` inside its operation, or ends it. -/
abbrev Fg.Advances (op : Instr) (g h : Fg) : Prop :=
  (h.pc = g.pc ∧ ∃ l, h.loc = .busy op l) ∨ (h.pc = g.pc + 1 ∧ h.loc = .start)

/-- The shape of every FG micro-step that raises no fault: it updates its own instance, memory, the history
and FG's context, and stays inside its operation or ends it. -/
def FgShape (op : Instr) (s t : State) : Prop :=
  ∃ (f : Inst → Inst) (g : Fg) (m : Memory) (tr : List Event),
    t = { s.modInst op.inst f with fg := g, mem := m, trace := tr } ∧
    Inst.Change s.cfg (s.inst op.inst) (f (s.inst op.inst)) ∧ Fg.Advances op s.fg g

theorem FgShape.of_modInst {op : Instr} {s t : State} (f : Inst → Inst)
    (h : t = { s.modInst op.inst f with fg := t.fg, mem := t.mem, trace := t.trace })
    (hc : Inst.Change s.cfg (s.inst op.inst) (f (s.inst op.inst))) (hg : Fg.Advances op s.fg t.fg) :
    FgShape op s t := ⟨f, _, _, _, h, hc, hg⟩

theorem FgShape.of_same {op : Instr} {s t : State}
    (h : t = { s with fg := t.fg, mem := t.mem, trace := t.trace })
    (hg : Fg.Advances op s.fg t.fg) :
    FgShape op s t := by
  refine ⟨fun x => x, t.fg, t.mem, t.trace, ?_, .refl _, hg⟩
  rw [State.modInst_id]; exact h

/-- An FG micro-step has that shape, or raises a fault and changes nothing else. -/
theorem exec_foreground_cases {op : Instr} {s t : State} (ha : op.agent = .foreground)
    (h : exec op s = .next t) :
    FgShape op s t ∨ ∃ r, t = { s with fault := some r } := by
  have same : ∀ {u}, .next u = (.next t : Result) →
      u = { s with fg := u.fg, mem := u.mem, trace := u.trace } →
      Fg.Advances op s.fg u.fg → FgShape op s t ∨ ∃ r, t = { s with fault := some r } := by
    intro u hu h1 h2; cases hu; exact .inl (FgShape.of_same h1 h2)
  have upd : ∀ {u}, .next u = (.next t : Result) → ∀ f,
      u = { s.modInst op.inst f with fg := u.fg, mem := u.mem, trace := u.trace } →
      Inst.Change s.cfg (s.inst op.inst) (f (s.inst op.inst)) →
      Fg.Advances op s.fg u.fg → FgShape op s t ∨ ∃ r, t = { s with fault := some r } := by
    intro u hu f h1 hc h2; cases hu; exact .inl (FgShape.of_modInst f h1 hc h2)
  cases op <;> first | (cases ha; done) | skip
  case rbPush i x b =>
    simp only [exec, execRbPush] at h
    split at h
    · rcases State.begin_cases h with ⟨-, h⟩ | ⟨-, rfl⟩
      · exact same h rfl (.inl ⟨rfl, _, rfl⟩)
      · exact .inr ⟨_, rfl⟩
    · rcases State.pushCell_cases h with ⟨hlt, h⟩ | ⟨-, rfl⟩
      · exact upd h _ rfl (.cell _ _ _ _ hlt) (.inl ⟨rfl, _, rfl⟩)
      · exact .inr ⟨_, rfl⟩
    · exact upd h _ rfl (.ringW _ _ _) (.inl ⟨rfl, _, rfl⟩)
    · exact upd h _ rfl (.ringW _ _ _) (.inr ⟨rfl, rfl⟩)
    · cases h
  case rbPop i x =>
    simp only [exec, execRbPop] at h
    split at h
    · rcases State.begin_cases h with ⟨-, h⟩ | ⟨-, rfl⟩
      · split at h
        · exact same h rfl (.inr ⟨rfl, rfl⟩)
        · exact same h rfl (.inl ⟨rfl, _, rfl⟩)
      · exact .inr ⟨_, rfl⟩
    · rcases State.popCell_cases h with ⟨-, h⟩ | ⟨-, rfl⟩
      · exact same h rfl (.inl ⟨rfl, _, rfl⟩)
      · exact .inr ⟨_, rfl⟩
    · exact upd h _ rfl (.ringR _ _ _) (.inl ⟨rfl, _, rfl⟩)
    · exact upd h _ rfl (.ringR _ _ _) (.inr ⟨rfl, rfl⟩)
    · cases h
  case enableClock i =>
    simp only [exec, execEnableClock] at h
    split at h
    · rcases State.begin_cases h with ⟨-, h⟩ | ⟨-, rfl⟩
      · exact upd h _ rfl (.clock _ _) (.inr ⟨rfl, rfl⟩)
      · exact .inr ⟨_, rfl⟩
    · cases h
  case selectPins i p =>
    simp only [exec, execSelectPins] at h
    split at h
    · rcases State.begin_cases h with ⟨-, h⟩ | ⟨-, rfl⟩
      · split at h
        · exact upd h _ rfl (.pinPair _ _) (.inr ⟨rfl, rfl⟩)
        · cases h; exact .inr ⟨_, rfl⟩
      · exact .inr ⟨_, rfl⟩
    · cases h
  case setBaud i hz baud =>
    simp only [exec, execSetBaud] at h
    split at h
    · rcases State.begin_cases h with ⟨-, h⟩ | ⟨-, rfl⟩
      · split at h
        · cases h; exact .inr ⟨_, rfl⟩
        · split at h
          · cases h; exact .inr ⟨_, rfl⟩
          · exact upd h _ rfl (.write _ _ _) (.inr ⟨rfl, rfl⟩)
      · exact .inr ⟨_, rfl⟩
    · cases h
  case enableDirection i tx rx =>
    simp only [exec, execEnableDirection] at h
    split at h
    · rcases State.begin_cases h with ⟨-, h⟩ | ⟨-, rfl⟩
      · exact same h rfl (.inl ⟨rfl, _, rfl⟩)
      · exact .inr ⟨_, rfl⟩
    · exact upd h _ rfl (.write _ _ _) (.inr ⟨rfl, rfl⟩)
    · cases h
  case enable i =>
    simp only [exec, execEnable] at h
    split at h
    · rcases State.begin_cases h with ⟨-, h⟩ | ⟨-, rfl⟩
      · exact same h rfl (.inl ⟨rfl, _, rfl⟩)
      · exact .inr ⟨_, rfl⟩
    · exact upd h _ rfl (.write _ _ _) (.inr ⟨rfl, rfl⟩)
    · cases h
  case disable i =>
    simp only [exec, execDisable] at h
    split at h
    · rcases State.begin_cases h with ⟨-, h⟩ | ⟨-, rfl⟩
      · exact same h rfl (.inl ⟨rfl, _, rfl⟩)
      · exact .inr ⟨_, rfl⟩
    · exact upd h _ rfl (.write _ _ _) (.inr ⟨rfl, rfl⟩)
    · cases h
  case enableCallback i k =>
    simp only [exec, execEnableCallback] at h
    split at h
    · rcases State.begin_cases h with ⟨-, h⟩ | ⟨-, rfl⟩
      · exact same h rfl (.inl ⟨rfl, _, rfl⟩)
      · exact .inr ⟨_, rfl⟩
    · exact upd h _ rfl (.write _ _ _) (.inl ⟨rfl, _, rfl⟩)
    · unfold State.enableVector at h
      split at h
      · exact same h rfl (.inr ⟨rfl, rfl⟩)
      · exact upd h _ rfl (.vector _ _) (.inr ⟨rfl, rfl⟩)
    · cases h
  case disableCallback i k =>
    simp only [exec, execDisableCallback] at h
    split at h
    · rcases State.begin_cases h with ⟨-, h⟩ | ⟨-, rfl⟩
      · exact same h rfl (.inl ⟨rfl, _, rfl⟩)
      · exact .inr ⟨_, rfl⟩
    · exact upd h _ rfl (.write _ _ _) (.inr ⟨rfl, rfl⟩)
    · cases h
  case setCallback i k hd =>
    simp only [exec, execSetCallback] at h
    split at h
    · rcases State.begin_cases h with ⟨-, h⟩ | ⟨-, rfl⟩
      · split at h
        · exact upd h _ rfl (.callback _ _ _) (.inr ⟨rfl, rfl⟩)
        · cases h; exact .inr ⟨_, rfl⟩
      · exact .inr ⟨_, rfl⟩
    · cases h
  case sendBlocking i a n =>
    simp only [exec, execSendBlocking] at h
    split at h
    · rcases State.begin_cases h with ⟨-, h⟩ | ⟨-, rfl⟩
      · split at h
        · exact same h rfl (.inr ⟨rfl, rfl⟩)
        · exact same h rfl (.inl ⟨rfl, _, rfl⟩)
      · exact .inr ⟨_, rfl⟩
    · exact same h rfl (.inl ⟨rfl, _, rfl⟩)
    · exact same (State.memRead_cases h).2 rfl (.inl ⟨rfl, _, rfl⟩)
    · split at h
      · exact upd h _ rfl (.write _ _ _) (.inr ⟨rfl, rfl⟩)
      · exact upd h _ rfl (.write _ _ _) (.inl ⟨rfl, _, rfl⟩)
    · cases h
  case recvBlocking i a n =>
    simp only [exec, execRecvBlocking] at h
    split at h
    · rcases State.begin_cases h with ⟨-, h⟩ | ⟨-, rfl⟩
      · split at h
        · exact same h rfl (.inr ⟨rfl, rfl⟩)
        · exact same h rfl (.inl ⟨rfl, _, rfl⟩)
      · exact .inr ⟨_, rfl⟩
    · exact same h rfl (.inl ⟨rfl, _, rfl⟩)
    · exact upd h _ rfl (.read _ _) (.inl ⟨rfl, _, rfl⟩)
    · have h := (State.memWrite_cases h).2
      split at h
      · exact same h rfl (.inr ⟨rfl, rfl⟩)
      · exact same h rfl (.inl ⟨rfl, _, rfl⟩)
    · cases h
  case sendAsync i a n =>
    simp only [exec, execSendAsync] at h
    split at h
    · rcases State.begin_cases h with ⟨-, h⟩ | ⟨-, rfl⟩
      · exact same h rfl (.inl ⟨rfl, _, rfl⟩)
      · exact .inr ⟨_, rfl⟩
    · exact upd h _ rfl (.write _ _ _) (.inl ⟨rfl, _, rfl⟩)
    · exact same (State.memRead_cases h).2 rfl (.inl ⟨rfl, _, rfl⟩)
    · exact same h rfl (.inl ⟨rfl, _, rfl⟩)
    · rcases State.pushCell_cases h with ⟨hlt, h⟩ | ⟨-, rfl⟩
      · exact upd h _ rfl (.cell _ _ _ _ hlt) (.inl ⟨rfl, _, rfl⟩)
      · exact .inr ⟨_, rfl⟩
    · exact upd h _ rfl (.ringW _ _ _) (.inl ⟨rfl, _, rfl⟩)
    · exact upd h _ rfl (.ringW _ _ _) (.inl ⟨rfl, _, rfl⟩)
    · exact same h rfl (.inl ⟨rfl, _, rfl⟩)
    · exact upd h _ rfl (.write _ _ _) (.inr ⟨rfl, rfl⟩)
    · cases h
  case recvAsync i a n =>
    simp only [exec, execRecvAsync] at h
    split at h
    · rcases State.begin_cases h with ⟨-, h⟩ | ⟨-, rfl⟩
      · split at h
        · exact same h rfl (.inr ⟨rfl, rfl⟩)
        · exact same h rfl (.inl ⟨rfl, _, rfl⟩)
      · exact .inr ⟨_, rfl⟩
    · split at h
      · exact same h rfl (.inr ⟨rfl, rfl⟩)
      · exact same h rfl (.inl ⟨rfl, _, rfl⟩)
    · rcases State.popCell_cases h with ⟨-, h⟩ | ⟨-, rfl⟩
      · exact same h rfl (.inl ⟨rfl, _, rfl⟩)
      · exact .inr ⟨_, rfl⟩
    · exact upd h _ rfl (.ringR _ _ _) (.inl ⟨rfl, _, rfl⟩)
    · exact upd h _ rfl (.ringR _ _ _) (.inl ⟨rfl, _, rfl⟩)
    · have h := (State.memWrite_cases h).2
      split at h
      · exact same h rfl (.inr ⟨rfl, rfl⟩)
      · exact same h rfl (.inl ⟨rfl, _, rfl⟩)
    · cases h
  case sendBreak i =>
    simp only [exec, execSendBreak] at h
    split at h
    · rcases State.begin_cases h with ⟨-, h⟩ | ⟨-, rfl⟩
      · exact same h rfl (.inl ⟨rfl, _, rfl⟩)
      · exact .inr ⟨_, rfl⟩
    · exact same h rfl (.inl ⟨rfl, _, rfl⟩)
    · exact same h rfl (.inl ⟨rfl, _, rfl⟩)
    · exact upd h _ rfl (.write _ _ _) (.inr ⟨rfl, rfl⟩)
    · cases h

/-- A line move updates its own instance, which exists, and the history. -/
theorem exec_line_cases {op : Instr} {s t : State} (ha : op.agent = .line)
    (h : exec op s = .next t) :
    s.has op.inst = true ∧ ∃ f tr, t = { s.modInst op.inst f with trace := tr } ∧
      Inst.Change s.cfg (s.inst op.inst) (f (s.inst op.inst)) := by
  cases op <;> first | (cases ha; done) | skip
  all_goals
    simp only [exec, execLineRxByte, execLineRxBytePerr, execLineBreakDetect,
      execLineTxShift, execLineTxIdle, execLineBreakSent] at h
    obtain ⟨hi, -, rfl⟩ := State.lineMove_cases h
    refine ⟨hi, _, _, rfl, ?_⟩
  case lineRxByte => exact .receive _ _
  case lineRxBytePerr => exact .receivePerr _ _ _
  case lineBreakDetect => exact .raise _ _ (by decide)
  case lineTxShift => exact .raise _ _ (by decide)
  case lineTxIdle => exact .raise _ _ (by decide)
  case lineBreakSent => exact .breakSent _

/-- What a dispatcher micro-step does: it updates its own instance and goes on nearer to the exit, invokes a
callback as its last step before the exit, raises RingIndexOutOfRange, or exits. -/
theorem dispStepAt_cases {i : InstId} {l : DLoc} {s t : State} (h : dispStepAt i l s = .next t) :
    (∃ f l', t = { s.modInst i f with dloc := some l' } ∧
      Inst.Change s.cfg (s.inst i) (f (s.inst i)) ∧ l'.stepsLeft < l.stepsLeft) ∨
    (∃ k arg, l.invokes = some k ∧ l.stepsLeft = 2 ∧ s.invoke i k arg .x1 = .next t) ∨
    t = { s with fault := some .ringIndexOutOfRange } ∨ (l = .x1 ∧ t = s.exit) := by
  have same : ∀ l', .next (s.dgoto l') = (.next t : Result) → l'.stepsLeft < l.stepsLeft →
      (∃ f l', t = { s.modInst i f with dloc := some l' } ∧
        Inst.Change s.cfg (s.inst i) (f (s.inst i)) ∧ l'.stepsLeft < l.stepsLeft) := by
    intro l' hu hl; cases hu; exact ⟨fun x => x, l', by rw [State.modInst_id]; rfl, .refl _, hl⟩
  have upd : ∀ f l', .next ((s.modInst i f).dgoto l') = (.next t : Result) →
      Inst.Change s.cfg (s.inst i) (f (s.inst i)) → l'.stepsLeft < l.stepsLeft →
      (∃ f l', t = { s.modInst i f with dloc := some l' } ∧
        Inst.Change s.cfg (s.inst i) (f (s.inst i)) ∧ l'.stepsLeft < l.stepsLeft) := by
    intro f l' hu hc hl; cases hu; exact ⟨f, l', rfl, hc, hl⟩
  cases l <;> simp only [dispStepAt, State.classify] at h
  case ov1 | bk1 | pa2 | rb6 | tr9 => exact .inr (.inl ⟨_, _, rfl, rfl, h⟩)
  case x1 => cases h; exact .inr (.inr (.inr ⟨rfl, rfl⟩))
  case rb3 b w =>
    rcases State.pushCell_cases h with ⟨hlt, h⟩ | ⟨-, rfl⟩
    · exact .inl (upd _ _ h (.cell _ _ _ _ hlt) (by simp [DLoc.stepsLeft]))
    · exact .inr (.inr (.inl rfl))
  case tr2 r =>
    rcases State.popCell_cases h with ⟨-, h⟩ | ⟨-, rfl⟩
    · exact .inl (same _ h (by simp [DLoc.stepsLeft]))
    · exact .inr (.inr (.inl rfl))
  case c0 | c1 | c2 | c3 | c4 | c5 | rb2 | tr1 | tr6 | tr7 =>
    exact .inl (same _ h (by first | (split <;> simp [DLoc.stepsLeft]) | simp [DLoc.stepsLeft]))
  case pa1 | rb1 => exact .inl (upd _ _ h (.read _ _) (by simp [DLoc.stepsLeft]))
  case rb4 | rb5 => exact .inl (upd _ _ h (.ringW _ _ _) (by simp [DLoc.stepsLeft]))
  case tr3 | tr4 => exact .inl (upd _ _ h (.ringR _ _ _) (by simp [DLoc.stepsLeft]))
  case tr5 | tr8 => exact .inl (upd _ _ h (.write _ _ _) (by simp [DLoc.stepsLeft]))

end Sys2Proof.Machine
end

