-- ==== Sys2Proof/Laws/Change.lean ====
section
/-! SUPPORT. What a step can do to the instances: a property of one instance that each single change keeps is
kept by every step, user handlers included. -/

namespace Sys2Proof.Machine

/-- The changes of one instance over any number of micro-steps, its pending latch included. -/
abbrev Inst.Changes (cfg : Config) : Inst → Inst → Prop :=
  Relation.ReflTransGen (fun x y => Inst.Change cfg x y ∨ ∃ p, y = { x with pend := p })

/-- Instance by instance, one state's instances have changed into another's. -/
def State.InstsChange (s t : State) : Prop := List.Forall₂ (Inst.Changes s.cfg) s.insts t.insts

theorem State.InstsChange.of_eq {s t : State} (h : t.insts = s.insts) : s.InstsChange t := by
  unfold State.InstsChange
  rw [h]
  exact List.forall₂_same.2 (fun _ _ => .refl)

theorem State.InstsChange.trans {s t u : State} (h : s.InstsChange t) (hc : t.cfg = s.cfg)
    (h' : t.InstsChange u) : s.InstsChange u := by
  unfold State.InstsChange at *
  rw [hc] at h'
  rw [List.forall₂_iff_get] at *
  obtain ⟨hl, hg⟩ := h
  obtain ⟨hl', hg'⟩ := h'
  exact ⟨hl.trans hl', fun n h1 h2 => (hg n h1 (hl ▸ h1)).trans (hg' n (hl ▸ h1) h2)⟩

theorem State.InstsChange.of_modInst {s : State} {i : InstId} {f : Inst → Inst}
    (h : Inst.Changes s.cfg (s.inst i) (f (s.inst i))) : s.InstsChange (s.modInst i f) := by
  unfold State.InstsChange
  rw [List.forall₂_iff_get]
  refine ⟨by simp, fun n h1 h2 => ?_⟩
  by_cases hn : i.val = n
  · subst hn
    have : s.inst i = s.insts[i.val] := by simp [State.inst, List.getD_eq_getElem?_getD, h1]
    rw [this] at h
    simpa using h
  · simp [hn]
    exact .refl

theorem State.InstsChange.of_change {s : State} {i : InstId} {f : Inst → Inst}
    (h : Inst.Change s.cfg (s.inst i) (f (s.inst i))) : s.InstsChange (s.modInst i f) :=
  .of_modInst (.single (.inl h))

theorem State.InstsChange.congr {s t u : State} (h : s.InstsChange t) (he : u.insts = t.insts) :
    s.InstsChange u := by unfold State.InstsChange; rw [he]; exact h

/-- A handler act changes an instance in these ways only. -/
theorem State.act_change (s : State) (i : InstId) (a : HandlerAct) : s.InstsChange (s.act i a) := by
  cases a <;> simp only [State.act] <;> (try split)
  case clearFlag f => exact .of_change (.clearError _ _)
  case writeReg j r v => exact .of_change (.write _ _ _)
  case readData j => exact .of_change (.read _ _)
  case writeData j v => exact .of_change (.write _ _ _)
  case setCb.isTrue => exact .of_change (.callback _ _ _)
  case setRingW => exact .of_change (.ringW _ _ _)
  case setRingR => exact .of_change (.ringR _ _ _)
  case setCell.isFalse j x n b h => exact .of_change (.cell _ _ _ _ (BitVec.not_le.1 h))
  case setVec => exact .of_change (.vector _ _)
  case setClk => exact .of_change (.clock _ _)
  case setPins => exact .of_change (.pinPair _ _)
  all_goals exact .of_eq rfl

theorem State.acts_change (s : State) (i : InstId) (l : List HandlerAct) :
    s.InstsChange (s.acts i l) := by
  induction l generalizing s with
  | nil => exact .of_eq rfl
  | cons a l ih =>
    have hc : (s.act i a).cfg = s.cfg := congrArg Prod.fst (s.act_outside i a)
    exact (s.act_change i a).trans hc (ih _)

theorem State.runHandler_change {s t : State} {h : Word} {i : InstId} {k : Kind}
    {arg : Option Byte} (hr : s.runHandler h i k arg = some t) : s.InstsChange t := by
  obtain ⟨l, d, rfl⟩ := State.runHandler_cases hr
  exact State.acts_change { s with draws := d } i l

/-- What follows a micro-step changes pending latches only. -/
theorem State.settle_change (b : Bool) (s t : State) : t.InstsChange (s.settle b t) := by
  unfold State.InstsChange
  rw [State.settle_insts]
  split
  · exact List.forall₂_same.2 (fun _ _ => .refl)
  · rw [List.forall₂_iff_get]
    refine ⟨by simp, fun n h1 h2 => ?_⟩
    simp only [State.latchAll, List.get_eq_getElem, List.getElem_mapIdx]
    obtain ⟨p, hp⟩ := Inst.latch_eq t.cfg ((s.insts.getD n Inst.absent).line s.cfg)
      (decide (t.active.map Fin.val = some n)) t.insts[n]
    rw [hp]
    exact .single (.inr ⟨p, rfl⟩)

/-- So does an invocation. -/
theorem State.invoke_change {s t : State} {i : InstId} {k : Kind} {arg : Option Byte} {l : DLoc}
    (h : s.invoke i k arg l = .next t) : s.InstsChange t := by
  rcases State.invoke_cases h with ⟨v, -, hv, rfl⟩ | ⟨-, -, rfl⟩ | ⟨-, -, rfl⟩
  · exact (State.runHandler_change hv).congr rfl
  · exact .of_eq rfl
  · exact .of_eq rfl

/-- Every move changes instances in these ways only. -/
theorem runMove_change {m : Move} {s t : State} (h : runMove m s = .next t) : s.InstsChange t := by
  have key : ∀ {b : Bool} {u : State}, s.InstsChange u → u.cfg = s.cfg → s.InstsChange (s.settle b u) :=
    fun hu hc => hu.trans hc (State.settle_change ..)
  rcases runMove_cases h with ⟨-, -, -, u, hu, rfl⟩ | ⟨i, -, -, -, rfl⟩ | ⟨-, -, -, i, l, u, -, -, hu, rfl⟩ |
    ⟨d, op, u, -, -, -, ha, he, rfl⟩
  · have : ∀ op : Instr, op.agent = .foreground → exec op s = .next u → s.InstsChange u ∧ u.cfg = s.cfg := by
      intro op ha he
      rcases exec_foreground_cases ha he with ⟨f, g, m, tr, rfl, hc, -⟩ | ⟨r, rfl⟩
      · exact ⟨(State.InstsChange.of_change hc).congr rfl, rfl⟩
      · exact ⟨.of_eq rfl, rfl⟩
    rcases fgStep_cases hu with ⟨op, l, -, ha, he⟩ | ⟨-, d, op, -, -, ha, he⟩ | ⟨-, rfl⟩
    · exact key (this op ha he).1 (this op ha he).2
    · exact key (this op ha he).1 (this op ha he).2
    · exact key (.of_eq rfl) rfl
  · exact key ((State.InstsChange.of_modInst (i := i) (f := fun x => { x with pend := false }) (.single (.inr ⟨_, rfl⟩))).congr rfl) rfl
  · rcases dispStepAt_cases hu with ⟨f, l', rfl, hc, -⟩ | ⟨k, arg, -, -, hi⟩ | rfl | ⟨-, rfl⟩
    · exact key ((State.InstsChange.of_change hc).congr rfl) rfl
    · refine key (State.invoke_change hi) ?_
      rcases State.invoke_cases hi with ⟨v, -, hv, rfl⟩ | ⟨-, -, rfl⟩ | ⟨-, -, rfl⟩
      · exact congrArg Prod.fst (State.runHandler_outside hv)
      · rfl
      · rfl
    · exact key (.of_eq rfl) rfl
    · exact key (.of_eq rfl) rfl
  · obtain ⟨-, f, tr, rfl, hc⟩ := exec_line_cases ha he
    exact key ((State.InstsChange.of_change hc).congr rfl) rfl

/-- Every step changes instances in these ways only. -/
theorem step_change {s t : State} (h : step s = .next t) : s.InstsChange t := by
  obtain ⟨m, l, d, h⟩ := step_cases h
  exact runMove_change (s := { s with sched := l, draws := d }) h

theorem State.InstsChange.inst {s t : State} (h : s.InstsChange t) (i : InstId) :
    Inst.Changes s.cfg (s.inst i) (t.inst i) := by
  unfold State.InstsChange at h
  rw [List.forall₂_iff_get] at h
  obtain ⟨hl, hg⟩ := h
  unfold State.inst
  by_cases hi : i.val < s.insts.length
  · have := hg i.val hi (hl ▸ hi)
    simpa [List.getD_eq_getElem?_getD, hi, hl ▸ hi] using this
  · have h2 : ¬ i.val < t.insts.length := hl ▸ hi
    simp only [List.getD_eq_getElem?_getD, List.getElem?_eq_none (Nat.le_of_not_lt hi),
      List.getElem?_eq_none (Nat.le_of_not_lt h2)]
    exact .refl

/-- A property of one instance that every change keeps is kept by every step. -/
theorem step_forall {P : Inst → Prop} {s t : State} (h : step s = .next t)
    (hc : ∀ x y, Inst.Change s.cfg x y → P x → P y)
    (hp : ∀ x p, P x → P { x with pend := p }) (hs : ∀ x ∈ s.insts, P x) : ∀ x ∈ t.insts, P x := by
  have hch := step_change h
  unfold State.InstsChange at hch
  rw [List.forall₂_iff_get] at hch
  obtain ⟨hl, hg⟩ := hch
  intro z hz
  obtain ⟨n, hn, rfl⟩ := List.getElem_of_mem hz
  have h0 := hs _ (List.getElem_mem (hl ▸ hn : n < s.insts.length))
  have hr := hg n (hl ▸ hn) hn
  simp only [List.get_eq_getElem] at hr
  generalize t.insts[n] = z at hr
  clear hz
  induction hr with
  | refl => exact h0
  | tail _ hxy ih =>
    rcases hxy with hxy | ⟨p, rfl⟩
    · exact hc _ _ hxy ih
    · exact hp _ p ih

end Sys2Proof.Machine
end

