-- ==== Sys2Proof/Laws/Decode.lean ====
section
/-! SUPPORT. The fields of a packed word, and codes read back. -/

namespace Sys2Proof

theorem packW0_op (op : BitVec 8) (i s : BitVec 4) (b : Byte) :
    (packW0 op i s b).extractLsb' 24 8 = op :=
  (BitVec.extractLsb'_append_eq_of_le (xhi := op ++ i ++ s ++ 0#8) (xlo := b) (by omega)).trans <|
  (BitVec.extractLsb'_append_eq_of_le (xhi := op ++ i ++ s) (xlo := 0#8) (by omega)).trans <|
  (BitVec.extractLsb'_append_eq_of_le (xhi := op ++ i) (xlo := s) (by omega)).trans <|
  (BitVec.extractLsb'_append_eq_of_le (xhi := op) (xlo := i) (by omega)).trans <|
  BitVec.extractLsb'_eq_self

theorem packW0_inst (op : BitVec 8) (i s : BitVec 4) (b : Byte) :
    (packW0 op i s b).extractLsb' 20 4 = i :=
  (BitVec.extractLsb'_append_eq_of_le (xhi := op ++ i ++ s ++ 0#8) (xlo := b) (by omega)).trans <|
  (BitVec.extractLsb'_append_eq_of_le (xhi := op ++ i ++ s) (xlo := 0#8) (by omega)).trans <|
  (BitVec.extractLsb'_append_eq_of_le (xhi := op ++ i) (xlo := s) (by omega)).trans <|
  (BitVec.extractLsb'_append_eq_of_add_le (xhi := op) (xlo := i) (by omega)).trans <|
  BitVec.extractLsb'_eq_self

theorem packW0_sub (op : BitVec 8) (i s : BitVec 4) (b : Byte) :
    (packW0 op i s b).extractLsb' 16 4 = s :=
  (BitVec.extractLsb'_append_eq_of_le (xhi := op ++ i ++ s ++ 0#8) (xlo := b) (by omega)).trans <|
  (BitVec.extractLsb'_append_eq_of_le (xhi := op ++ i ++ s) (xlo := 0#8) (by omega)).trans <|
  (BitVec.extractLsb'_append_eq_of_add_le (xhi := op ++ i) (xlo := s) (by omega)).trans <|
  BitVec.extractLsb'_eq_self

theorem packW0_rsv (op : BitVec 8) (i s : BitVec 4) (b : Byte) :
    (packW0 op i s b).extractLsb' 8 8 = 0#8 :=
  (BitVec.extractLsb'_append_eq_of_le (xhi := op ++ i ++ s ++ 0#8) (xlo := b) (by omega)).trans <|
  (BitVec.extractLsb'_append_eq_of_add_le (xhi := op ++ i ++ s) (xlo := 0#8) (by omega)).trans <|
  BitVec.extractLsb'_eq_self

theorem packW0_imm (op : BitVec 8) (i s : BitVec 4) (b : Byte) :
    (packW0 op i s b).extractLsb' 0 8 = b :=
  (BitVec.extractLsb'_append_eq_of_add_le (xhi := op ++ i ++ s ++ 0#8) (xlo := b) (by omega)).trans <|
  BitVec.extractLsb'_eq_self

/-- A word is the packing of its fields, when the reserved one is zero. -/
theorem packW0_fields (w : Word) (h : w.extractLsb' 8 8 = 0#8) :
    packW0 (w.extractLsb' 24 8) (w.extractLsb' 20 4) (w.extractLsb' 16 4) (w.extractLsb' 0 8) = w := by
  unfold packW0
  rw [← h]
  rw [BitVec.extractLsb'_append_extractLsb'_eq_extractLsb' (by omega),
    BitVec.extractLsb'_append_extractLsb'_eq_extractLsb' (by omega),
    BitVec.extractLsb'_append_extractLsb'_eq_extractLsb' (by omega),
    BitVec.extractLsb'_append_extractLsb'_eq_extractLsb' (by omega)]
  simp

@[simp] theorem encode_op (i : Instr) : (encode i).op = i.mnemonic.code := packW0_op _ _ _ _
@[simp] theorem encode_inst (i : Instr) : (encode i).inst = BitVec.ofFin i.inst :=
  packW0_inst _ _ _ _
@[simp] theorem encode_sub (i : Instr) : (encode i).sub = i.subField := packW0_sub _ _ _ _
@[simp] theorem encode_rsv (i : Instr) : (encode i).rsv = 0#8 := packW0_rsv _ _ _ _
@[simp] theorem encode_imm (i : Instr) : (encode i).imm = i.immField := packW0_imm _ _ _ _
@[simp] theorem encode_w1 (i : Instr) : (encode i).w1 = i.wordA := rfl
@[simp] theorem encode_w2 (i : Instr) : (encode i).w2 = i.wordB := rfl

@[simp] theorem Mnemonic.ofCode_code (m : Mnemonic) : Mnemonic.ofCode m.code = some m := by
  cases m <;> decide
@[simp] theorem Kind.ofCode_code (k : Kind) : Kind.ofCode k.code = some k := by
  cases k <;> decide
@[simp] theorem RingSel.ofCode_code (x : RingSel) : RingSel.ofCode x.code = some x := by
  cases x <;> decide
@[simp] theorem drawOfCode_drawCode (d : Bool) : drawOfCode (drawCode d) = some d := by
  cases d <;> decide
theorem directionOfCode_directionCode {tx rx : Bool} (h : (tx || rx) = true) :
    directionOfCode (directionCode tx rx) = some (tx, rx) := by
  cases tx <;> cases rx <;> first | decide | cases h

/-- No two rows of the opcode table share a code. -/
theorem Mnemonic.code_injective {m n : Mnemonic} (h : m.code = n.code) : m = n := by
  have := congrArg Mnemonic.ofCode h
  simpa using this

theorem Mnemonic.code_of_ofCode {c : BitVec 8} {m : Mnemonic} (h : Mnemonic.ofCode c = some m) :
    m.code = c := by
  have := List.find?_some h
  simpa using this

/-- A code that names a kind is that kind's code. -/
theorem Kind.code_of_ofCode {c : BitVec 4} {k : Kind} (h : Kind.ofCode c = some k) : k.code = c := by
  unfold Kind.ofCode at h
  (repeat' split at h) <;> cases h <;> simp_all [Kind.code]

/-- A code that names a ring is that ring's code. -/
theorem RingSel.code_of_ofCode {c : BitVec 4} {x : RingSel} (h : RingSel.ofCode c = some x) :
    x.code = c := by
  unfold RingSel.ofCode at h
  (repeat' split at h) <;> cases h <;> simp_all [RingSel.code]

/-- A code that names a direction mask is its code, and names a direction. -/
theorem directionCode_of_directionOfCode {c : BitVec 4} {tx rx : Bool}
    (h : directionOfCode c = some (tx, rx)) : directionCode tx rx = c ∧ (tx || rx) = true := by
  unfold directionOfCode at h
  (repeat' split at h) <;> cases h <;> simp_all [directionCode]

/-- A code that names a draw is its code. -/
theorem drawCode_of_drawOfCode {c : BitVec 4} {d : Bool} (h : drawOfCode c = some d) :
    drawCode d = c := by
  unfold drawOfCode at h
  (repeat' split at h) <;> cases h <;> simp_all [drawCode]

/-- Decoding an encoded operation comes down to its row's check and its row's operands. -/
theorem decode_encode_eq (i : Instr) :
    decode (encode i) =
      if i.mnemonic.zeroFieldSet (encode i) then .error .zeroFieldSet
      else i.mnemonic.build (encode i) := by
  simp [decode]

end Sys2Proof
end

