-- ==== Sys2Proof/Laws/PerInstr.lean ====
section
/-! SUPPORT. The family RoundTrip: an operation's descriptor decodes to the operation, one lemma per
constructor of Instr. -/

namespace Sys2Proof.Laws.RoundTrip

/-- The descriptor of a well-formed operation decodes to that operation. -/
def Statement (i : Instr) : Prop := i.wellFormed = true → decode (encode i) = .ok i

/-- A row's must-be-0 fields are 0 in the descriptor of its operation. -/
theorem zeroFieldSet_encode (i : Instr) : i.mnemonic.zeroFieldSet (encode i) = false := by
  cases i <;> simp [Mnemonic.zeroFieldSet, Instr.mnemonic, Mnemonic.subUse, Mnemonic.usesImm,
    Mnemonic.usesA, Mnemonic.usesB, Instr.subField, Instr.immField, Instr.wordA, Instr.wordB]

/-- It remains that the row's operands read back. -/
theorem of_build {i : Instr} (hb : i.mnemonic.build (encode i) = .ok i) : Statement i := by
  intro _
  rw [decode_encode_eq, zeroFieldSet_encode, hb]
  rfl

theorem rbPush (inst : InstId) (ring : RingSel) (byte : Byte) :
    Statement (.rbPush inst ring byte) :=
  of_build (by simp [Mnemonic.build, Instr.mnemonic, Instr.inst, withRing, Instr.subField, Instr.immField])

theorem rbPop (inst : InstId) (ring : RingSel) :
    Statement (.rbPop inst ring) :=
  of_build (by simp [Mnemonic.build, Instr.mnemonic, Instr.inst, withRing, Instr.subField])

theorem enableClock (inst : InstId) :
    Statement (.enableClock inst) :=
  of_build (by simp [Mnemonic.build, Instr.mnemonic, Instr.inst])

theorem selectPins (inst : InstId) (pairing : Byte) :
    Statement (.selectPins inst pairing) :=
  of_build (by simp [Mnemonic.build, Instr.mnemonic, Instr.inst, Instr.immField])

theorem setBaud (inst : InstId) (hz baud : Word) :
    Statement (.setBaud inst hz baud) :=
  of_build (by simp [Mnemonic.build, Instr.mnemonic, Instr.inst, Instr.wordA, Instr.wordB])

theorem enableDirection (inst : InstId) (tx rx : Bool) :
    Statement (.enableDirection inst tx rx) := by
  intro h
  exact of_build (by simp [Mnemonic.build, Instr.mnemonic, Instr.inst, Instr.subField,
    directionOfCode_directionCode h]) h

theorem enable (inst : InstId) :
    Statement (.enable inst) :=
  of_build (by simp [Mnemonic.build, Instr.mnemonic, Instr.inst])

theorem disable (inst : InstId) :
    Statement (.disable inst) :=
  of_build (by simp [Mnemonic.build, Instr.mnemonic, Instr.inst])

theorem enableCallback (inst : InstId) (kind : Kind) :
    Statement (.enableCallback inst kind) :=
  of_build (by simp [Mnemonic.build, Instr.mnemonic, Instr.inst, withKind, Instr.subField])

theorem disableCallback (inst : InstId) (kind : Kind) :
    Statement (.disableCallback inst kind) :=
  of_build (by simp [Mnemonic.build, Instr.mnemonic, Instr.inst, withKind, Instr.subField])

theorem setCallback (inst : InstId) (kind : Kind) (handler : Word) :
    Statement (.setCallback inst kind handler) :=
  of_build (by simp [Mnemonic.build, Instr.mnemonic, Instr.inst, withKind, Instr.subField, Instr.wordA])

theorem sendBlocking (inst : InstId) (addr len : Word) :
    Statement (.sendBlocking inst addr len) :=
  of_build (by simp [Mnemonic.build, Instr.mnemonic, Instr.inst, Instr.wordA, Instr.wordB])

theorem recvBlocking (inst : InstId) (addr count : Word) :
    Statement (.recvBlocking inst addr count) :=
  of_build (by simp [Mnemonic.build, Instr.mnemonic, Instr.inst, Instr.wordA, Instr.wordB])

theorem sendAsync (inst : InstId) (addr len : Word) :
    Statement (.sendAsync inst addr len) :=
  of_build (by simp [Mnemonic.build, Instr.mnemonic, Instr.inst, Instr.wordA, Instr.wordB])

theorem recvAsync (inst : InstId) (addr maxCount : Word) :
    Statement (.recvAsync inst addr maxCount) :=
  of_build (by simp [Mnemonic.build, Instr.mnemonic, Instr.inst, Instr.wordA, Instr.wordB])

theorem sendBreak (inst : InstId) :
    Statement (.sendBreak inst) :=
  of_build (by simp [Mnemonic.build, Instr.mnemonic, Instr.inst])

theorem lineRxByte (inst : InstId) (byte : Byte) :
    Statement (.lineRxByte inst byte) :=
  of_build (by simp [Mnemonic.build, Instr.mnemonic, Instr.inst, Instr.immField])

theorem lineRxBytePerr (inst : InstId) (draw : Bool) (byte : Byte) :
    Statement (.lineRxBytePerr inst draw byte) :=
  of_build (by simp [Mnemonic.build, Instr.mnemonic, Instr.inst, Instr.subField, Instr.immField])

theorem lineBreakDetect (inst : InstId) :
    Statement (.lineBreakDetect inst) :=
  of_build (by simp [Mnemonic.build, Instr.mnemonic, Instr.inst])

theorem lineTxShift (inst : InstId) :
    Statement (.lineTxShift inst) :=
  of_build (by simp [Mnemonic.build, Instr.mnemonic, Instr.inst])

theorem lineTxIdle (inst : InstId) :
    Statement (.lineTxIdle inst) :=
  of_build (by simp [Mnemonic.build, Instr.mnemonic, Instr.inst])

theorem lineBreakSent (inst : InstId) :
    Statement (.lineBreakSent inst) :=
  of_build (by simp [Mnemonic.build, Instr.mnemonic, Instr.inst])

end Sys2Proof.Laws.RoundTrip
end

