-- ==== Sys2Proof/Laws/Ring.lean ====
section
/-! SUPPORT. Ring arithmetic: the capacity as a number, the occupancy as the one number below the capacity
that leads from `R` to `W`, and how the bytes held follow each micro-step of a PUSH or a POP. The
transient index `C` is covered: everything is modulo `C`. -/

namespace Sys2Proof.Machine

theorem Ring.cap_toNat (q : Ring) : q.cap.toNat = 2 ^ q.logC.val := by
  have h2 : (2 : Nat) ^ q.logC.val < 2 ^ 32 := Nat.pow_lt_pow_right (by omega) q.logC.isLt
  simp only [Ring.cap, BitVec.toNat_shiftLeft, BitVec.toNat_ofNat, Nat.shiftLeft_eq]
  rw [Nat.mod_eq_of_lt] <;> simp <;> omega

theorem Ring.lt_cap_iff {q : Ring} {n : Word} : n < q.cap ↔ n.toNat < 2 ^ q.logC.val := by
  rw [BitVec.lt_def, Ring.cap_toNat]

theorem Ring.cap_le_iff {q : Ring} {n : Word} : q.cap ≤ n ↔ 2 ^ q.logC.val ≤ n.toNat := by
  rw [BitVec.le_def, Ring.cap_toNat]

theorem Ring.cap_pred_toNat (q : Ring) : (q.cap - 1#32).toNat = 2 ^ q.logC.val - 1 := by
  have h : 1 ≤ q.cap.toNat := by rw [Ring.cap_toNat]; exact Nat.two_pow_pos _
  rw [BitVec.toNat_sub_of_le (by rw [BitVec.le_def]; exact h), Ring.cap_toNat]
  rfl

/-- An index below the capacity can be advanced without wrapping at 32 bits. -/
theorem Ring.succ_toNat {q : Ring} {n : Word} (h : n < q.cap) : (n + 1#32).toNat = n.toNat + 1 := by
  have := q.cap.isLt
  rw [BitVec.lt_def] at h
  rw [BitVec.toNat_add]
  simp
  omega

theorem Ring.wrap_toNat_eq {q : Ring} {n : Word} (h : n < q.cap) :
    (q.wrap n).toNat = (n.toNat + 1) % 2 ^ q.logC.val := by
  unfold Ring.wrap
  rw [BitVec.toNat_and, Ring.cap_pred_toNat, Nat.and_two_pow_sub_one_eq_mod, Ring.succ_toNat h]

theorem Ring.wrap_lt_cap (q : Ring) (n : Word) : q.wrap n < q.cap := by
  unfold Ring.wrap
  rw [Ring.lt_cap_iff, BitVec.toNat_and, Ring.cap_pred_toNat, Nat.and_two_pow_sub_one_eq_mod]
  exact Nat.mod_lt _ (Nat.two_pow_pos _)

/-- The occupancy leads from `R` to `W`, modulo the capacity. -/
theorem Ring.occupancy_spec (q : Ring) : q.occupancy.toNat < 2 ^ q.logC.val ∧
    (q.r.toNat + q.occupancy.toNat) % 2 ^ q.logC.val = q.w.toNat % 2 ^ q.logC.val := by
  have hd : (2 : Nat) ^ q.logC.val ∣ 2 ^ 32 := Nat.pow_dvd_pow 2 (by have := q.logC.isLt; omega)
  unfold Ring.occupancy
  rw [BitVec.toNat_and, Ring.cap_pred_toNat, Nat.and_two_pow_sub_one_eq_mod, BitVec.toNat_sub,
    Nat.mod_mod_of_dvd _ hd]
  refine ⟨Nat.mod_lt _ (Nat.two_pow_pos _), ?_⟩
  rw [Nat.add_mod_mod, show q.r.toNat + (2 ^ 32 - q.r.toNat + q.w.toNat) = q.w.toNat + 2 ^ 32 by
    have := q.r.isLt; omega]
  rw [Nat.add_mod, Nat.mod_eq_zero_of_dvd hd, Nat.add_zero, Nat.mod_mod]

/-- It is the only such number below the capacity. -/
theorem Ring.occupancy_unique {q : Ring} {n : Nat} (hn : n < 2 ^ q.logC.val)
    (h : (q.r.toNat + n) % 2 ^ q.logC.val = q.w.toNat % 2 ^ q.logC.val) :
    q.occupancy.toNat = n := by
  obtain ⟨h1, h2⟩ := q.occupancy_spec
  have h3 : (q.r.toNat + q.occupancy.toNat) ≡ (q.r.toNat + n) [MOD 2 ^ q.logC.val] := h2.trans h.symm
  have h4 := Nat.ModEq.add_left_cancel' _ h3
  exact Nat.ModEq.eq_of_lt_of_lt h4 h1 hn

/-- With both indices below the capacity, no byte is held exactly when they are equal. -/
theorem Ring.occupancy_eq_zero {q : Ring} (hw : q.w < q.cap) (hr : q.r < q.cap) :
    q.occupancy = 0#32 ↔ q.w = q.r := by
  rw [Ring.lt_cap_iff] at hw hr
  constructor
  · intro h
    have := q.occupancy_spec.2
    rw [h] at this
    simp only [BitVec.toNat_ofNat, Nat.zero_mod, Nat.add_zero, Nat.mod_eq_of_lt hw,
      Nat.mod_eq_of_lt hr] at this
    exact BitVec.eq_of_toNat_eq this.symm
  · intro h
    apply BitVec.eq_of_toNat_eq
    exact Ring.occupancy_unique (Nat.two_pow_pos _) (by rw [h]; rfl)

/-- Rings that agree in storage, capacity and indices modulo the capacity hold the same bytes. -/
theorem Ring.contents_congr {p q : Ring} (hc : p.logC = q.logC) (hb : p.buf = q.buf)
    (hw : p.w.toNat % 2 ^ q.logC.val = q.w.toNat % 2 ^ q.logC.val)
    (hr : p.r.toNat % 2 ^ q.logC.val = q.r.toNat % 2 ^ q.logC.val) : p.contents = q.contents := by
  have ho : p.occupancy.toNat = q.occupancy.toNat := by
    refine Ring.occupancy_unique (hc ▸ q.occupancy_spec.1) ?_
    rw [hc, Nat.add_mod, hr, ← Nat.add_mod, hw]
    exact q.occupancy_spec.2
  unfold Ring.contents
  rw [ho]
  apply List.map_congr_left
  intro n _
  rw [hb, hc, Nat.add_mod, hr, ← Nat.add_mod]

/-- A write to the cell `W` addresses is no write to a byte held. -/
theorem Ring.contents_write (q : Ring) (n : Nat) (b : Byte)
    (hn : n % 2 ^ q.logC.val = q.w.toNat % 2 ^ q.logC.val) (hlt : n < 2 ^ q.logC.val) :
    ({ q with buf := Memory.write q.buf n b } : Ring).contents = q.contents := by
  unfold Ring.contents
  show List.map _ (List.range q.occupancy.toNat) = _
  apply List.map_congr_left
  intro k hk
  have hk := List.mem_range.1 hk
  refine Memory.read_write_ne _ _ (fun e => ?_)
  obtain ⟨h1, -⟩ := q.occupancy_spec
  have h2 : (q.r.toNat + k) % 2 ^ q.logC.val = q.w.toNat % 2 ^ q.logC.val := by
    have e : (q.r.toNat + k) % 2 ^ q.logC.val = n := e
    rw [e, ← hn, Nat.mod_eq_of_lt hlt]
  have := Ring.occupancy_unique (show k < 2 ^ q.logC.val by omega) h2
  omega

/-- Step p3 of a PUSH appends the byte in the cell `W` addressed, unless the ring was full. -/
theorem Ring.contents_pushIncrement {q : Ring} (hw : q.w < q.cap)
    (ho : q.occupancy.toNat + 1 < 2 ^ q.logC.val) :
    ({ q with w := q.w + 1#32 } : Ring).occupancy.toNat = q.occupancy.toNat + 1 ∧
    ({ q with w := q.w + 1#32 } : Ring).contents = q.contents ++ [Memory.read q.buf q.w.toNat] := by
  have h2 := q.occupancy_spec.2
  have ho' : ({ q with w := q.w + 1#32 } : Ring).occupancy.toNat = q.occupancy.toNat + 1 := by
    refine Ring.occupancy_unique ho ?_
    show (q.r.toNat + (q.occupancy.toNat + 1)) % 2 ^ q.logC.val = (q.w + 1#32).toNat % 2 ^ q.logC.val
    rw [Ring.succ_toNat hw, ← Nat.add_assoc, Nat.add_mod, h2, ← Nat.add_mod]
  refine ⟨ho', ?_⟩
  unfold Ring.contents
  rw [ho', List.range_succ, List.map_append]
  show _ ++ [Memory.read q.buf ((q.r.toNat + q.occupancy.toNat) % 2 ^ q.logC.val)] = _
  rw [h2, Nat.mod_eq_of_lt (Ring.lt_cap_iff.1 hw)]

/-- Step q3 of a POP takes the oldest byte, the one in the cell `R` addressed. -/
theorem Ring.contents_popIncrement {q : Ring} (hr : q.r < q.cap) (ho : q.occupancy ≠ 0#32) :
    q.contents =
      Memory.read q.buf q.r.toNat :: ({ q with r := q.r + 1#32 } : Ring).contents := by
  obtain ⟨h1, h2⟩ := q.occupancy_spec
  have h0 : q.occupancy.toNat ≠ 0 := fun h => ho (BitVec.eq_of_toNat_eq h)
  have ho' : ({ q with r := q.r + 1#32 } : Ring).occupancy.toNat = q.occupancy.toNat - 1 := by
    refine Ring.occupancy_unique (show _ < 2 ^ q.logC.val by omega) ?_
    show ((q.r + 1#32).toNat + (q.occupancy.toNat - 1)) % 2 ^ q.logC.val = q.w.toNat % 2 ^ q.logC.val
    rw [Ring.succ_toNat hr, ← h2]
    congr 1
    omega
  unfold Ring.contents
  rw [ho']
  obtain ⟨n, hn⟩ := Nat.exists_eq_succ_of_ne_zero h0
  rw [hn, Nat.succ_eq_add_one, Nat.add_sub_cancel, List.range_succ_eq_map, List.map_cons, List.map_map]
  congr 1
  · rw [Nat.add_zero, Nat.mod_eq_of_lt (Ring.lt_cap_iff.1 hr)]
  · apply List.map_congr_left
    intro k _
    show Memory.read q.buf ((q.r.toNat + (k + 1)) % 2 ^ q.logC.val) =
      Memory.read q.buf (((q.r + 1#32).toNat + k) % 2 ^ q.logC.val)
    rw [Ring.succ_toNat hr]
    congr 2
    omega

end Sys2Proof.Machine
end

