-- ==== Sys2Proof/Laws/Run.lean ====
section
/-! SUPPORT. Every step of the machine in one disjunction, FG's step by its operation, and the dispatcher's
step where no user handler runs. -/

namespace Sys2Proof.Machine

/-- A step is one micro-step of FG, an entry, a micro-step of the active dispatcher or a line move, taken in
a state that differs in the schedule and the count of draws alone, and then what follows every micro-step. -/
theorem step_moves {s t : State} (h : step s = .next t) :
    ∃ m l d b u, s.choose = some (m, { s with sched := l, draws := d }) ∧
      t = State.settle b { s with sched := l, draws := d } u ∧ s.fault = none ∧
      ((m = .fg ∧ s.fgMay = true ∧ fgStep { s with sched := l, draws := d } = .next u) ∨
      (∃ i, m = .enter i ∧ s.allowed i = true ∧
        u = State.enter { s with sched := l, draws := d } i) ∨
      (m = .disp ∧ s.dispMay = true ∧ ∃ i k, s.active = some i ∧ s.dloc = some k ∧
        dispStepAt i k { s with sched := l, draws := d } = .next u) ∨
      (∃ e op, m = .line e ∧ decode e = .ok op ∧ op.agent = .line ∧
        exec op { s with sched := l, draws := d } = .next u)) := by
  have hrun : ∃ m l d, s.choose = some (m, { s with sched := l, draws := d }) ∧
      runMove m { s with sched := l, draws := d } = .next t := by
    unfold step machineStep at h
    split at h
    · rename_i m u hc
      have hc' := hc
      unfold State.choose at hc
      split at hc
      · cases hc; exact ⟨m, _, s.draws, hc', h⟩
      · simp only [Option.map_eq_some_iff] at hc
        obtain ⟨m', -, he⟩ := hc
        cases he
        exact ⟨m, s.sched, s.draws + 1, hc', h⟩
    · cases h
  obtain ⟨m, l, d, hc, h⟩ := hrun
  refine ⟨m, l, d, ?_⟩
  rcases runMove_cases h with ⟨rfl, hf, hm, u, hu, rfl⟩ | ⟨i, rfl, hf, hm, rfl⟩ |
    ⟨rfl, hf, hm, i, k, u, hi, hk, hu, rfl⟩ | ⟨e, op, u, rfl, hf, hd, ha, he, rfl⟩
  · exact ⟨_, u, hc, rfl, hf, .inl ⟨rfl, hm, hu⟩⟩
  · exact ⟨_, _, hc, rfl, hf, .inr (.inl ⟨i, rfl, hm, rfl⟩)⟩
  · exact ⟨_, _, hc, rfl, hf, .inr (.inr (.inl ⟨rfl, hm, i, k, hi, hk, hu⟩))⟩
  · exact ⟨_, _, hc, rfl, hf, .inr (.inr (.inr ⟨e, op, rfl, hd, ha, he⟩))⟩

/-- FG's micro-step is exec of the operation FG is at, or raises IllegalEncoding. -/
theorem fgStep_operation {s t : State} (h : fgStep s = .next t) :
    (∃ op, s.operation = some op ∧ op.agent = .foreground ∧ exec op s = .next t) ∨
    t = { s with fault := some .illegalEncoding } := by
  rcases fgStep_cases h with ⟨op, l, hl, ha, he⟩ | ⟨hl, d, op, hd, hdc, ha, he⟩ | ⟨-, rfl⟩
  · exact .inl ⟨op, by simp [State.operation, hl], ha, he⟩
  · exact .inl ⟨op, by simp [State.operation, hl, hd, hdc], ha, he⟩
  · exact .inr rfl

/-- FG inside an operation is at that operation. -/
theorem State.operation_busy {s : State} {op : Instr} {l : Label} (h : s.fg.loc = .busy op l) :
    s.operation = some op := by simp [State.operation, h]

/-- Where no user handler runs, the callback a dispatcher micro-step invokes is Default. -/
theorem State.default_of_runsHandler {s : State} {i : InstId} {l : DLoc} {k : Kind}
    (hr : s.runsHandler = false) (ha : s.active = some i) (hl : s.dloc = some l)
    (hk : l.invokes = some k) : (s.inst i).cb.get k = 0#32 := by
  simpa [State.runsHandler, ha, hl, hk] using hr

/-- A dispatcher micro-step that runs no user handler leaves FG, memory and the other instances alone. -/
theorem dispStepAt_plain {i : InstId} {l : DLoc} {s t : State} (hr : s.runsHandler = false)
    (ha : s.active = some i) (hl : s.dloc = some l) (h : dispStepAt i l s = .next t) :
    t.fg = s.fg ∧ t.mem = s.mem ∧ t.cfg = s.cfg ∧ t.prog = s.prog ∧
    (t.active = s.active ∨ t.active = none) ∧ (t.gie = s.gie ∨ (t.gie = false ∧ t.halt ≠ none)) ∧
    ∃ f, t.insts = (s.modInst i f).insts ∧ Inst.Change s.cfg (s.inst i) (f (s.inst i)) := by
  have hid : s.insts = (s.modInst i (fun x => x)).insts := by rw [State.modInst_id]
  rcases dispStepAt_cases h with ⟨f, l', rfl, hc, -⟩ | ⟨k, arg, hk, -, hi⟩ | rfl | ⟨-, rfl⟩
  · exact ⟨rfl, rfl, rfl, rfl, .inl rfl, .inl rfl, f, rfl, hc⟩
  · rcases State.invoke_cases hi with ⟨v, h0, hv, rfl⟩ | ⟨-, -, rfl⟩ | ⟨-, -, rfl⟩
    · exact absurd (State.default_of_runsHandler hr ha hl hk) h0
    · exact ⟨rfl, rfl, rfl, rfl, .inl rfl, .inr ⟨rfl, by simp⟩, _, hid, .refl _⟩
    · exact ⟨rfl, rfl, rfl, rfl, .inl rfl, .inl rfl, _, hid, .refl _⟩
  · exact ⟨rfl, rfl, rfl, rfl, .inl rfl, .inl rfl, _, hid, .refl _⟩
  · exact ⟨rfl, rfl, rfl, rfl, .inr rfl, .inl rfl, _, hid, .refl _⟩

/-- Some entry is allowed exactly when one instance has it allowed. -/
theorem State.someAllowed_iff (s : State) : s.someAllowed = true ↔ ∃ i, s.allowed i = true := by
  have hall : ∀ i : InstId, i ∈ allInstIds := by decide
  unfold State.someAllowed
  rw [List.any_eq_true]
  exact ⟨fun ⟨i, _, h⟩ => ⟨i, h⟩, fun ⟨i, h⟩ => ⟨i, hall i, h⟩⟩

/-- The pending latch after a micro-step that raised no fault (60_exceptions.md R130). -/
theorem State.settle_inst_latch {s t : State} (b : Bool) (hf : t.fault = none) {i : InstId}
    (hi : t.has i = true) : (s.settle b t).inst i =
      (t.inst i).latch t.cfg ((s.inst i).line s.cfg) (decide (t.active = some i)) := by
  have hlt := (State.has_iff t i).1 hi
  have hm : decide (t.active.map Fin.val = some i.val) = decide (t.active = some i) := by
    cases ht : t.active with
    | none => simp
    | some j => simp [Fin.ext_iff]
  unfold State.inst
  rw [State.settle_insts]
  simp only [hf, Option.isSome_none, Bool.false_eq_true, if_false, State.latchAll,
    List.getD_eq_getElem?_getD, List.getElem?_mapIdx, List.getElem?_eq_getElem hlt, Option.map_some,
    Option.getD_some, hm]

/-- An update of one instance keeps a relation that the update's function meets. -/
theorem State.inst_modInst_rel {P : Inst → Inst → Prop} (s : State) (i j : InstId) {f : Inst → Inst}
    (hr : ∀ x, P x x) (hf : ∀ x, P x (f x)) : P (s.inst j) ((s.modInst i f).inst j) := by
  by_cases hj : j = i
  · subst hj
    by_cases hh : s.has j = true
    · rw [State.inst_modInst_self hh]; exact hf _
    · rw [State.modInst_of_absent (by simpa using hh)]; exact hr _
  · rw [State.inst_modInst_of_ne hj]; exact hr _

end Sys2Proof.Machine
end

