-- ==== Sys2Proof/Tests/Slice0.lean ====
section
/-! SUPPORT. Tests: expected values are those of 95_test_vectors.md, whose vector a test names, or are written
out from the encoding rules. After them, one witness for the hypotheses of every statement. -/

namespace Sys2Proof.Tests

open Sys2Proof Sys2Proof.Machine

/-! Small states -/

/-- `ON(ctrl)` of 95_test_vectors.md section 0, with the instance changed further. -/
def on (ctrl : Word) (f : Inst → Inst := id) : State :=
  { State.reset with
    insts := State.reset.insts.map fun x =>
      f { x with clk := true, pins := some 0#8, brr := 0x8A#32, ctrl := ctrl } }

/-- FG inside an operation. -/
def within (s : State) (op : Instr) (l : Label) : State := { s with fg := s.fg.at op l }

/-- The dispatcher of instance 0 active at a label. -/
def handling (s : State) (l : DLoc) : State := { s with active := some 0, dloc := some l }

/-- The schedule names one move. -/
def scheduled (s : State) (m : Move) : State := { s with sched := [m] }

/-- A program of one descriptor with words `A` and `B`, and FG's step scheduled. -/
def program (s : State) (w0 : Word) (w1 : Word := 0#32) (w2 : Word := 0#32) : State :=
  { s with prog := [⟨w0, w1, w2⟩], sched := [.fg] }

/-- A field of the next state, or none. -/
def get {α : Type} (f : State → α) : Result → Option α
  | .next t => some (f t)
  | .fault _ => none
  | .refused _ => none

/-- Why a step stopped, if it did. -/
def stop : Result → Option (Fault ⊕ Refusal)
  | .next _ => none
  | .fault f => some (.inl f)
  | .refused q => some (.inr q)

/-- Something of instance 0. -/
def zero {α : Type} (f : Inst → α) (s : State) : α := f (s.inst 0)

/-- A ring with the given capacity exponent, cells and indices. -/
def ring (logC : Fin 32) (buf : Memory) (w r : Word) : Ring := { logC := logC, buf := buf, w := w, r := r }

/-! Well-formedness: the one check, direction mask 0 (30_encoding.md R61) -/

theorem test_wellFormed_refuses_mask_zero : (Instr.enableDirection 0 false false).wellFormed = false ∧
    (Instr.enableDirection 0 false true).wellFormed = true := by decide

theorem test_wellFormedOn_refuses_absent_instance : (Instr.enable 1).wellFormedOn 1 = false ∧
    (Instr.enable 0).wellFormedOn 1 = true := by decide

theorem test_programmable_refuses_stimulus : (Instr.lineTxIdle 0).programmable 1 = false ∧
    (Instr.enable 0).programmable 1 = true := by decide

/-! Decoding: words written out from 30_encoding.md R57 to R63, op in bits 31..24, inst in 23..20, sub in
19..16, imm8 in 7..0 -/

theorem test_decode_ring :
    decode ⟨0x01010061#32, 0#32, 0#32⟩ = .ok (.rbPush 0 .tx 0x61#8) ∧
    decode ⟨0x02F00000#32, 0#32, 0#32⟩ = .ok (.rbPop 15 .rx) := by decide

theorem test_decode_configuration :
    decode ⟨0x10300000#32, 0#32, 0#32⟩ = .ok (.enableClock 3) ∧
    decode ⟨0x11000005#32, 0#32, 0#32⟩ = .ok (.selectPins 0 5#8) ∧
    decode ⟨0x12000000#32, 0x00F42400#32, 0x00002580#32⟩ =
      .ok (.setBaud 0 16000000#32 9600#32) ∧
    decode ⟨0x13010000#32, 0#32, 0#32⟩ = .ok (.enableDirection 0 true false) ∧
    decode ⟨0x13020000#32, 0#32, 0#32⟩ = .ok (.enableDirection 0 false true) ∧
    decode ⟨0x14100000#32, 0#32, 0#32⟩ = .ok (.enable 1) ∧
    decode ⟨0x15000000#32, 0#32, 0#32⟩ = .ok (.disable 0) := by decide

theorem test_decode_callbacks :
    decode ⟨0x20010000#32, 0#32, 0#32⟩ = .ok (.enableCallback 0 .brk) ∧
    decode ⟨0x21040000#32, 0#32, 0#32⟩ = .ok (.disableCallback 0 .transmitReady) ∧
    decode ⟨0x22020000#32, 2#32, 0#32⟩ = .ok (.setCallback 0 .parity 2#32) ∧
    decode ⟨0x22030000#32, 0#32, 0#32⟩ = .ok (Instr.clearCallback 0 .byteReceived) := by decide

theorem test_decode_transfers :
    decode ⟨0x30000000#32, 0x20000000#32, 1#32⟩ = .ok (.sendBlocking 0 0x20000000#32 1#32) ∧
    decode ⟨0x31000000#32, 0x20000000#32, 1#32⟩ = .ok (.recvBlocking 0 0x20000000#32 1#32) ∧
    decode ⟨0x32000000#32, 0x20000000#32, 3#32⟩ = .ok (.sendAsync 0 0x20000000#32 3#32) ∧
    decode ⟨0x33000000#32, 0x20000100#32, 10#32⟩ = .ok (.recvAsync 0 0x20000100#32 10#32) ∧
    decode ⟨0x34000000#32, 0#32, 0#32⟩ = .ok (.sendBreak 0) := by decide

theorem test_decode_line :
    decode ⟨0x40100079#32, 0#32, 0#32⟩ = .ok (.lineRxByte 1 0x79#8) ∧
    decode ⟨0x41010055#32, 0#32, 0#32⟩ = .ok (.lineRxBytePerr 0 true 0x55#8) ∧
    decode ⟨0x42000000#32, 0#32, 0#32⟩ = .ok (.lineBreakDetect 0) ∧
    decode ⟨0x43000000#32, 0#32, 0#32⟩ = .ok (.lineTxShift 0) ∧
    decode ⟨0x44000000#32, 0#32, 0#32⟩ = .ok (.lineTxIdle 0) ∧
    decode ⟨0x45000000#32, 0#32, 0#32⟩ = .ok (.lineBreakSent 0) := by decide

/-- ENC-3, ENC-5 to ENC-10, ENC-12 and ENC-14 name no operation. -/
theorem test_decode_refuses :
    ([0x00000000, 0x14000100, 0x02000001, 0x34000000 + 2 ^ 32, 0x01020061, 0x22050000 + 2 ^ 32,
      0x13F00000, 0x41020055, 0x03000000] : List Nat).map (decodeTableWord 96) =
      List.replicate 9 none := by decide

theorem test_assembly_of_spec_example :
    (Instr.rbPush 0 .tx 0x61#8).assembly = (.RB_PUSH, [.inst 0, .ring .tx, .byte 0x61#8]) := by decide

/-! Reset (RST-1) -/

theorem test_reset_registers : zero Inst.stat State.reset = 0xC0#32 ∧
    zero Inst.ctrl State.reset = 0#32 ∧ State.reset.gie = true ∧ State.reset.fg.res = none ∧
    zero Inst.pins State.reset = none ∧ Memory.wf State.reset.mem = true := by decide

/-! Configuration -/

/-- CFG-11, one execution, by step. -/
theorem test_enableClock : get (fun t => (zero Inst.clk t, t.trace, t.fg.pc))
    (step (program State.reset 0x10000000#32)) = some (true, [.clockEnable 0], 1) := by decide

/-- CFG-12. -/
theorem test_selectPins : get (fun t => (zero Inst.pins t, t.trace))
    (step (program State.reset 0x11000001#32)) = some (some 1#8, [.pinSelect 0 1#8]) := by decide

/-- CFG-13. -/
theorem test_selectPins_faults : get (fun t => (zero Inst.pins t, t.fault.map FaultReason.code))
    (step (program State.reset 0x11000005#32)) = some (none, some 3) := by decide

/-- SRC-1. -/
theorem test_setBaud : get (zero Inst.brr)
    (step (program State.reset 0x12000000#32 0x00F42400#32 0x0001C200#32)) = some 0x8A#32 := by decide

/-- CFG-4. -/
theorem test_setBaud_overflows : get (fun t => (zero Inst.brr t, t.fault.map FaultReason.code))
    (step (program State.reset 0x12000000#32 0x00010000#32 1#32)) = some (0#32, some 6) := by decide

/-- CFG-8, its second step. -/
theorem test_enableDirection : get (zero Inst.ctrl)
    (exec (.enableDirection 0 true true)
      (within (on 0x0004#32) (.enableDirection 0 true true) (.e2 0x0004#32))) =
    some 0x000C#32 := by decide

/-- CFG-9, the second step of ENABLE. -/
theorem test_enable : get (zero Inst.ctrl)
    (exec (.enable 0) (within (on 0x000C#32) (.enable 0) (.n2 0x000C#32))) = some 0x200C#32 := by decide

/-- HZ-3, the second step of ENABLE: a stale SBK is written back. -/
theorem test_enable_restores_stale_break : get (zero Inst.ctrl)
    (exec (.enable 0) (within (on 0x200C#32) (.enable 0) (.n2 0x200D#32))) = some 0x200D#32 := by decide

/-- CFG-10, the second step of DISABLE. -/
theorem test_disable : get (fun t => (zero Inst.ctrl t, zero Inst.stat t))
    (exec (.disable 0) (within (on 0x20AC#32 (fun x => { x with stat := 0x20#32 }))
      (.disable 0) (.f2 0x20AC#32))) = some (0x00AC#32, 0x20#32) := by decide

/-! Rings -/

/-- RB-6, step U3. -/
theorem test_rbPush_transient_index : get (fun t => (t.ring 0 .tx).w)
    (exec (.rbPush 0 .tx 0x7A#8)
      (within (on 0#32 (fun x => { x with tx := ring 2 [(3, 0x7A#8)] 3#32 3#32 }))
        (.rbPush 0 .tx 0x7A#8) (.u3 3#32))) = some 4#32 := by decide

/-- RB-6, step U4. -/
theorem test_rbPush_wraps : get (fun t => ((t.ring 0 .tx).w, t.fg.ok))
    (exec (.rbPush 0 .tx 0x7A#8)
      (within (on 0#32 (fun x => { x with tx := ring 2 [(3, 0x7A#8)] 4#32 3#32 }))
        (.rbPush 0 .tx 0x7A#8) (.u4 3#32))) = some (0#32, some true) := by decide

/-- RB-2. -/
theorem test_rbPop_empty : get (fun t => (t.fg.ok, t.fg.res, (t.ring 0 .rx).r))
    (step (program State.reset 0x02000000#32)) = some (some false, some 0#32, 0#32) := by decide

/-- RB-3, step V4. -/
theorem test_rbPop_returns : get (fun t => (t.fg.ok, t.fg.res, (t.ring 0 .rx).r))
    (exec (.rbPop 0 .rx)
      (within (on 0#32 (fun x => { x with rx := ring 3 [(0, 0x61#8), (1, 0x62#8)] 2#32 1#32 }))
        (.rbPop 0 .rx) (.v4 0#32 0x61#8))) = some (some true, some 0x61#32, 1#32) := by decide

/-! Callback operations -/

/-- CB-3, step H2 of Break: CTRL2. -/
theorem test_enableCallback_break : get (fun t => (zero Inst.ctrl2 t, zero Inst.vec t))
    (exec (.enableCallback 0 .brk) (within State.reset (.enableCallback 0 .brk) (.h2 0#32))) =
    some (0x40#32, false) := by decide

/-- CB-1 and CB-2, step H3: one event only. -/
theorem test_enableCallback_vector_once :
    get (fun t => (zero Inst.vec t, t.trace)) (exec (.enableCallback 0 .byteReceived)
      (within State.reset (.enableCallback 0 .byteReceived) .h3)) = some (true, [.vectorEnable 0]) ∧
    get (fun t => (zero Inst.vec t, t.trace.length)) (exec (.enableCallback 0 .parity)
      (within (on 0x20#32 (fun x => { x with vec := true })) (.enableCallback 0 .parity) .h3)) =
      some (true, 0) := by decide

/-- CB-4, step J2. -/
theorem test_disableCallback : get (fun t => (zero Inst.ctrl t, zero Inst.vec t))
    (exec (.disableCallback 0 .transmitReady)
      (within (on 0x00A0#32 (fun x => { x with vec := true }))
        (.disableCallback 0 .transmitReady) (.j2 0x00A0#32))) = some (0x0020#32, true) := by decide

/-- CB-5. -/
theorem test_setCallback_faults :
    get (fun t => (zero (fun x => x.cb.overrun) t, t.fault.map FaultReason.code))
      (step (program State.reset 0x22000000#32 7#32)) = some (0#32, some 4) := by decide

/-- CB-6, its first operation. -/
theorem test_setCallback : get (zero (fun x => (x.cb.byteReceived, x.cb.parity, x.vec)))
    (step (program State.reset 0x22030000#32 2#32)) = some (2#32, 0#32, false) := by decide

/-! Blocking transfers -/

/-- BL-1, step L3. -/
theorem test_sendBlocking : get (fun t => (zero Inst.tdr t, zero Inst.stat t, t.fg.pc))
    (exec (.sendBlocking 0 0x20000000#32 1#32)
      (within (on 0x2008#32) (.sendBlocking 0 0x20000000#32 1#32) (.l3 0 0x78#8))) =
    some (0x78#8, 0#32, 1) := by decide

/-- BL-4, step L1: it spins. -/
theorem test_sendBlocking_spins : get State.fg
    (exec (.sendBlocking 0 0x20000000#32 1#32)
      (within (on 0x0008#32 (fun x => { x with stat := 0#32 }))
        (.sendBlocking 0 0x20000000#32 1#32) (.l1 0))) =
    some (State.reset.fg.at (.sendBlocking 0 0x20000000#32 1#32) (.l1 0)) := by decide

/-- BL-6, step M2, DR_READ_CLEARS_ORE false. -/
theorem test_recvBlocking_keeps_overrun : get (zero Inst.stat)
    (exec (.recvBlocking 0 0x20000000#32 1#32)
      (within (on 0x2004#32 (fun x => { x with stat := 0xE8#32, rdr := 0x41#8 }))
        (.recvBlocking 0 0x20000000#32 1#32) (.m2 0))) = some 0xC8#32 := by decide

/-- BL-3, step M3. -/
theorem test_recvBlocking_stores : get (fun t => (t.mem, t.fg.pc))
    (exec (.recvBlocking 0 0x20000000#32 1#32)
      (within (on 0x2004#32) (.recvBlocking 0 0x20000000#32 1#32) (.m3 0 0x42#8))) =
    some ([(0x20000000, 0x42#8)], 1) := by decide

/-! Asynchronous transfers -/

/-- AS-1, step A9. -/
theorem test_sendAsync_enables_source : get (fun t => (zero Inst.ctrl t, t.fg.pc))
    (exec (.sendAsync 0 0x20000000#32 3#32)
      (within (on 0x202C#32) (.sendAsync 0 0x20000000#32 3#32) (.a9 0x202C#32))) =
    some (0x20AC#32, 1) := by decide

/-- AS-7, step A3: stuck outside MEM_OK. -/
theorem test_sendAsync_stuck : stop (exec (.sendAsync 0 0x30000000#32 1#32)
    (within (on 0x202C#32) (.sendAsync 0 0x30000000#32 1#32) (.a3 0))) = some (.inl .fgStuck) := by
  decide

/-- AS-2, step G5 of the second byte. -/
theorem test_recvAsync_returns_count : get (fun t => (t.mem, t.fg.res, t.fg.ok))
    (exec (.recvAsync 0 0x20000100#32 2#32)
      (within (on 0x2024#32) (.recvAsync 0 0x20000100#32 2#32) (.g5 1 0x62#8))) =
    some ([(0x20000101, 0x62#8)], some 2#32, none) := by decide

/-- AS-3. -/
theorem test_recvAsync_of_none : get (fun t => (t.fg.res, t.fg.pc))
    (step (program (on 0x2024#32) 0x33000000#32 0x20000100#32 0#32)) = some (some 0#32, 1) := by decide

/-- AS-8, step B4. -/
theorem test_sendBreak : get (zero Inst.ctrl)
    (exec (.sendBreak 0) (within (on 0x200C#32) (.sendBreak 0) (.b4 0x200C#32))) =
    some 0x200D#32 := by decide

/-- AS-9, step B2: it spins. -/
theorem test_sendBreak_spins : get State.fg
    (exec (.sendBreak 0) (within (on 0x200D#32) (.sendBreak 0) .b2)) =
    some (State.reset.fg.at (.sendBreak 0) .b2) := by decide

/-! Line stimuli -/

/-- LN-1. -/
theorem test_lineRxByte : get (fun t => (zero Inst.rdr t, zero Inst.stat t))
    (step (scheduled (on 0x200C#32) (.line ⟨0x40000041#32, 0#32, 0#32⟩))) =
    some (0x41#8, 0xE0#32) := by decide

/-- LN-2. -/
theorem test_lineRxByte_overruns : get (fun t => (zero Inst.rdr t, zero Inst.stat t))
    (exec (.lineRxByte 0 0x42#8) (on 0x200C#32 (fun x => { x with stat := 0xE0#32, rdr := 0x41#8 }))) =
    some (0x41#8, 0xE8#32) := by decide

/-- LN-4. -/
theorem test_lineRxBytePerr_draw_zero : get (fun t => (zero Inst.rdr t, zero Inst.stat t))
    (exec (.lineRxBytePerr 0 false 0x55#8)
      (on 0x200C#32 (fun x => { x with stat := 0xE0#32, rdr := 0x41#8 }))) =
    some (0x41#8, 0xE8#32) := by decide

/-- LN-5. -/
theorem test_lineRxBytePerr_draw_one : get (fun t => (zero Inst.rdr t, zero Inst.stat t))
    (exec (.lineRxBytePerr 0 true 0x55#8)
      (on 0x200C#32 (fun x => { x with stat := 0xE0#32, rdr := 0x41#8 }))) =
    some (0x41#8, 0xE9#32) := by decide

/-- LN-6. -/
theorem test_lineBreakDetect : get (zero Inst.stat) (exec (.lineBreakDetect 0) (on 0x200C#32)) =
    some 0x1C0#32 := by decide

/-- LN-7. -/
theorem test_lineTxShift : get (fun t => (t.trace, zero Inst.stat t))
    (exec (.lineTxShift 0) (on 0x200C#32 (fun x => { x with stat := 0#32, tdr := 0x48#8 }))) =
    some ([.txOut 0 0x48#8], 0x80#32) := by decide

/-- LN-10. -/
theorem test_lineTxShift_refused : stop (exec (.lineTxShift 0) (on 0x200C#32)) =
    some (.inr .stimulusUnavailable) := by decide

/-- LN-8. -/
theorem test_lineTxIdle : get (zero Inst.stat)
    (exec (.lineTxIdle 0) (on 0x200C#32 (fun x => { x with stat := 0x80#32 }))) =
    some 0xC0#32 := by decide

/-- LN-9. -/
theorem test_lineTxIdle_refused :
    stop (exec (.lineTxIdle 0) (on 0x200C#32 (fun x => { x with stat := 0#32 }))) =
    some (.inr .stimulusUnavailable) := by decide

/-- LN-11. -/
theorem test_lineBreakSent : get (fun t => (t.trace, zero Inst.ctrl t))
    (exec (.lineBreakSent 0) (on 0x200D#32)) = some ([.txBreak 0], 0x200C#32) := by decide

/-! The dispatcher and the interrupt mechanism -/

/-- P5, the step OV1: the default halt. -/
theorem test_default_halt : get (fun t => (t.halt, t.gie, t.dloc, t.trace))
    (step (scheduled (handling (on 0x2004#32 (fun x => { x with ctrl3 := 1#32, stat := 0xE8#32 })) .ov1)
      .disp)) = some (some (0, .overrun), false, some .ov1, [.halt 0 .overrun]) := by decide

/-- DS-7, the step PA1. -/
theorem test_parity_reads_data : get (fun t => (t.dloc, zero Inst.stat t))
    (dispStep (handling (on 0x2124#32 (fun x => { x with stat := 0xE1#32, rdr := 0x55#8 })) .pa1)) =
    some (some (.pa2 0x55#8), 0xC0#32) := by decide

/-- DS-5 event 3, the step TR8. -/
theorem test_drain_disables_source : get (zero Inst.ctrl)
    (dispStep (handling (on 0x20AC#32) (.tr8 0x20AC#32))) = some 0x202C#32 := by decide

/-- P3 stimulus 3, the step X1: Parity is still asserted, so PEND is set again. -/
theorem test_exit_latches_again : get (fun t => (zero Inst.pend t, t.active, t.lat))
    (step (scheduled (handling (on 0x2104#32 (fun x => { x with stat := 0xE1#32 })) .x1) .disp)) =
    some (true, none, 0) := by decide

/-- EXC-3: a rising line while the dispatcher is active sets PEND. -/
theorem test_rising_line_while_active : get (zero Inst.pend)
    (step (scheduled (handling (on 0x20AC#32 (fun x => { x with stat := 0#32 })) .tr6)
      (.line ⟨0x40000072#32, 0#32, 0#32⟩))) = some true := by decide

/-- ENC-11. -/
theorem test_absent_instance_faults : get (fun t => (t.fault.map FaultReason.code, t.fg.pc))
    (step (program State.reset 0x14100000#32)) = some (some 2, 0) := by decide

/-- ENC-4. -/
theorem test_stimulus_in_program_faults : get (fun t => t.fault.map FaultReason.code)
    (step (program State.reset 0x40000061#32)) = some (some 1) := by decide

/-! Witnesses: concrete states and operands that meet the hypotheses of each statement together, clause by
clause, at a boundary value where a clause has one -/

theorem witness_OperationDecodesFromItsDescriptor :
    (Instr.enableDirection 15 false true).wellFormed = true := by decide

theorem witness_LegalDescriptorIsItsOperationsEncoding :
    decode ⟨0x13F20000#32, 0#32, 0#32⟩ = .ok (.enableDirection 15 false true) := by decide

theorem witness_IllegalDescriptorsAndInstancesFault :
    (let s := program State.reset 0x40000061#32
     s.sched = [.fg] ∧ s.fgMay = true ∧ s.fg.loc = .start ∧
       s.prog[s.fg.pc]? = some ⟨0x40000061#32, 0#32, 0#32⟩) ∧
    (∀ i, decode ⟨0x40000061#32, 0#32, 0#32⟩ = .ok i → i.agent = .line) ∧
    (∀ i, decode ⟨0x00000000#32, 0#32, 0#32⟩ = .ok i → i.agent = .line) ∧
    ((Instr.enable 1).agent = .foreground ∧ State.reset.fg.loc = .start ∧
      State.reset.has (Instr.enable 1).inst = false) := by
  refine ⟨by decide, fun i h => ?_, fun i h => ?_, by decide⟩
  · rw [show decode ⟨0x40000061#32, 0#32, 0#32⟩ = .ok (.lineRxByte 0 0x61#8) by decide] at h
    cases h; rfl
  · rw [show decode ⟨0x00000000#32, 0#32, 0#32⟩ = .error .unassignedCode by decide] at h
    cases h

/-- FG at an operation's start, inside one, stuck and refused; a stimulus taken and one refused; the dispatcher
going on, and stuck in a handler without successor. -/
theorem witness_StepRunsTheDecodedInstruction :
    (let s := program State.reset 0x14000000#32
     s.sched = [.fg] ∧ s.fgMay = true ∧ s.operation = some (.enable 0) ∧
       (Instr.enable 0).agent = .foreground ∧
       (get State.fault (exec (.enable 0) { s with sched := [] })).isSome = true) ∧
    (let s := within (program State.reset 0x14000000#32) (.enable 0) (.n2 0#32)
     s.fgMay = true ∧ s.operation = some (.enable 0) ∧
       (get State.fault (exec (.enable 0) { s with sched := [] })).isSome = true) ∧
    (let s := within (program State.reset 0#32) (.sendAsync 0 0x20000400#32 1#32) (.a3 0)
     s.fgMay = true ∧ s.operation = some (.sendAsync 0 0x20000400#32 1#32) ∧
       stop (exec (.sendAsync 0 0x20000400#32 1#32) { s with sched := [] }) = some (.inl .fgStuck)) ∧
    (let s := within (program State.reset 0#32) (.enable 0) .a8
     s.fgMay = true ∧ s.operation = some (.enable 0) ∧
       stop (exec (.enable 0) { s with sched := [] }) = some (.inr .foreignLocation)) ∧
    (let s := scheduled (on 0x200C#32) (.line ⟨0x42000000#32, 0#32, 0#32⟩)
     decode ⟨0x42000000#32, 0#32, 0#32⟩ = .ok (.lineBreakDetect 0) ∧
       (Instr.lineBreakDetect 0).agent = .line ∧ s.fault = none ∧
       (get State.fault (exec (.lineBreakDetect 0) { s with sched := [] })).isSome = true) ∧
    stop (exec (.lineBreakDetect 0) State.reset) = some (.inr .stimulusUnavailable) ∧
    (let s := scheduled (handling (on 0x20AC#32) .c0) .disp
     s.sched = [.disp] ∧ s.active = some 0 ∧ s.dloc = some .c0 ∧ s.halt = none ∧ s.fault = none ∧
       (get State.fault (dispStepAt 0 .c0 { s with sched := [] })).isSome = true) ∧
    (let u := handling (on 0x20AC#32 (fun x => { x with cb := { x.cb with overrun := 5#32 } })) .ov1
     let s := { u with cfg := { u.cfg with handlers := [(5#32, .oneOf [])] } }
     s.active = some 0 ∧ s.dloc = some .ov1 ∧ s.halt = none ∧ s.fault = none ∧
       stop (dispStepAt 0 .ov1 s) = some (.inl .dispatcherStuck)) := by decide

/-- The hypotheses `FG.loc = start` and an existing instance, shared by the statements of whole
operations: EnableClockRequestsTheClock and EnableDirectionNeverClobbers have no others. -/
theorem witness_EnableClockRequestsTheClock : State.reset.fg.loc = .start ∧ State.reset.has 0 = true := by
  decide

theorem witness_EnableDirectionNeverClobbers :
    (on 0x200C#32).fg.loc = .start ∧ (on 0x200C#32).has 0 = true := by decide

theorem witness_SelectPinsRecordsALegalPairing : State.reset.fg.loc = .start ∧ State.reset.has 0 = true ∧
    1#8 ∈ (State.reset.inst 0).pairings ∧ 5#8 ∉ (State.reset.inst 0).pairings := by decide

/-- The largest quotient that fits and the smallest that does not. -/
theorem witness_SetBaudLoadsTheFlooredQuotient : State.reset.fg.loc = .start ∧ State.reset.has 0 = true ∧
    (1#32 ≠ 0#32 ∧ (65535#32).toNat / (1#32).toNat < 65536) ∧
    65536 ≤ (65536#32).toNat / (1#32).toNat := by decide

theorem witness_EnableDirectionMicroSteps :
    (State.reset.has 0 = true ∧ State.reset.fg.loc = .start) ∧
    (let s := within (on 0x0004#32) (.enableDirection 0 true true) (.e2 0x0004#32)
     s.has 0 = true ∧ s.fg.loc = .busy (.enableDirection 0 true true) (.e2 0x0004#32)) := by decide

theorem witness_EnableAndDisableMicroSteps :
    (State.reset.has 0 = true ∧ State.reset.fg.loc = .start) ∧
    (let s := within (on 0x000C#32) (.enable 0) (.n2 0x000C#32)
     s.has 0 = true ∧ s.fg.loc = .busy (.enable 0) (.n2 0x000C#32)) ∧
    (let s := within (on 0x200C#32) (.disable 0) (.f2 0x200C#32)
     s.has 0 = true ∧ s.fg.loc = .busy (.disable 0) (.f2 0x200C#32)) := by decide

/-- U2 with the largest index in range. -/
theorem witness_RbPushMicroSteps :
    let op := Instr.rbPush 0 .tx 0x7A#8
    let s := on 0x200C#32 (fun x => { x with tx := ring 2 [] 3#32 3#32 })
    (s.has 0 = true ∧ s.fg.loc = .start) ∧
    ((within s op (.u2 3#32)).fg.loc = .busy op (.u2 3#32) ∧
      (3#32).toNat < 2 ^ (s.ring 0 .tx).logC.val) ∧
    (within s op (.u3 3#32)).fg.loc = .busy op (.u3 3#32) ∧
    (within s op (.u4 3#32)).fg.loc = .busy op (.u4 3#32) := by decide

/-- V1 on an empty and on a non-empty ring, V2 with the largest index in range. -/
theorem witness_RbPopMicroSteps :
    let op := Instr.rbPop 0 .rx
    let s := on 0x200C#32 (fun x => { x with rx := ring 2 [(3, 0x61#8)] 0#32 3#32 })
    (State.reset.fg.loc = .start ∧ (State.reset.ring 0 .rx).w = (State.reset.ring 0 .rx).r) ∧
    (s.has 0 = true ∧ s.fg.loc = .start ∧ (s.ring 0 .rx).w ≠ (s.ring 0 .rx).r) ∧
    ((within s op (.v2 3#32)).fg.loc = .busy op (.v2 3#32) ∧
      (3#32).toNat < 2 ^ (s.ring 0 .rx).logC.val) ∧
    (within s op (.v3 3#32 0x61#8)).fg.loc = .busy op (.v3 3#32 0x61#8) ∧
    (within s op (.v4 3#32 0x61#8)).fg.loc = .busy op (.v4 3#32 0x61#8) := by decide

/-- The smallest index out of range, 8 of a ring of capacity 8, in each of the six steps. -/
theorem witness_OutOfRangeIndexFaults :
    let s := State.reset
    (2 ^ (s.ring 0 .rx).logC.val ≤ (8#32).toNat ∧ 2 ^ (s.ring 0 .tx).logC.val ≤ (8#32).toNat) ∧
    (let o := Instr.rbPush 0 .tx 1#8; (within s o (.u2 8#32)).fg.loc = .busy o (.u2 8#32)) ∧
    (let o := Instr.rbPop 0 .rx; (within s o (.v2 8#32)).fg.loc = .busy o (.v2 8#32)) ∧
    (let o := Instr.sendAsync 0 0#32 1#32
     (within s o (.a5 0 1#8 8#32)).fg.loc = .busy o (.a5 0 1#8 8#32)) ∧
    (let o := Instr.recvAsync 0 0#32 1#32
     (within s o (.g2 0 8#32)).fg.loc = .busy o (.g2 0 8#32)) := by decide

/-- A push that fills the ring: seven bytes in capacity 8, the index wrapping. -/
theorem witness_PushAppendsItsByte :
    let s := on 0#32 (fun x => { x with tx := ring 3 [] 7#32 1#32 })
    s.fg.loc = .start ∧ s.has 0 = true ∧ (s.ring 0 .tx).InRange ∧
      Memory.wf (s.ring 0 .tx).buf = true ∧
      (s.ring 0 .tx).occupancy.toNat + 1 < 2 ^ (s.ring 0 .tx).logC.val := by decide

theorem witness_PopTakesTheOldestByte :
    (let s := State.reset
     s.fg.loc = .start ∧ s.has 0 = true ∧ (s.ring 0 .rx).InRange ∧ (s.ring 0 .rx).contents = []) ∧
    (let s := on 0#32 (fun x => { x with rx := ring 3 [(7, 0x61#8)] 1#32 7#32 })
     s.fg.loc = .start ∧ s.has 0 = true ∧ (s.ring 0 .rx).InRange ∧
       (s.ring 0 .rx).contents = [0x61#8, 0#8]) := by decide

/-- RB-5, and RB-7 with capacity 1. -/
theorem witness_PushOntoAFullRingEmptiesIt :
    (let s := on 0#32 (fun x =>
        { x with tx := ring 2 [(0, 0x61#8), (1, 0x62#8), (2, 0x63#8)] 3#32 0#32 })
     s.fg.loc = .start ∧ s.has 0 = true ∧ (s.ring 0 .tx).InRange ∧
       (s.ring 0 .tx).occupancy.toNat + 1 = 2 ^ (s.ring 0 .tx).logC.val) ∧
    (let s := on 0#32 (fun x => { x with rx := ring 0 [] 0#32 0#32 })
     (s.ring 0 .rx).InRange ∧ (s.ring 0 .rx).occupancy.toNat + 1 = 2 ^ (s.ring 0 .rx).logC.val) := by
  decide

theorem witness_EnableCallbackMicroSteps :
    let op := Instr.enableCallback 0 .brk
    (State.reset.has 0 = true ∧ State.reset.fg.loc = .start) ∧
    (within State.reset op (.h2 0#32)).fg.loc = .busy op (.h2 0#32) ∧
    (within State.reset op .h3).fg.loc = .busy op .h3 := by decide

theorem witness_DisableCallbackMicroSteps :
    let op := Instr.disableCallback 0 .overrun
    (State.reset.has 0 = true ∧ State.reset.fg.loc = .start) ∧
    (within State.reset op (.j2 1#32)).fg.loc = .busy op (.j2 1#32) := by decide

theorem witness_SetCallbackBindsALegalHandler :
    (State.reset.has 0 = true ∧ State.reset.fg.loc = .start) ∧
    (∃ r, State.reset.cfg.handlers.lookup 3#32 = some r) ∧
    (4#32 ≠ 0#32 ∧ State.reset.cfg.handlers.lookup 4#32 = none) := ⟨by decide, ⟨_, rfl⟩, by decide⟩

/-- The last address of MEM_OK and the first after it. -/
theorem witness_SendBlockingMicroSteps :
    let op := Instr.sendBlocking 0 0x200003FF#32 2#32
    let s := on 0x2008#32
    (s.has 0 = true ∧ s.fg.loc = .start) ∧
    (within s op (.l1 0)).fg.loc = .busy op (.l1 0) ∧
    ((within s op (.l2 0)).fg.loc = .busy op (.l2 0) ∧ memOk s.cfg (bufAddr 0x200003FF#32 0) = true) ∧
    ((within s op (.l2 1)).fg.loc = .busy op (.l2 1) ∧ memOk s.cfg (bufAddr 0x200003FF#32 1) = false) ∧
    (within s op (.l3 0 1#8)).fg.loc = .busy op (.l3 0 1#8) := by decide

theorem witness_RecvBlockingMicroSteps :
    let op := Instr.recvBlocking 0 0x200003FF#32 2#32
    let s := on 0x2004#32
    (s.has 0 = true ∧ s.fg.loc = .start) ∧
    (within s op (.m1 0)).fg.loc = .busy op (.m1 0) ∧
    (within s op (.m2 0)).fg.loc = .busy op (.m2 0) ∧
    ((within s op (.m3 0 1#8)).fg.loc = .busy op (.m3 0 1#8) ∧ Memory.wf s.mem = true ∧
      memOk s.cfg (bufAddr 0x200003FF#32 0) = true) ∧
    ((within s op (.m3 1 1#8)).fg.loc = .busy op (.m3 1 1#8) ∧
      memOk s.cfg (bufAddr 0x200003FF#32 1) = false) := by decide

theorem witness_SendAsyncMicroSteps :
    let op := Instr.sendAsync 0 0x200003FF#32 2#32
    let s := on 0x202C#32
    (s.has 0 = true ∧ s.fg.loc = .start) ∧
    (within s op (.a2 0x202C#32)).fg.loc = .busy op (.a2 0x202C#32) ∧
    ((within s op (.a3 0)).fg.loc = .busy op (.a3 0) ∧ memOk s.cfg (bufAddr 0x200003FF#32 0) = true) ∧
    ((within s op (.a3 1)).fg.loc = .busy op (.a3 1) ∧ memOk s.cfg (bufAddr 0x200003FF#32 1) = false) ∧
    (within s op (.a4 0 1#8)).fg.loc = .busy op (.a4 0 1#8) ∧
    ((within s op (.a5 0 1#8 7#32)).fg.loc = .busy op (.a5 0 1#8 7#32) ∧
      (7#32).toNat < 2 ^ (s.inst 0).tx.logC.val) ∧
    (within s op (.a6 0 7#32)).fg.loc = .busy op (.a6 0 7#32) ∧
    (within s op (.a7 0 7#32)).fg.loc = .busy op (.a7 0 7#32) ∧
    (within s op .a8).fg.loc = .busy op .a8 ∧
    (within s op (.a9 0x202C#32)).fg.loc = .busy op (.a9 0x202C#32) := by decide

/-- AS-5, with capacity 4: the three bytes just fit. -/
theorem witness_SendAsyncQueuesTheCallersBytes :
    let s := on 0x202C#32 (fun x => { x with tx := ring 2 [] 2#32 2#32 })
    s.fg.loc = .start ∧ s.has 0 = true ∧ (s.inst 0).tx.InRange ∧ Memory.wf (s.inst 0).tx.buf = true ∧
      (s.inst 0).tx.occupancy.toNat + (3#32).toNat < 2 ^ (s.inst 0).tx.logC.val ∧
      (∀ j, j < (3#32).toNat → memOk s.cfg (bufAddr 0x20000000#32 j) = true) := by decide

theorem witness_RecvAsyncMicroSteps :
    let op := Instr.recvAsync 0 0x200003FF#32 2#32
    let s := on 0x2024#32
    (s.has 0 = true ∧ s.fg.loc = .start) ∧
    (within s op (.g1 0)).fg.loc = .busy op (.g1 0) ∧
    ((within s op (.g2 0 7#32)).fg.loc = .busy op (.g2 0 7#32) ∧
      (7#32).toNat < 2 ^ (s.inst 0).rx.logC.val) ∧
    (within s op (.g3 0 7#32 1#8)).fg.loc = .busy op (.g3 0 7#32 1#8) ∧
    (within s op (.g4 0 7#32 1#8)).fg.loc = .busy op (.g4 0 7#32 1#8) ∧
    ((within s op (.g5 0 1#8)).fg.loc = .busy op (.g5 0 1#8) ∧ Memory.wf s.mem = true ∧
      memOk s.cfg (bufAddr 0x200003FF#32 0) = true) ∧
    ((within s op (.g5 1 1#8)).fg.loc = .busy op (.g5 1 1#8) ∧
      memOk s.cfg (bufAddr 0x200003FF#32 1) = false) := by decide

/-- SRC-5. -/
theorem witness_RecvAsyncCopiesTheOldestBytes :
    let s := on 0x2024#32 (fun x =>
      { x with rx := ring 3 [(0, 0x61#8), (1, 0x62#8), (2, 0x63#8)] 3#32 0#32 })
    s.fg.loc = .start ∧ s.has 0 = true ∧ (s.inst 0).rx.InRange ∧ Memory.wf s.mem = true ∧
      (s.inst 0).rx.contents = [0x61#8, 0x62#8, 0x63#8] ∧
      (∀ j, j < min (10#32).toNat (s.inst 0).rx.contents.length →
        memOk s.cfg (bufAddr 0x20000100#32 j) = true) := by decide

theorem witness_SendBreakMicroSteps :
    let op := Instr.sendBreak 0
    let s := on 0x200D#32
    (s.has 0 = true ∧ s.fg.loc = .start) ∧
    (within s op .b2).fg.loc = .busy op .b2 ∧ (within s op .b3).fg.loc = .busy op .b3 ∧
    (within s op (.b4 0x200C#32)).fg.loc = .busy op (.b4 0x200C#32) := by decide

/-- RXNE 0 and RXNE 1. -/
theorem witness_LineBytesAreStoredOrOverrun :
    (let s := on 0x2004#32; s.has 0 = true ∧ (s.inst 0).rxGate = true ∧
      (s.inst 0).stat.getLsbD 5 = false) ∧
    (let s := on 0x2004#32 (fun x => { x with stat := 0xE0#32 })
     (s.inst 0).rxGate = true ∧ (s.inst 0).stat.getLsbD 5 = true) := by decide

theorem witness_LineBreakAndTransmitMoves :
    (let s := on 0x2004#32; s.has 0 = true ∧ (s.inst 0).rxGate = true) ∧
    (let s := on 0x2008#32 (fun x => { x with stat := 0#32 })
     (s.inst 0).txGate = true ∧ (s.inst 0).stat.getLsbD 7 = false) ∧
    (let s := on 0x2008#32 (fun x => { x with stat := 0x80#32 })
     (s.inst 0).txGate = true ∧ (s.inst 0).stat.getLsbD 7 = true ∧ (s.inst 0).stat.getLsbD 6 = false) ∧
    (let s := on 0x2009#32; (s.inst 0).txGate = true ∧ (s.inst 0).ctrl.getLsbD 0 = true) := by decide

theorem witness_UnavailableStimulusIsRefused :
    (State.reset.has 0 = true ∧ (State.reset.inst 0).clk = false) ∧
    ((on 0x000C#32).inst 0).ctrl.getLsbD 13 = false ∧
    ((on 0x2008#32).inst 0).ctrl.getLsbD 2 = false ∧
    ((on 0x2004#32).inst 0).ctrl.getLsbD 3 = false ∧
    ((on 0x2008#32).inst 0).stat.getLsbD 7 = true ∧ ((on 0x2008#32).inst 0).stat.getLsbD 6 = true ∧
    ((on 0x2008#32 (fun x => { x with stat := 0#32 })).inst 0).stat.getLsbD 7 = false ∧
    ((on 0x2008#32).inst 0).ctrl.getLsbD 0 = false ∧
    State.reset.has 1 = false := by decide

/-- The six outcomes of the classifier: DS-1 down to DS-3, each with all higher causes absent. -/
theorem witness_ClassifierTakesTheFirstCause :
    let start := fun (ctrl ctrl2 ctrl3 stat : Word) =>
      handling (on ctrl (fun x => { x with ctrl2 := ctrl2, ctrl3 := ctrl3, stat := stat })) .c0
    let causes := fun (s : State) =>
      let x := s.inst 0
      [x.stat.getLsbD 3 && (x.ctrl3.getLsbD 0 || (s.cfg.overrunAlias && x.ctrl.getLsbD 5)),
        x.stat.getLsbD 8 && x.ctrl2.getLsbD 6, x.stat.getLsbD 0 && x.ctrl.getLsbD 8,
        x.stat.getLsbD 5 && x.ctrl.getLsbD 5, x.stat.getLsbD 7 && x.ctrl.getLsbD 7]
    ((start 0x21AC#32 0x40#32 1#32 0x1E9#32).active = some 0 ∧
      (start 0x21AC#32 0x40#32 1#32 0x1E9#32).dloc = some .c0) ∧
    causes (start 0x21AC#32 0x40#32 1#32 0x1E9#32) = [true, true, true, true, true] ∧
    causes (start 0x21AC#32 0x40#32 1#32 0x1E1#32) = [false, true, true, true, true] ∧
    causes (start 0x21AC#32 0x40#32 1#32 0x0E1#32) = [false, false, true, true, true] ∧
    causes (start 0x21AC#32 0x40#32 1#32 0x0E0#32) = [false, false, false, true, true] ∧
    causes (start 0x21AC#32 0x40#32 1#32 0x0C0#32) = [false, false, false, false, true] ∧
    causes (start 0x2004#32 0#32 0#32 0x0E0#32) = [false, false, false, false, false] := by decide

/-- In capacity 4, the push that fills the ring (two bytes held) and the one that empties it (three). -/
theorem witness_ByteReceivedCaseQueuesTheByte :
    let start := fun (w r : Word) => handling (on 0x2024#32 (fun x =>
      { x with stat := 0xE0#32, rdr := 0x64#8, rx := ring 2 [(3, 0x61#8)] w r })) .rb1
    let meets := fun (s : State) => s.active = some 0 ∧ s.dloc = some .rb1 ∧ s.has 0 = true ∧
      (s.inst 0).rx.InRange ∧ Memory.wf (s.inst 0).rx.buf = true
    (meets (start 1#32 3#32) ∧ ((start 1#32 3#32).inst 0).rx.occupancy.toNat + 1 < 2 ^ 2) ∧
    (meets (start 3#32 0#32) ∧ ((start 3#32 0#32).inst 0).rx.occupancy.toNat + 1 = 2 ^ 2) := by decide

/-- One byte held and more than one (DS-5); the transient `W = C` of HZ-1, and the same on a drained ring; the
largest index TR2 may read. -/
theorem witness_TransmitReadyCaseDrainsTheRing :
    let start := fun (q : Ring) => handling (on 0x20AC#32 (fun x => { x with tx := q })) .tr1
    let meets := fun (s : State) => s.active = some 0 ∧ s.dloc = some .tr1 ∧ s.has 0 = true
    (let s := start (ring 3 [(0, 0x61#8), (1, 0x62#8)] 2#32 1#32)
     meets s ∧ (s.inst 0).tx.InRange ∧ (s.inst 0).tx.contents = [0x62#8] ∧
       (s.inst 0).tx.w ≠ (s.inst 0).tx.r) ∧
    (let s := start (ring 3 [(0, 0x61#8), (1, 0x62#8)] 2#32 0#32)
     meets s ∧ (s.inst 0).tx.InRange ∧ (s.inst 0).tx.contents = [0x61#8, 0x62#8]) ∧
    (let s := start (ring 2 [(3, 0x7A#8)] 4#32 3#32)
     meets s ∧ (s.inst 0).tx.w.toNat = 2 ^ 2 ∧ (s.inst 0).tx.r.toNat < 2 ^ 2) ∧
    (let s := start (ring 2 [(3, 0x7A#8)] 4#32 0#32)
     meets s ∧ (s.inst 0).tx.w.toNat = 2 ^ 2 ∧ (s.inst 0).tx.r.toNat < 2 ^ 2) ∧
    (3#32 : Word).toNat < 2 ^ (ring 2 [] 0#32 0#32).logC.val := by decide

theorem witness_ParityAndEmptyRingCases :
    let s := handling (on 0x2124#32 (fun x => { x with stat := 0xE1#32 })) .pa1
    s.has 0 = true ∧ (s.inst 0).tx.w = (s.inst 0).tx.r := by decide

/-- Default, `id`, `clr_ore`, and a relation without successor. -/
theorem witness_InvocationRunsTheBoundHandler :
    (let s := on 0x2124#32
     (s.inst 0).cb.get .overrun = 0#32 ∧ (s.inst 0).cb.get .transmitReady = 0#32) ∧
    (let s := on 0x2124#32 (fun x => { x with cb := { x.cb with overrun := 1#32, parity := 2#32 } })
     s.has 0 = true ∧
     ((s.inst 0).cb.get .parity = 2#32 ∧ 2#32 ≠ 0#32 ∧
       s.cfg.handlers.lookup 2#32 = some (.oneOf [[]])) ∧
     ((s.inst 0).cb.get .overrun = 1#32 ∧ s.cfg.handlers.lookup 1#32 = some (.oneOf [[.clearFlag .ore]]) ∧
       ErrorFlag.ore ≠ .pe) ∧
     ({ s.cfg with handlers := [(2#32, .oneOf [])] } : Config).handlers.lookup 2#32 =
       some (.oneOf [])) := by decide

theorem witness_UserHandlerStaysInItsChangeSet :
    let s := on 0x2124#32 (fun x => { x with cb := { x.cb with overrun := 1#32 } })
    (s.inst 0).cb.get .overrun ≠ 0#32 ∧
      (get State.fault (s.invoke 0 .overrun none .x1)).isSome = true := by decide

/-- A handler of instance 0 that reads and writes `DATA` of instance 1 clears every flag of that one's byte and
transmit registers, and keeps its RDR (20_memory.md R48). -/
theorem test_handler_data_accesses :
    let u := on 0x2124#32 (fun x => { x with
      stat := 0x1E9#32, rdr := 0x55#8, cb := { x.cb with overrun := 5#32 } })
    let s := { u with insts := u.insts ++ u.insts
                      cfg := { u.cfg with handlers := [(5#32, .oneOf [[.readData 1, .writeData 1 0x42#32]])] } }
    get (fun t => ((t.inst 1).stat, (t.inst 1).rdr, (t.inst 1).tdr, (t.inst 0).stat))
      (s.invoke 0 .overrun none .x1) =
      some (0x108#32, 0x55#8, 0x42#8, 0x1E9#32) := by decide

theorem witness_InvocationEndsWithinFourteenSteps :
    let s := scheduled (handling (on 0x20AC#32) .c0) .disp
    s.active = some 0 ∧ s.dloc = some .c0 ∧ (get State.fault (step s)).isSome = true := by decide

/-- An allowed entry, and one that GIE forbids. -/
theorem witness_EntryIsTakenExactlyWhenAllowed :
    let s := scheduled (on 0x2024#32 (fun x => { x with vec := true, pend := true })) (.enter 0)
    (s.sched = [.enter 0] ∧ s.fault = none) ∧
    (s.halt = none ∧ s.gie = true ∧ s.has 0 = true ∧ (s.inst 0).vec = true ∧ (s.inst 0).pend = true ∧
      s.active = none) ∧
    ({ s with gie := false } : State).gie ≠ true := by decide

/-- The line rises while no dispatcher is active, and while the own one is; a latch that holds; an entry. -/
theorem witness_PendingLatchFollowsTheLine :
    (let s := scheduled (on 0x2024#32) (.line ⟨0x40000061#32, 0#32, 0#32⟩)
     s.choose.map Prod.fst = some (.line ⟨0x40000061#32, 0#32, 0#32⟩) ∧ s.has 0 = true ∧
       get (fun t => (t.fault, t.active, (t.inst 0).line t.cfg)) (step s) = some (none, none, true)) ∧
    (let s := scheduled (handling (on 0x20AC#32 (fun x => { x with stat := 0#32 })) .tr6)
        (.line ⟨0x40000072#32, 0#32, 0#32⟩)
     (s.inst 0).line s.cfg = false ∧
       get (fun t => (t.fault, t.active, (t.inst 0).line t.cfg)) (step s) =
         some (none, some 0, true)) ∧
    (let s := scheduled (on 0x2024#32 (fun x => { x with vec := true, pend := true })) (.enter 0)
     s.choose.map Prod.fst = some (.enter 0) ∧ (s.inst 0).pend = true ∧
       get (fun t => (t.fault, t.active)) (step s) = some (none, some 0)) := by decide

/-- FG may step, and is refused at the bound; then steps after which no entry is allowed (FG, an entry), and steps after which
one is (FG below the bound, a line move, the exit). -/
theorem witness_LatencyCounterBoundsTheForeground :
    let ready := on 0x2024#32 (fun x => { x with vec := true, pend := true })
    (let s := program ready 0x14000000#32
     s.fault = none ∧ s.sched = [.fg] ∧ s.allowed 0 = true ∧ s.fgMay = false) ∧
    (let s := program State.reset 0x14000000#32
     s.fgMay = true ∧ s.choose.map Prod.fst = some .fg ∧
       get (fun t => (t.fault, t.someAllowed)) (step s) = some (none, false)) ∧
    get (fun t => (t.fault, t.someAllowed)) (step (scheduled ready (.enter 0))) = some (none, false) ∧
    (let s := program { ready with cfg := { ready.cfg with irqLatency := 2 }, lat := 1 } 0x14000000#32
     get (fun t => (t.fault, t.allowed 0)) (step s) = some (none, true)) ∧
    get (fun t => (t.fault, t.allowed 0)) (step (scheduled ready (.line ⟨0x40000061#32, 0#32, 0#32⟩))) =
      some (none, true) ∧
    get (fun t => (t.fault, t.allowed 0)) (step (scheduled (handling ready .x1) .disp)) =
      some (none, true) := by decide

/-- P4 after SEND_ASYNC. -/
theorem witness_TransmitReadyStormRepeats :
    let u := on 0x20A8#32 (fun x => { x with vec := true, pend := true })
    let s := { u with sched := .enter 0 :: List.replicate 8 .disp }
    s.sched = .enter 0 :: (List.replicate 8 .disp ++ []) ∧ s.allowed 0 = true ∧
      (s.inst 0).cause s.cfg .overrun = false ∧ (s.inst 0).cause s.cfg .brk = false ∧
      (s.inst 0).cause s.cfg .parity = false ∧ (s.inst 0).cause s.cfg .byteReceived = false ∧
      (s.inst 0).cause s.cfg .transmitReady = true ∧ (s.inst 0).tx.w = (s.inst 0).tx.r ∧
      (s.inst 0).cb.transmitReady = 0#32 := by decide

theorem witness_FaultStopsEveryAgent :
    ({ on 0x2024#32 with fault := some .divideByZero } : State).fault = some .divideByZero := by decide

/-- EXC-5. -/
theorem witness_HaltFreezesTheCore :
    let s := scheduled { handling (on 0x2004#32) .ov1 with halt := some (0, .overrun), gie := false }
      (.line ⟨0x40000063#32, 0#32, 0#32⟩)
    s.halt ≠ none ∧ (get State.fault (step s)).isSome = true := by decide

theorem witness_ForegroundIsFrozenInHandlerContext :
    let s := scheduled (handling (on 0x20AC#32) .x1) .disp
    s.active = some 0 ∧ s.runsHandler = false ∧ (get State.fault (step s)).isSome = true := by decide

/-- The hypotheses `step s = next t` and no user handler, shared by the whole-machine rules. -/
theorem witness_ParametersAndProgramNeverChange :
    (get State.fault (step (program State.reset 0x10000000#32))).isSome = true := by decide

theorem witness_ProgramCounterNeverDecreases :
    get (fun t => t.fg.pc) (step (program State.reset 0x10000000#32)) = some 1 := by decide

/-- RB_POP on an empty ring writes both result registers. -/
theorem witness_ResultRegistersHaveThreeWriters :
    let s := program State.reset 0x02000000#32
    s.runsHandler = false ∧
      get (fun t => decide (t.fg.res ≠ s.fg.res ∧ t.fg.ok ≠ s.fg.ok)) (step s) = some true := by decide

/-- SET_CALLBACK writes CB, ENABLE_CALLBACK sets VEC, a default halt clears GIE. -/
theorem witness_CallbackTableVectorsAndMaskWriters :
    (let s := program State.reset 0x22030000#32 2#32
     s.runsHandler = false ∧
       get (fun t => decide ((t.inst 0).cb ≠ (s.inst 0).cb)) (step s) = some true) ∧
    (let s := within (program State.reset 0#32) (.enableCallback 0 .parity) .h3
     s.runsHandler = false ∧
       get (fun t => decide ((t.inst 0).vec ≠ (s.inst 0).vec)) (step s) = some true) ∧
    (let s := scheduled (handling (on 0x2004#32) .ov1) .disp
     s.runsHandler = false ∧ get (fun t => decide (t.gie ≠ s.gie)) (step s) = some true) := by decide

/-- A store of each receive operation. -/
theorem witness_MemoryIsWrittenByTheReceivesOnly :
    (let s := within (program (on 0x2004#32) 0#32) (.recvBlocking 0 0x20000000#32 1#32) (.m3 0 0x42#8)
     s.runsHandler = false ∧ get (fun t => decide (Memory.read t.mem 0x20000000 ≠
       Memory.read s.mem 0x20000000)) (step s) = some true) ∧
    (let s := within (program (on 0x2004#32) 0#32) (.recvAsync 0 0x20000000#32 1#32) (.g5 0 0x42#8)
     s.runsHandler = false ∧ get (fun t => decide (Memory.read t.mem 0x20000000 ≠
       Memory.read s.mem 0x20000000)) (step s) = some true) := by decide

theorem witness_StepKeepsMemoriesCanonical :
    let s := within (program (on 0x2004#32) 0#32) (.recvBlocking 0 0x20000000#32 1#32) (.m3 0 0x42#8)
    s.MemoriesCanonical ∧ (get State.fault (step s)).isSome = true := by decide

theorem witness_StepKeepsReservedBitsZero :
    let s := within (program (on 0x000C#32) 0#32) (.enable 0) (.n2 0x000C#32)
    s.ReservedZero ∧ (get State.fault (step s)).isSome = true := by decide

/-- The draw of an overrun with RXNE set. -/
theorem witness_StepKeepsParityWithItsByte :
    let s := scheduled (on 0x200C#32 (fun x => { x with stat := 0xE0#32 }))
      (.line ⟨0x41010055#32, 0#32, 0#32⟩)
    s.ParityWithByte ∧ (get State.fault (step s)).isSome = true := by decide

/-- Both agents inside an advance, at the largest index of a ring of capacity 4. -/
theorem witness_StepKeepsRingIndicesBounded :
    let s := scheduled (handling (within (on 0x2024#32 (fun x =>
      { x with rx := ring 2 [] 3#32 3#32 })) (.rbPop 0 .rx) (.v3 3#32 0#8)) (.rb4 0#8 3#32)) .disp
    s.runsHandler = false ∧ s.IndicesBounded ∧ s.FgIndexChecked ∧ s.DispIndexChecked ∧
      (get State.fault (step s)).isSome = true :=
  ⟨by decide, by decide, (by decide : (3#32 : Word) < 4#32), (by decide : (3#32 : Word) < 4#32), by decide⟩

theorem witness_StepKeepsTheSendMask :
    let s := within (program (on 0x202C#32) 0#32) (.sendAsync 0 0x20000000#32 1#32) (.a9 0x202C#32)
    s.SendMasked ∧ s.runsHandler = false ∧ (get State.fault (step s)).isSome = true :=
  ⟨fun _ => rfl, by decide, by decide⟩

/-- The dispatcher about to advance `W` while FG has read the oldest byte. -/
theorem witness_ReceiveRingIsFifoUnderInterleaving :
    let s := scheduled (handling (within (on 0x2024#32 (fun x =>
        { x with rx := ring 2 [(0, 0x61#8), (1, 0x64#8)] 1#32 0#32 }))
      (.recvAsync 0 0x20000100#32 1#32) (.g3 0 0#32 0x61#8)) (.rb4 0x64#8 1#32)) .disp
    s.RxInRole 0 ∧ s.has 0 = true ∧ s.runsHandler = false ∧
      (∀ b, s.operation ≠ some (.rbPush 0 .rx b)) ∧
      (∀ b w, s.dispAt 0 = some (.rb4 b w) →
        (s.inst 0).rx.occupancy.toNat + 1 < 2 ^ (s.inst 0).rx.logC.val) ∧
      (get State.fault (step s)).isSome = true := by
  refine ⟨⟨by decide, ?_, ?_⟩, by decide, by decide, fun b h => ?_, fun _ _ _ => by decide, by decide⟩
  · exact ⟨rfl, by decide, rfl⟩
  · exact ⟨rfl, by decide, by decide, rfl⟩
  · cases h

/-- SEND_ASYNC and RB_PUSH about to advance `W` with the byte in storage, and the dispatcher of HZ-1 about to
pop on the transient `W = C`. -/
theorem witness_TransmitRingIsFifoUnderInterleaving :
    let meets := fun (s : State) => s.TxInRole 0 ∧ s.has 0 = true ∧ s.runsHandler = false ∧
      s.operation ≠ some (.rbPop 0 .tx) ∧
      (∀ a n j w, s.fg.loc = .busy (.sendAsync 0 a n) (.a6 j w) →
        (s.inst 0).tx.occupancy.toNat + 1 < 2 ^ (s.inst 0).tx.logC.val) ∧
      (∀ b w, s.fg.loc = .busy (.rbPush 0 .tx b) (.u3 w) →
        (s.inst 0).tx.occupancy.toNat + 1 < 2 ^ (s.inst 0).tx.logC.val) ∧
      (s.dispAt 0 = some .tr1 → (s.inst 0).tx.w = (s.inst 0).tx.cap →
        (s.inst 0).tx.occupancy ≠ 0#32) ∧
      (get State.fault (step s)).isSome = true
    let queue := fun (buf : Memory) (w r : Word) =>
      on 0x202C#32 (fun x => { x with tx := ring 2 buf w r })
    meets (within ({ program (queue [(3, 0x48#8)] 3#32 2#32) 0#32 with mem := [(0x20000000, 0x48#8)] })
      (.sendAsync 0 0x20000000#32 1#32) (.a6 0 3#32)) ∧
    meets (within (program (queue [(3, 0x7A#8)] 3#32 3#32) 0#32) (.rbPush 0 .tx 0x7A#8) (.u3 3#32)) ∧
    meets (scheduled (handling (within (queue [(3, 0x7A#8)] 4#32 3#32) (.rbPush 0 .tx 0x7A#8) (.u4 3#32))
      .tr1) .disp) := by
  refine ⟨⟨⟨by decide, ?_, ?_⟩, by decide, by decide, by decide, fun _ _ _ _ _ => by decide,
      fun _ _ _ => by decide, by decide, by decide⟩,
    ⟨⟨by decide, ?_, ?_⟩, by decide, by decide, by decide, fun _ _ _ _ _ => by decide,
      fun _ _ _ => by decide, by decide, by decide⟩,
    ⟨⟨by decide, ?_, ?_⟩, by decide, by decide, by decide, fun _ _ _ _ _ => by decide,
      fun _ _ _ => by decide, by decide, by decide⟩⟩
  · exact (by decide : (2#32 : Word) < 4#32)
  · exact ⟨⟨rfl, by decide, rfl⟩, fun _ => ⟨rfl, fun d h => by cases h⟩⟩
  · exact (by decide : (3#32 : Word) < 4#32)
  · exact ⟨rfl, by decide, rfl⟩
  · exact (by decide : (3#32 : Word) < 4#32)
  · exact ⟨by decide, rfl⟩

/-- Sixteen instances, with the largest and the smallest capacity. -/
theorem witness_ResetStateOfEveryLaunch :
    let y : InstLaunch :=
      { cRx := 2 ^ 31, cTx := 1, pairings := [], rdr0 := 0x55#8, tdr0 := 1#8,
        rxBuf0 := [(2 ^ 31 - 1, 1#8)], txBuf0 := [] }
    ({ Launch.base with insts := List.replicate 16 y } : Launch).legal = true := by decide

/-- No instance, seventeen instances, and a capacity of 3. -/
theorem witness_IllegalLaunchHasNoMachine :
    let y : InstLaunch :=
      { cRx := 3, cTx := 1, pairings := [], rdr0 := 0#8, tdr0 := 0#8, rxBuf0 := [], txBuf0 := [] }
    ({ Launch.base with insts := [] } : Launch).insts.length = 0 ∧
    16 < ({ Launch.base with insts := List.replicate 17 y } : Launch).insts.length ∧
    (∀ k, y.cRx ≠ 2 ^ k) := by
  refine ⟨rfl, by decide, fun k h => ?_⟩
  change 3 = 2 ^ k at h
  rcases k with _ | k
  · cases h
  · rw [Nat.pow_succ] at h; omega

theorem witness_ResetIsQuietAndMeetsTheInvariants : State.launch Launch.base = some State.reset := by
  decide

/-- Every row of the opcode table runs as the first instruction after reset (log 13). -/
theorem test_withFetchWord_runs_every_row :
    ([0x01000000, 0x02000000, 0x10000000, 0x11000000, 0x12000000 + 2 ^ 64, 0x13010000, 0x14000000,
      0x15000000, 0x20000000, 0x21000000, 0x22000000, 0x30000000, 0x31000000, 0x32000000, 0x33000000,
      0x34000000, 0x40000000, 0x41000000, 0x42000000, 0x43000000, 0x44000000, 0x45000000] : List Nat).all
      (fun w => get State.fault (step (State.reset.withFetchWord 96 w)) = some none) = true := by decide

end Sys2Proof.Tests
end

section
/-! Launch legality (00_scope.md R11): what a legal launch guarantees, and that the model has no machine for
any other launch. -/

namespace Sys2Proof.Machine

theorem exists_eq_two_pow_of_legalCapacity {c : Nat} (h : legalCapacity c = true) : ∃ k, c = 2 ^ k := by
  simp only [legalCapacity, Bool.and_eq_true, decide_eq_true_eq] at h
  exact ⟨c.log2, h.1⟩

theorem InstLaunch.legalCapacity_of_legal {y : InstLaunch} (h : y.legal = true) :
    legalCapacity y.cRx = true ∧ legalCapacity y.cTx = true := by
  simp only [InstLaunch.legal, Bool.and_eq_true] at h
  obtain ⟨⟨⟨⟨hcaps, -⟩, -⟩, -⟩, -⟩ := h
  exact hcaps

theorem Launch.insts_of_legal {l : Launch} (h : l.legal = true) :
    1 ≤ l.insts.length ∧ l.insts.length ≤ 16 ∧ ∀ y ∈ l.insts, y.legal = true := by
  simp only [Launch.legal, Bool.and_eq_true, decide_eq_true_eq, List.all_eq_true] at h
  obtain ⟨⟨⟨⟨hpos, hmax⟩, hinsts⟩, -⟩, -⟩ := h
  exact ⟨hpos, hmax, hinsts⟩

theorem State.launch_eq_none_iff (l : Launch) : State.launch l = none ↔ ¬ l.legal = true := by
  simp [State.launch]

/-- Settles O59: a legal launch has 1 to 16 instances, each with two capacities that are powers of two, so
each of the four ways to violate R11 contradicts legality. -/
theorem illegalLaunchHasNoMachine : Obligations.IllegalLaunchHasNoMachine := by
  intro l hbad
  rw [State.launch_eq_none_iff]
  intro hlegal
  obtain ⟨hpos, hmax, hinsts⟩ := Launch.insts_of_legal hlegal
  obtain hnone | hmany | ⟨y, hy, hcap⟩ := hbad
  · omega
  · omega
  · obtain ⟨hrx, htx⟩ := InstLaunch.legalCapacity_of_legal (hinsts y hy)
    obtain hcap | hcap := hcap
    · obtain ⟨k, hk⟩ := exists_eq_two_pow_of_legalCapacity hrx
      exact hcap k hk
    · obtain ⟨k, hk⟩ := exists_eq_two_pow_of_legalCapacity htx
      exact hcap k hk

end Sys2Proof.Machine
end

section
/-! What a micro-step ensures of its next state: one rule per shared operation, so that a claim about all
micro-steps of an operation is a claim about the updates it makes. -/

namespace Sys2Proof.Machine

/-- Every next state the outcome can be meets `Q`; a fault or a refusal meets it emptily. -/
def Ensures (r : Result) (Q : State → Prop) : Prop := ∀ t, r = .next t → Q t

section
variable {Q : State → Prop} {s : State}

@[simp] theorem ensures_next (t : State) : Ensures (.next t) Q ↔ Q t :=
  ⟨fun h => h t rfl, fun h _ ht => by cases ht; exact h⟩

@[simp] theorem ensures_fault (f : Fault) : Ensures (.fault f) Q := fun _ ht => nomatch ht

@[simp] theorem ensures_refused (q : Refusal) : Ensures (.refused q) Q := fun _ ht => nomatch ht

@[simp] theorem ensures_ite (p : Prop) [Decidable p] (a b : Result) :
    Ensures (if p then a else b) Q ↔ (p → Ensures a Q) ∧ (¬ p → Ensures b Q) := by
  by_cases h : p <;> simp [h]

@[simp] theorem ensures_raise (r : FaultReason) :
    Ensures (s.raise r) Q ↔ Q { s with fault := some r } := by simp [State.raise]

@[simp] theorem ensures_begin (i : InstId) (k : State → Result) :
    Ensures (s.begin i k) Q ↔ (s.has i = true → Ensures (k s) Q) ∧
      (¬ s.has i = true → Q { s with fault := some .invalidInstance }) := by
  simp [State.begin]

@[simp] theorem ensures_memRead (a : Word) (k : Byte → Result) :
    Ensures (s.memRead a k) Q ↔
      (memOk s.cfg a = true → Ensures (k (Memory.read s.mem a.toNat)) Q) := by
  simp [State.memRead]

@[simp] theorem ensures_memWrite (a : Word) (b : Byte) (k : State → Result) :
    Ensures (s.memWrite a b k) Q ↔
      (memOk s.cfg a = true → Ensures (k { s with mem := Memory.write s.mem a.toNat b }) Q) := by
  simp [State.memWrite]

@[simp] theorem ensures_pushCell (i : InstId) (x : RingSel) (w : Word) (b : Byte)
    (k : State → Result) :
    Ensures (s.pushCell i x w b k) Q ↔ (w < (s.ring i x).cap → Ensures (k (s.setCell i x w b)) Q) ∧
      ((s.ring i x).cap ≤ w → Q { s with fault := some .ringIndexOutOfRange }) := by
  simp [State.pushCell, and_comm]

@[simp] theorem ensures_popCell (i : InstId) (x : RingSel) (r : Word) (k : Byte → Result) :
    Ensures (s.popCell i x r k) Q ↔
      (r < (s.ring i x).cap → Ensures (k (Memory.read (s.ring i x).buf r.toNat)) Q) ∧
      ((s.ring i x).cap ≤ r → Q { s with fault := some .ringIndexOutOfRange }) := by
  simp [State.popCell, and_comm]

@[simp] theorem ensures_lineMove (i : InstId) (available : Bool) (t : State) :
    Ensures (s.lineMove i available t) Q ↔ (s.has i = true → available = true → Q t) := by
  simp [State.lineMove]

/-- An invocation of Default halts for a fatal kind and goes on for any other. -/
theorem ensures_invoke_default {i : InstId} {k : Kind} (h : (s.inst i).cb.get k = 0#32)
    (arg : Option Byte) (l : DLoc) : Ensures (s.invoke i k arg l) Q ↔
      (fatal k = true → Q (s.defaultHalt i k)) ∧ (¬ fatal k = true → Q (s.dgoto l)) := by
  simp [State.invoke, h]

end

/-! Reading a peripheral or a ring after an update that leaves the part read alone. -/

@[simp] theorem State.inst_modInst_cb (s : State) (i j : InstId) {f : Inst → Inst}
    (hf : ∀ x, (f x).cb = x.cb) : ((s.modInst i f).inst j).cb = (s.inst j).cb :=
  State.inst_modInst_rel (P := fun x y => y.cb = x.cb) s i j (fun _ => rfl) hf

@[simp] theorem State.inst_modInst_vec (s : State) (i j : InstId) {f : Inst → Inst}
    (hf : ∀ x, (f x).vec = x.vec) : ((s.modInst i f).inst j).vec = (s.inst j).vec :=
  State.inst_modInst_rel (P := fun x y => y.vec = x.vec) s i j (fun _ => rfl) hf

@[simp] theorem State.ring_modInst (s : State) (i j : InstId) (a : RingSel) {f : Inst → Inst}
    (hrx : ∀ x, (f x).rx = x.rx) (htx : ∀ x, (f x).tx = x.tx) :
    (s.modInst i f).ring j a = s.ring j a :=
  State.inst_modInst_rel (P := fun x y => y.ring a = x.ring a) s i j (fun _ => rfl)
    (fun x => by cases a; exacts [hrx x, htx x])

/-- A peripheral after an update is as before, or is the peripheral updated. -/
theorem State.inst_modInst_cases (s : State) (i j : InstId) (f : Inst → Inst) :
    (s.modInst i f).inst j = s.inst j ∨ (j = i ∧ (s.modInst i f).inst j = f (s.inst j)) := by
  by_cases hj : j = i
  · exact State.inst_modInst_rel (P := fun x y => y = x ∨ (j = i ∧ y = f x)) s i j
      (fun _ => .inl rfl) (fun _ => .inr ⟨hj, rfl⟩)
  · exact .inl (State.inst_modInst_of_ne hj f)

@[simp] theorem Inst.receive_frame (x : Inst) (b : Byte) :
    (x.receive b).cb = x.cb ∧ (x.receive b).vec = x.vec ∧ (x.receive b).rx = x.rx ∧
      (x.receive b).tx = x.tx := by
  unfold Inst.receive; split <;> exact ⟨rfl, rfl, rfl, rfl⟩

@[simp] theorem Inst.receivePerr_frame (x : Inst) (d : Bool) (b : Byte) :
    (x.receivePerr d b).cb = x.cb ∧ (x.receivePerr d b).vec = x.vec ∧
      (x.receivePerr d b).rx = x.rx ∧ (x.receivePerr d b).tx = x.tx := by
  unfold Inst.receivePerr
  split
  · split <;> exact ⟨rfl, rfl, rfl, rfl⟩
  · exact ⟨rfl, rfl, rfl, rfl⟩

@[simp] theorem Inst.raiseFlag_frame (x : Inst) (f : Flag) :
    (x.raiseFlag f).cb = x.cb ∧ (x.raiseFlag f).vec = x.vec ∧ (x.raiseFlag f).rx = x.rx ∧
      (x.raiseFlag f).tx = x.tx := ⟨rfl, rfl, rfl, rfl⟩

/-! The updates that leave the instances alone leave each of them and each ring alone. -/

section
variable (s : State) (j : InstId) (a : RingSel)

@[simp] theorem State.inst_fault (r : Option FaultReason) :
    State.inst { s with fault := r } j = s.inst j := rfl
@[simp] theorem State.inst_mem (m : Memory) : State.inst { s with mem := m } j = s.inst j := rfl
@[simp] theorem State.ring_fault (r : Option FaultReason) :
    State.ring { s with fault := r } j a = s.ring j a := rfl
@[simp] theorem State.ring_mem (m : Memory) : State.ring { s with mem := m } j a = s.ring j a := rfl
@[simp] theorem State.ring_goto (op : Instr) (l : Label) : (s.goto op l).ring j a = s.ring j a := rfl
@[simp] theorem State.ring_finish : (s.finish).ring j a = s.ring j a := rfl
@[simp] theorem State.ring_setRes (v : Word) : (s.setRes v).ring j a = s.ring j a := rfl
@[simp] theorem State.ring_setOk (b : Bool) : (s.setOk b).ring j a = s.ring j a := rfl
@[simp] theorem State.ring_emit (e : Event) : (s.emit e).ring j a = s.ring j a := rfl
@[simp] theorem State.ring_dgoto (l : DLoc) : (s.dgoto l).ring j a = s.ring j a := rfl
@[simp] theorem State.ring_exit : (s.exit).ring j a = s.ring j a := rfl
@[simp] theorem State.ring_defaultHalt (i : InstId) (k : Kind) :
    (s.defaultHalt i k).ring j a = s.ring j a := rfl

end

end Sys2Proof.Machine
end

section
/-! Who writes what: memory, the result registers, the callback table, the vectors, GIE and the rings, for
every micro-step and then for every step. -/

namespace Sys2Proof.Machine

/-- The operations that use a ring (41_ring_buffer.md R76). -/
def usesRing : Instr → Bool
  | .rbPush _ _ _ => true
  | .rbPop _ _ => true
  | .sendAsync _ _ _ => true
  | .recvAsync _ _ _ => true
  | _ => false

theorem agent_of_usesRing {op : Instr} (h : usesRing op = true) : op.agent = .foreground := by
  cases op <;> first | rfl | cases h

/-- What a micro-step of `op` may write: at most one byte of memory; FG.RES, FG.OK, the callback table and the
vectors only where `op` is a writer of them; no GIE; and a ring only where `op` uses rings. -/
def Writes (op : Instr) (s t : State) : Prop :=
  (t.mem = s.mem ∨ ∃ (a : Word) (b : Byte), t.mem = Memory.write s.mem a.toNat b) ∧
  (t.fg.res = s.fg.res ∨ (∃ i x, op = .rbPop i x) ∨ ∃ i a n, op = .recvAsync i a n) ∧
  (t.fg.ok = s.fg.ok ∨ (∃ i x b, op = .rbPush i x b) ∨ ∃ i x, op = .rbPop i x) ∧
  (∀ j, (t.inst j).cb = (s.inst j).cb ∨ ∃ k h, op = .setCallback j k h) ∧
  (∀ j, (t.inst j).vec = (s.inst j).vec ∨
    ((t.inst j).vec = true ∧ ∃ k, op = .enableCallback j k)) ∧
  t.gie = s.gie ∧
  (usesRing op = true ∨ ∀ j a, t.ring j a = s.ring j a)

/-- Enabling a vector sets one vector and extends the history. -/
theorem State.enableVector_frame (s : State) (i : InstId) :
    (s.enableVector i).mem = s.mem ∧ (s.enableVector i).fg = s.fg ∧
      (s.enableVector i).gie = s.gie ∧ ∀ j, ((s.enableVector i).inst j).cb = (s.inst j).cb ∧
      (((s.enableVector i).inst j).vec = (s.inst j).vec ∨
        ((s.enableVector i).inst j).vec = true ∧ i = j) ∧
      ∀ a, (s.enableVector i).ring j a = s.ring j a := by
  unfold State.enableVector
  split
  · simp
  · refine ⟨rfl, rfl, rfl, fun j => ⟨by simp, ?_, by simp⟩⟩
    rcases s.inst_modInst_cases i j (fun x => { x with vec := true }) with h | ⟨rfl, h⟩
    · exact .inl (congrArg Inst.vec h)
    · exact .inr ⟨congrArg Inst.vec h, rfl⟩

/-- Every micro-step of every operation: the byte of a receive's store is `hstore`, the peripheral of a
SET_CALLBACK `hcb`, the vector of ENABLE_CALLBACK `State.enableVector_frame`; the rest is frame. -/
theorem exec_writes (op : Instr) (s : State) : Ensures (exec op s) (Writes op s) := by
  have hstore : ∀ (a : Word) (b : Byte), ∃ (a' : Word) (b' : Byte),
      Memory.write s.mem a.toNat b = Memory.write s.mem a'.toNat b' := fun a b => ⟨a, b, rfl⟩
  have hcb : ∀ i j f, ((s.modInst i f).inst j).cb = (s.inst j).cb ∨ i = j := fun i j f =>
    (s.inst_modInst_cases i j f).imp (congrArg Inst.cb) fun h => h.1.symm
  cases op
  case rbPush | rbPop | sendAsync | recvAsync =>
    simp only [exec, execRbPush, execRbPop, execSendAsync, execRecvAsync]
    split <;> simp [Writes, usesRing, State.pushIncrement, State.pushMask, State.popIncrement,
      State.popMask, State.setRingW, State.setRingR, State.setCell, State.modRing, State.regWrite,
      hstore]
  case enableClock | selectPins | setBaud | enableDirection | enable | disable =>
    simp only [exec, execEnableClock, execSelectPins, execSetBaud, execEnableDirection, execEnable,
      execDisable]
    split <;> simp [Writes, State.regWrite]
  case enableCallback | disableCallback | setCallback =>
    simp only [exec, execEnableCallback, execDisableCallback, execSetCallback]
    split <;> simp [Writes, State.regWrite, State.enableVector_frame, hcb]
  case sendBlocking | recvBlocking | sendBreak =>
    simp only [exec, execSendBlocking, execRecvBlocking, execSendBreak]
    split <;> simp [Writes, State.regWrite, State.regReadEffect, hstore]
  case lineRxByte | lineRxBytePerr | lineBreakDetect | lineTxShift | lineTxIdle | lineBreakSent =>
    simp [exec, Writes, execLineRxByte, execLineRxBytePerr, execLineBreakDetect, execLineTxShift,
      execLineTxIdle, execLineBreakSent]

/-- A dispatcher's micro-step that invokes no user handler leaves every callback table and vector alone. -/
theorem dispStepAt_cb_vec {i : InstId} {l : DLoc} {s : State}
    (hd : ∀ k, l.invokes = some k → (s.inst i).cb.get k = 0#32) :
    Ensures (dispStepAt i l s) (fun t => ∀ j, (t.inst j).cb = (s.inst j).cb ∧
      (t.inst j).vec = (s.inst j).vec) := by
  cases l <;> simp only [dispStepAt, State.classify]
  case ov1 | bk1 | pa2 | rb6 | tr9 => simp [ensures_invoke_default (hd _ rfl)]
  all_goals simp [State.pushIncrement, State.pushMask, State.popIncrement, State.popMask,
    State.setRingW, State.setRingR, State.setCell, State.modRing, State.regWrite, State.regReadEffect]

section
variable (b : Bool) (s t : State) (j : InstId)

@[simp] theorem State.settle_cb : ((s.settle b t).inst j).cb = (t.inst j).cb := by
  obtain ⟨p, hp⟩ := s.settle_inst b t j
  rw [hp]

@[simp] theorem State.settle_vec : ((s.settle b t).inst j).vec = (t.inst j).vec := by
  obtain ⟨p, hp⟩ := s.settle_inst b t j
  rw [hp]

@[simp] theorem State.settle_ring (a : RingSel) : (s.settle b t).ring j a = t.ring j a := by
  obtain ⟨p, hp⟩ := s.settle_inst b t j
  unfold State.ring
  rw [hp]
  cases a <;> rfl

end

/-- What follows a micro-step writes none of it. -/
theorem Writes.settle {op : Instr} {s t : State} (h : Writes op s t) (b : Bool) (u : State) :
    Writes op s (u.settle b t) := by simpa [Writes] using h

/-- A step that runs no user handler writes what FG's operation may, or, where another agent steps, leaves
FG's context, the callback tables and the vectors alone and clears GIE only with a halt. -/
theorem step_writes {s t : State} (h : step s = .next t) (hr : s.runsHandler = false) :
    (∃ op, s.operation = some op ∧ Writes op s t) ∨
    (t.fg = s.fg ∧ (∀ j, (t.inst j).cb = (s.inst j).cb ∧ (t.inst j).vec = (s.inst j).vec) ∧
      (t.gie = s.gie ∨ (t.gie = false ∧ t.halt ≠ none))) := by
  obtain ⟨m, l, d, b, u, -, rfl, -, hm⟩ := step_moves h
  rcases hm with ⟨-, -, hu⟩ | ⟨i, -, -, rfl⟩ | ⟨-, -, i, k, hi, hk, hu⟩ | ⟨e, op, -, -, ha, he⟩
  · rcases fgStep_operation hu with ⟨op, hop, -, he⟩ | rfl
    · exact .inl ⟨op, hop, Writes.settle (exec_writes op _ u he) b _⟩
    · exact .inr ⟨State.settle_fg .., fun j => ⟨State.settle_cb .., State.settle_vec ..⟩,
        .inl (State.settle_gie ..)⟩
  · refine .inr ⟨State.settle_fg .., fun j => ⟨(State.settle_cb ..).trans ?_,
      (State.settle_vec ..).trans ?_⟩, .inl (State.settle_gie ..)⟩
    · exact s.inst_modInst_cb i j (f := fun x => { x with pend := false }) fun _ => rfl
    · exact s.inst_modInst_vec i j (f := fun x => { x with pend := false }) fun _ => rfl
  · obtain ⟨hfg, -, -, -, -, hgie, -⟩ :=
      dispStepAt_plain (s := { s with sched := l, draws := d }) hr hi hk hu
    have hcv := dispStepAt_cb_vec (s := { s with sched := l, draws := d })
      (fun _ hk' => State.default_of_runsHandler hr hi hk hk') u hu
    exact .inr ⟨by simpa using hfg, fun j => ⟨(State.settle_cb ..).trans (hcv j).1,
      (State.settle_vec ..).trans (hcv j).2⟩, by simpa using hgie⟩
  · obtain ⟨-, f, tr, hu, -⟩ := exec_line_cases ha he
    obtain ⟨-, -, -, hcb, hvec, hgie, -⟩ := exec_writes op _ _ he
    refine .inr ⟨(State.settle_fg ..).trans (by rw [hu]; rfl), fun j =>
      ⟨(State.settle_cb ..).trans ((hcb j).resolve_right ?_),
        (State.settle_vec ..).trans ((hvec j).resolve_right ?_)⟩,
      .inl ((State.settle_gie ..).trans hgie)⟩
    · rintro ⟨k, h, rfl⟩; cases ha
    · rintro ⟨-, k, rfl⟩; cases ha

/-- Settles O48: FG's micro-step writes a result register only in one of its writers, and no other agent
touches FG's context. -/
theorem resultRegistersHaveThreeWriters : Obligations.ResultRegistersHaveThreeWriters := by
  intro s t h hr
  rcases step_writes h hr with ⟨op, hop, -, hres, hok, -⟩ | ⟨hfg, -⟩
  · rw [hop]
    simp only [Option.some.injEq]
    exact ⟨hres.resolve_left, hok.resolve_left⟩
  · exact ⟨fun hne => absurd (by rw [hfg]) hne, fun hne => absurd (by rw [hfg]) hne⟩

/-- Settles O49: FG writes the callback table and the vectors only in their operations and never GIE; the other
agents leave the tables and vectors alone, and clear GIE only in the default halt. -/
theorem callbackTableVectorsAndMaskWriters : Obligations.CallbackTableVectorsAndMaskWriters := by
  intro s t h hr
  rcases step_writes h hr with ⟨op, hop, -, -, -, hcb, hvec, hgie, -⟩ | ⟨-, hcv, hgie⟩
  · rw [hop]
    simp only [Option.some.injEq]
    refine ⟨fun i => (hcb i).resolve_left, fun i hi => ?_, fun i hne => ?_, fun hne => absurd hgie hne⟩
    · rcases hvec i with he | ⟨he, -⟩
      · rw [he, hi]
      · exact he
    · exact ((hvec i).resolve_left hne).2
  · exact ⟨fun i hne => absurd (hcv i).1 hne, fun i hi => (hcv i).2.trans hi,
      fun i hne => absurd (hcv i).2 hne, hgie.resolve_left⟩

end Sys2Proof.Machine
end

section
/-! The canonical form of memory and of ring storage is kept (10_state.md R18, R38). -/

namespace Sys2Proof.Machine

/-- A write lists no new address but its own. -/
theorem Memory.mem_write {m : Memory} {x : Nat} {v : Byte} {c : Host.Cell} (h : c ∈ m.write x v) :
    c ∈ m ∨ c.1 = x := by
  induction m with
  | nil =>
    simp only [Memory.write] at h
    split at h
    · exact .inl h
    · exact .inr (congrArg Prod.fst (List.mem_singleton.1 h))
  | cons d m ih =>
    obtain ⟨a, b⟩ := d
    simp only [Memory.write] at h
    split at h
    · split at h
      · exact .inl h
      · exact (List.mem_cons.1 h).symm.imp_right (congrArg Prod.fst)
    · split at h
      · rename_i hxa
        split at h
        · exact .inl (List.mem_cons_of_mem _ h)
        · exact (List.mem_cons.1 h).symm.imp (List.mem_cons_of_mem _)
            fun hc => (congrArg Prod.fst hc).trans hxa.symm
      · rcases List.mem_cons.1 h with hc | hc
        · exact .inl (hc ▸ List.mem_cons_self)
        · exact (ih hc).imp_left (List.mem_cons_of_mem _)

theorem Memory.write_below {n x : Nat} {m : Memory} (v : Byte) (hx : x < n)
    (hm : m.below n = true) : (m.write x v).below n = true := by
  simp only [Memory.below, List.all_eq_true, decide_eq_true_eq] at hm ⊢
  exact fun c hc => (Memory.mem_write hc).elim (hm c) (· ▸ hx)

/-- The canonical form of a memory of `n` addresses. -/
def Memory.Canonical (n : Nat) (m : Memory) : Prop := Memory.wf m = true ∧ Memory.below n m = true

theorem Memory.Canonical.write {n x : Nat} {m : Memory} (h : m.Canonical n) (hx : x < n) (v : Byte) :
    Memory.Canonical n (m.write x v) := ⟨Memory.write_wf x v h.1, Memory.write_below v hx h.2⟩

/-- The storage of a ring is canonical and lists cells below the capacity only. -/
def Ring.Canonical (q : Ring) : Prop := Memory.Canonical (2 ^ q.logC.val) q.buf

/-- Both rings of a peripheral are canonical. -/
def Inst.Canonical (x : Inst) : Prop := x.rx.Canonical ∧ x.tx.Canonical

theorem State.memoriesCanonical_iff (s : State) :
    s.MemoriesCanonical ↔ Memory.Canonical (2 ^ 32) s.mem ∧ ∀ x ∈ s.insts, x.Canonical := Iff.rfl

theorem Inst.Canonical.congr {x y : Inst} (h : x.Canonical) (hrx : y.rx = x.rx) (htx : y.tx = x.tx) :
    y.Canonical := by unfold Inst.Canonical; rw [hrx, htx]; exact h

theorem Inst.Canonical.ring {x : Inst} (h : x.Canonical) (a : RingSel) : (x.ring a).Canonical := by
  cases a; exacts [h.1, h.2]

theorem Inst.Canonical.setRing {x : Inst} {q : Ring} (h : x.Canonical) (hq : q.Canonical)
    (a : RingSel) : (x.setRing a q).Canonical := by
  cases a; exacts [⟨hq, h.2⟩, ⟨h.1, hq⟩]

/-- Storage is written at checked indices only, so every change of a peripheral keeps it canonical. -/
theorem Inst.Canonical.change {cfg : Config} {x y : Inst} (hc : Inst.Change cfg x y)
    (h : x.Canonical) : y.Canonical := by
  cases hc with
  | ringW a w => exact h.setRing (q := { x.ring a with w := w }) (h.ring a) a
  | ringR a r => exact h.setRing (q := { x.ring a with r := r }) (h.ring a) a
  | cell a n b hn =>
    exact h.setRing (q := { x.ring a with buf := Memory.write (x.ring a).buf n.toNat b })
      ((h.ring a).write (Ring.lt_cap_iff.1 hn) b) a
  | write r v => exact h.congr (by simp) (by simp)
  | read r => exact h.congr (by simp) (by simp)
  | receive b => exact h.congr (by simp) (by simp)
  | receivePerr d b => exact h.congr (by simp) (by simp)
  | _ => exact h

/-- A property of memory that every store keeps is kept by a user handler's changes. -/
theorem State.acts_mem {P : Memory → Prop}
    (hw : ∀ (m : Memory) (a : Word) b, P m → P (m.write a.toNat b)) (i : InstId)
    (l : List HandlerAct) {s : State} (hs : P s.mem) : P (s.acts i l).mem := by
  induction l generalizing s with
  | nil => exact hs
  | cons a l ih =>
    have hact : P (s.act i a).mem := by
      cases a <;> simp only [State.act] <;> (try split)
      case writeMem.isTrue => exact hw _ _ _ hs
      all_goals exact hs
    exact ih hact

/-- A property of memory that every store keeps is kept by every step, user handlers included. -/
theorem step_mem {P : Memory → Prop}
    (hw : ∀ (m : Memory) (a : Word) b, P m → P (m.write a.toNat b)) {s t : State}
    (h : step s = .next t) (hs : P s.mem) : P t.mem := by
  have hexec : ∀ {op l d u}, exec op { s with sched := l, draws := d } = .next u → P u.mem := by
    intro op l d u he
    obtain ⟨hm | ⟨a, b, hm⟩, -⟩ := exec_writes op _ u he
    · rw [hm]; exact hs
    · rw [hm]; exact hw _ _ _ hs
  obtain ⟨m, l, d, b, u, -, rfl, -, hm⟩ := step_moves h
  rw [State.settle_mem]
  rcases hm with ⟨-, -, hu⟩ | ⟨i, -, -, rfl⟩ | ⟨-, -, i, k, -, -, hu⟩ | ⟨e, op, -, -, -, he⟩
  · rcases fgStep_operation hu with ⟨op, -, -, he⟩ | rfl
    · exact hexec he
    · exact hs
  · exact hs
  · rcases dispStepAt_cases hu with ⟨f, l', rfl, -, -⟩ | ⟨k, arg, -, -, hi⟩ | rfl | ⟨-, rfl⟩
    · exact hs
    · rcases State.invoke_cases hi with ⟨v, -, hv, rfl⟩ | ⟨-, -, rfl⟩ | ⟨-, -, rfl⟩
      · obtain ⟨acts, d', rfl⟩ := State.runHandler_cases hv
        exact State.acts_mem hw i acts hs
      · exact hs
      · exact hs
    · exact hs
    · exact hs
  · exact hexec he

/-- Settles O51: MEM changes by stores at 32-bit addresses, and a peripheral by changes that write ring storage
below the capacity only. -/
theorem stepKeepsMemoriesCanonical : Obligations.StepKeepsMemoriesCanonical := by
  intro s t hs h
  rw [State.memoriesCanonical_iff] at hs ⊢
  obtain ⟨hmem, hinsts⟩ := hs
  exact ⟨step_mem (fun _ a b hm => hm.write a.isLt b) h hmem,
    step_forall h (fun _ _ hc => Inst.Canonical.change hc) (fun _ _ hx => hx) hinsts⟩

end Sys2Proof.Machine
end

section
/-! Reserved register bits stay 0 (10_state.md R22, 20_memory.md R47). -/

namespace Sys2Proof.Machine

/-- The bits of a word outside a mask are 0. -/
def ReservedOf (mask v : Word) : Prop := v &&& ~~~mask = 0#32

theorem reservedOf_and_mask (mask v : Word) : ReservedOf mask (v &&& mask) := by
  unfold ReservedOf
  rw [BitVec.and_assoc, BitVec.and_not_self]
  exact BitVec.and_zero

theorem ReservedOf.setBit {mask v : Word} (h : ReservedOf mask v) {n : Nat}
    (hn : ReservedOf mask (1#32 <<< n)) : ReservedOf mask (setBit v n) := by
  unfold ReservedOf Machine.setBit at *
  rw [BitVec.and_comm, BitVec.and_or_distrib_left]
  rw [BitVec.and_comm] at h hn
  simp [h, hn]

theorem ReservedOf.clearBit {mask v : Word} (h : ReservedOf mask v) (n : Nat) :
    ReservedOf mask (clearBit v n) := by
  unfold ReservedOf Machine.clearBit at *
  rw [BitVec.and_assoc, BitVec.and_comm (~~~_), ← BitVec.and_assoc, h, BitVec.zero_and]

/-- The reserved bits of the five registers of a peripheral are 0. -/
structure Inst.ReservedZero (x : Inst) : Prop where
  stat : ReservedOf statMask x.stat
  brr : ReservedOf brrMask x.brr
  ctrl : ReservedOf ctrlMask x.ctrl
  ctrl2 : ReservedOf ctrl2Mask x.ctrl2
  ctrl3 : ReservedOf ctrl3Mask x.ctrl3

theorem State.reservedZero_iff (s : State) : s.ReservedZero ↔ ∀ x ∈ s.insts, x.ReservedZero :=
  forall₂_congr fun _ _ => ⟨fun ⟨stat, brr, ctrl, ctrl2, ctrl3⟩ => ⟨stat, brr, ctrl, ctrl2, ctrl3⟩,
    fun ⟨stat, brr, ctrl, ctrl2, ctrl3⟩ => ⟨stat, brr, ctrl, ctrl2, ctrl3⟩⟩

theorem Flag.reservedOf_statMask (f : Flag) : ReservedOf statMask (1#32 <<< f.bit) := by
  unfold ReservedOf; cases f <;> decide

theorem Inst.ReservedZero.raiseFlag {x : Inst} (h : x.ReservedZero) (f : Flag) :
    (x.raiseFlag f).ReservedZero := { h with stat := h.stat.setBit f.reservedOf_statMask }

theorem Inst.ReservedZero.clearFlag {x : Inst} (h : x.ReservedZero) (f : Flag) :
    (x.clearFlag f).ReservedZero := { h with stat := h.stat.clearBit _ }

theorem Inst.ReservedZero.regWrite {x : Inst} (h : x.ReservedZero) (r : Reg) (v : Word) :
    (x.regWrite r v).ReservedZero := by
  cases r with
  | stat => exact h
  | data =>
    exact (Inst.ReservedZero.clearFlag (x := { x with tdr := v.extractLsb' 0 8 }) { h with } .txe).clearFlag .tc
  | brr => exact { h with brr := reservedOf_and_mask .. }
  | ctrl => exact { h with ctrl := reservedOf_and_mask .. }
  | ctrl2 => exact { h with ctrl2 := reservedOf_and_mask .. }
  | ctrl3 => exact { h with ctrl3 := reservedOf_and_mask .. }

theorem Inst.ReservedZero.regReadEffect {x : Inst} (h : x.ReservedZero) (cfg : Config) (r : Reg) :
    (x.regReadEffect cfg r).ReservedZero := by
  cases r with
  | data =>
    have hcleared := (h.clearFlag .rxne).clearFlag .pe
    simp only [Inst.regReadEffect, Inst.dataReadEffect]
    split
    · exact hcleared.clearFlag .ore
    · exact hcleared
  | _ => exact h

theorem Inst.ReservedZero.receive {x : Inst} (h : x.ReservedZero) (b : Byte) :
    (x.receive b).ReservedZero := by
  unfold Inst.receive
  split
  · exact h.raiseFlag .ore
  · exact Inst.ReservedZero.raiseFlag (x := { x with rdr := b }) { h with } .rxne

theorem Inst.ReservedZero.receivePerr {x : Inst} (h : x.ReservedZero) (d : Bool) (b : Byte) :
    (x.receivePerr d b).ReservedZero := by
  unfold Inst.receivePerr
  split
  · split
    · exact (h.raiseFlag .ore).raiseFlag .pe
    · exact h.raiseFlag .ore
  · exact (Inst.ReservedZero.raiseFlag (x := { x with rdr := b }) { h with } .rxne).raiseFlag .pe

/-- Registers change by flags raised and cleared, by masked writes and by SBK cleared. -/
theorem Inst.ReservedZero.change {cfg : Config} {x y : Inst} (hc : Inst.Change cfg x y)
    (h : x.ReservedZero) : y.ReservedZero := by
  cases hc with
  | ringW a w => cases a <;> exact { h with }
  | ringR a r => cases a <;> exact { h with }
  | cell a n b hn => cases a <;> exact { h with }
  | write r v => exact h.regWrite r v
  | read r => exact h.regReadEffect cfg r
  | clearError f => exact h.clearFlag _
  | receive b => exact h.receive b
  | receivePerr d b => exact h.receivePerr d b
  | raise f hf => exact h.raiseFlag f
  | breakSent => exact { h with ctrl := h.ctrl.clearBit _ }
  | callback | vector | clock | pinPair => exact { h with }
  | refl => exact h

/-- Settles O52: every change of a peripheral keeps its reserved bits 0, and a step makes no other. -/
theorem stepKeepsReservedBitsZero : Obligations.StepKeepsReservedBitsZero := by
  intro s t hs h
  rw [State.reservedZero_iff] at hs ⊢
  exact step_forall h (fun _ _ hc => Inst.ReservedZero.change hc) (fun _ _ hx => { hx with }) hs

end Sys2Proof.Machine
end

section
/-! FG.pc advances only at the end of an operation (10_state.md R16). -/

namespace Sys2Proof.Machine

/-- FG's micro-step leaves FG.pc, or adds one to it and stands at an operation's start. -/
theorem fgStep_pc {s t : State} (h : fgStep s = .next t) :
    t.fg.pc = s.fg.pc ∨ (t.fg.pc = s.fg.pc + 1 ∧ t.fg.loc = .start) := by
  have hexec : ∀ op : Instr, op.agent = .foreground → exec op s = .next t →
      t.fg.pc = s.fg.pc ∨ (t.fg.pc = s.fg.pc + 1 ∧ t.fg.loc = .start) := by
    intro op ha he
    rcases exec_foreground_cases ha he with ⟨f, g, m, tr, rfl, -, hg⟩ | ⟨r, rfl⟩
    · exact hg.imp_left And.left
    · exact .inl rfl
  rcases fgStep_cases h with ⟨op, l, -, ha, he⟩ | ⟨-, d, op, -, -, ha, he⟩ | ⟨-, rfl⟩
  · exact hexec op ha he
  · exact hexec op ha he
  · exact .inl rfl

/-- No dispatcher micro-step touches FG.pc or FG.loc, user handlers included. -/
theorem dispStepAt_pc_loc {i : InstId} {l : DLoc} {s t : State} (h : dispStepAt i l s = .next t) :
    t.fg.pc = s.fg.pc ∧ t.fg.loc = s.fg.loc := by
  rcases dispStepAt_cases h with ⟨f, l', rfl, -, -⟩ | ⟨k, arg, -, -, hi⟩ | rfl | ⟨-, rfl⟩
  · exact ⟨rfl, rfl⟩
  · rcases State.invoke_cases hi with ⟨v, -, hv, rfl⟩ | ⟨-, -, rfl⟩ | ⟨-, -, rfl⟩
    · have ho := State.runHandler_outside hv
      simp only [State.outsideHandlers, Prod.mk.injEq] at ho
      obtain ⟨-, -, hpc, hloc, -⟩ := ho
      exact ⟨hpc, hloc⟩
    · exact ⟨rfl, rfl⟩
    · exact ⟨rfl, rfl⟩
  · exact ⟨rfl, rfl⟩
  · exact ⟨rfl, rfl⟩

/-- FG may step only before the end of the program. -/
theorem State.pc_lt_of_fgMay {s : State} (h : s.fgMay = true) : s.fg.pc < s.prog.length := by
  simp only [State.fgMay, State.finished, Bool.and_eq_true, Bool.not_eq_true',
    decide_eq_false_iff_not, not_le] at h
  obtain ⟨⟨-, hpc⟩, -⟩ := h
  exact hpc

/-- Settles O47: only FG's own micro-step moves FG.pc, and FG may step only below the length of `P`. -/
theorem programCounterNeverDecreases : Obligations.ProgramCounterNeverDecreases := by
  intro s t h
  obtain ⟨m, l, d, b, u, -, rfl, -, hm⟩ := step_moves h
  rw [State.settle_fg]
  rcases hm with ⟨-, hmay, hu⟩ | ⟨i, -, -, rfl⟩ | ⟨-, -, i, k, -, -, hu⟩ | ⟨e, op, -, -, ha, he⟩
  · exact (fgStep_pc hu).imp_right fun ⟨hpc, hloc⟩ => ⟨hpc, hloc, State.pc_lt_of_fgMay hmay⟩
  · exact .inl rfl
  · exact .inl (dispStepAt_pc_loc hu).1
  · obtain ⟨-, f, tr, rfl, -⟩ := exec_line_cases ha he
    exact .inl rfl

end Sys2Proof.Machine
end

section
/-! A scheduled step is the micro-step it names (20_memory.md R50, 46_line.md R119, 60_exceptions.md R134). -/

namespace Sys2Proof.Machine

theorem step_of_sched {s : State} {m : Move} {rest : List Move} (h : s.sched = m :: rest) :
    step s = runMove m { s with sched := rest } := by simp [step, machineStep, State.choose, h]

theorem State.guarded_of_may {s : State} {may : Bool} (hf : s.fault = none) (hm : may = true)
    (r : Result) : s.guarded may r = r := by simp [State.guarded, hf, hm]

theorem State.fault_of_fgMay {s : State} (h : s.fgMay = true) : s.fault = none := by
  simp only [State.fgMay, Bool.and_eq_true, Option.isNone_iff_eq_none] at h
  obtain ⟨⟨⟨-, hfault⟩, -⟩, -⟩ := h
  exact hfault

theorem fgStep_of_operation {s : State} {op : Instr} (h : s.operation = some op)
    (ha : op.agent = .foreground) : fgStep s = exec op s := by
  rcases hl : s.fg.loc with _ | ⟨o, l⟩
  · rcases hd : s.prog[s.fg.pc]? with _ | d
    · simp only [State.operation, hl, hd, reduceCtorEq] at h
    · rcases hop : decode d with e | o
      · simp only [State.operation, hl, hd, hop, reduceCtorEq] at h
      · simp only [State.operation, hl, hd, hop, Option.some.injEq] at h
        subst h
        simp only [fgStep, hl, hd, hop, if_pos ha]
  · simp only [State.operation, hl, Option.some.injEq] at h
    subst h
    simp only [fgStep, hl, if_pos ha]

theorem lineStep_of_decode {s : State} {d : Descriptor} {op : Instr} (hd : decode d = .ok op)
    (ha : op.agent = .line) (hf : s.fault = none) : lineStep d s = exec op s := by
  simp [lineStep, hd, ha, hf]

theorem dispStep_of_active {s : State} {i : InstId} {l : DLoc} (hi : s.active = some i)
    (hl : s.dloc = some l) : dispStep s = dispStepAt i l s := by simp [dispStep, hi, hl]

/-- Settles O5: the schedule names the move, its guard holds, and what the micro-step answers goes through
`State.after`. -/
theorem stepRunsTheDecodedInstruction : Obligations.StepRunsTheDecodedInstruction := by
  intro s t rest i u
  refine ⟨fun hs hmay hop ha => ?_, fun d hs hd ha hf => ?_, fun j l hs hj hl hh hf => ?_⟩
  · have hstep : step s = u.after true (exec i u) := by
      rw [step_of_sched hs, ← fgStep_of_operation (s := u) hop ha]
      exact State.guarded_of_may (State.fault_of_fgMay hmay) hmay _
    rw [hstep]
    exact ⟨fun he => by rw [he]; rfl, fun f he => by rw [he]; rfl, fun q he => by rw [he]; rfl⟩
  · have hstep : step s = u.after false (exec i u) := by
      rw [step_of_sched hs, ← lineStep_of_decode (s := u) hd ha hf]
      rfl
    rw [hstep]
    exact ⟨fun he => by rw [he]; rfl, fun q he => by rw [he]; rfl⟩
  · have hmay : u.dispMay = true := by simp [u, State.dispMay, hj, hh, hf]
    have hstep : step s = u.after false (dispStepAt j l u) := by
      rw [step_of_sched hs, ← dispStep_of_active (s := u) hj hl]
      exact State.guarded_of_may (s := u) hf hmay _
    rw [hstep]
    exact ⟨fun he => by rw [he]; rfl, fun f he => by rw [he]; rfl⟩

end Sys2Proof.Machine
end

section
/-! An index out of range faults (10_state.md R20, 60_exceptions.md R138). -/

namespace Sys2Proof.Machine

/-- Settles O14: each of the six addressing steps is a `pushCell` or a `popCell`, whose range check fails. -/
theorem outOfRangeIndexFaults : Obligations.OutOfRangeIndexFaults := by
  intro s i n o bad
  have hpush : ∀ {x} (b : Byte) (k : State → Result), 2 ^ (s.ring i x).logC.val ≤ n.toNat →
      s.pushCell i x n b k = bad :=
    fun b k hn => State.pushCell_of_ge (Ring.cap_le_iff.2 hn) b k
  have hpop : ∀ {x} (k : Byte → Result), 2 ^ (s.ring i x).logC.val ≤ n.toNat →
      s.popCell i x n k = bad :=
    fun k hn => State.popCell_of_ge (Ring.cap_le_iff.2 hn) k
  refine ⟨fun x b hl hn => ?_, fun x hl hn => ?_, fun a len j b hl hn => ?_,
    fun a len j hl hn => ?_, fun b hn => ?_, fun hn => ?_⟩
  · simp only [exec, execRbPush, hl]
    exact hpush b _ hn
  · simp only [exec, execRbPop, hl]
    exact hpop _ hn
  · simp only [exec, execSendAsync, hl]
    exact hpush b _ hn
  · simp only [exec, execRecvAsync, hl]
    exact hpop _ hn
  · simp only [dispStepAt]
    exact hpush b _ hn
  · simp only [dispStepAt]
    exact hpop _ hn

end Sys2Proof.Machine
end

section
/-! Ring indices stay at or below the capacity, and the index of an advance in progress below it (10_state.md R20,
41_ring_buffer.md R80, R81). -/

namespace Sys2Proof.Machine

/-- Both indices of a ring are at most its capacity. -/
def Ring.Bounded (q : Ring) : Prop := q.w ≤ q.cap ∧ q.r ≤ q.cap

/-- The increment of an index below the capacity stays at most the capacity. -/
theorem Ring.succ_le_cap {q : Ring} {n : Word} (h : n < q.cap) : n + 1#32 ≤ q.cap := by
  rw [BitVec.le_def, Ring.succ_toNat h]
  exact h

theorem State.indicesBounded_iff (s : State) :
    s.IndicesBounded ↔ ∀ x ∈ s.insts, ∀ a, (x.ring a).Bounded :=
  forall₂_congr fun _ _ => ⟨fun h a => by cases a; exacts [h.1, h.2], fun h => ⟨h .rx, h .tx⟩⟩

theorem State.IndicesBounded.ring {s : State} (h : s.IndicesBounded) (i : InstId) (a : RingSel) :
    (s.ring i a).Bounded := by
  unfold State.ring State.inst
  by_cases hi : i.val < s.insts.length
  · rw [List.getD_eq_getElem _ _ hi]
    exact (State.indicesBounded_iff s).1 h _ (List.getElem_mem hi) a
  · rw [List.getD_eq_default _ _ (Nat.le_of_not_lt hi)]
    unfold Ring.Bounded
    cases a <;> decide

/-- An update of one peripheral keeps all indices bounded if it keeps those of that peripheral so. -/
theorem State.IndicesBounded.of_modInst {s t : State} {i : InstId} {f : Inst → Inst}
    (h : s.IndicesBounded) (ht : t.insts = (s.modInst i f).insts)
    (hb : ∀ a, (t.ring i a).Bounded) : t.IndicesBounded := by
  rw [State.indicesBounded_iff] at h ⊢
  intro x hx a
  obtain ⟨n, hn, rfl⟩ := List.getElem_of_mem hx
  by_cases hi : i.val = n
  · subst hi
    have hring := hb a
    unfold State.ring State.inst at hring
    rwa [List.getD_eq_getElem _ _ hn] at hring
  · have hlen : n < s.insts.length := by simpa [ht] using hn
    have hsame : t.insts[n] = s.insts[n] := by simp [ht, hi]
    rw [hsame]
    exact h _ (List.getElem_mem hlen) a

/-- A property of one peripheral that does not depend on its pending latch is kept by what follows a micro-step. -/
theorem State.settle_forall {P : Inst → Prop} {t : State} (hp : ∀ x p, P x → P { x with pend := p })
    (h : ∀ x ∈ t.insts, P x) (b : Bool) (s : State) : ∀ x ∈ (s.settle b t).insts, P x := by
  rw [State.settle_insts]
  split
  · exact h
  · intro x hx
    obtain ⟨n, hn, rfl⟩ := List.mem_mapIdx.1 hx
    obtain ⟨p, he⟩ := Inst.latch_eq t.cfg ((s.insts.getD n Inst.absent).line s.cfg)
      (decide (t.active.map Fin.val = some n)) t.insts[n]
    rw [he]
    exact hp _ p (h _ (List.getElem_mem hn))

/-! The rings after an update of one ring -/

theorem State.ring_modRing_cases (s : State) (i j : InstId) (x a : RingSel) (f : Ring → Ring) :
    (s.modRing i x f).ring j a = s.ring j a ∨
    (j = i ∧ a = x ∧ (s.modRing i x f).ring j a = f (s.ring j a)) := by
  unfold State.ring State.modRing
  rcases s.inst_modInst_cases i j (fun y => y.setRing x (f (y.ring x))) with h | ⟨hj, h⟩
  · exact .inl (by rw [h])
  · rw [h]
    by_cases ha : a = x
    · subst ha
      exact .inr ⟨hj, rfl, Inst.ring_setRing_self ..⟩
    · exact .inl (Inst.ring_setRing_of_ne _ ha _)

section
variable (s : State) (i j : InstId) (x a : RingSel)

theorem State.cap_modRing {f : Ring → Ring} (hf : ∀ q, (f q).logC = q.logC) :
    ((s.modRing i x f).ring j a).cap = (s.ring j a).cap := by
  rcases s.ring_modRing_cases i j x a f with h | ⟨-, -, h⟩ <;> simp [h, Ring.cap, hf]

@[simp] theorem State.cap_setCell (n : Word) (b : Byte) :
    ((s.setCell i x n b).ring j a).cap = (s.ring j a).cap := s.cap_modRing i j x a fun _ => rfl

@[simp] theorem State.cap_setRingW (w : Word) :
    ((s.setRingW i x w).ring j a).cap = (s.ring j a).cap := s.cap_modRing i j x a fun _ => rfl

@[simp] theorem State.cap_setRingR (r : Word) :
    ((s.setRingR i x r).ring j a).cap = (s.ring j a).cap := s.cap_modRing i j x a fun _ => rfl

@[simp] theorem State.cap_pushIncrement (w : Word) :
    ((s.pushIncrement i x w).ring j a).cap = (s.ring j a).cap := s.cap_setRingW i j x a _

@[simp] theorem State.cap_popIncrement (r : Word) :
    ((s.popIncrement i x r).ring j a).cap = (s.ring j a).cap := s.cap_setRingR i j x a _

@[simp] theorem State.setCell_active (n : Word) (b : Byte) :
    (s.setCell i x n b).active = s.active := rfl

@[simp] theorem State.pushIncrement_active (w : Word) :
    (s.pushIncrement i x w).active = s.active := rfl

@[simp] theorem State.popIncrement_active (r : Word) :
    (s.popIncrement i x r).active = s.active := rfl

end

section
variable {s : State} {i j : InstId} {x a : RingSel}

theorem State.bounded_setCell (hb : (s.ring j a).Bounded) (n : Word) (b : Byte) :
    ((s.setCell i x n b).ring j a).Bounded := by
  unfold State.setCell
  rcases s.ring_modRing_cases i j x a _ with h | ⟨-, -, h⟩ <;> rw [h] <;> exact hb

theorem State.bounded_setRingW (hb : (s.ring j a).Bounded) {w : Word}
    (hw : w ≤ (s.ring i x).cap) : ((s.setRingW i x w).ring j a).Bounded := by
  unfold State.setRingW
  rcases s.ring_modRing_cases i j x a _ with h | ⟨hj, ha, h⟩ <;> rw [h]
  · exact hb
  · subst hj ha
    exact ⟨hw, hb.2⟩

theorem State.bounded_setRingR (hb : (s.ring j a).Bounded) {r : Word}
    (hr : r ≤ (s.ring i x).cap) : ((s.setRingR i x r).ring j a).Bounded := by
  unfold State.setRingR
  rcases s.ring_modRing_cases i j x a _ with h | ⟨hj, ha, h⟩ <;> rw [h]
  · exact hb
  · subst hj ha
    exact ⟨hb.1, hr⟩

theorem State.bounded_pushIncrement (hb : (s.ring j a).Bounded) {w : Word}
    (hw : w < (s.ring i x).cap) : ((s.pushIncrement i x w).ring j a).Bounded :=
  State.bounded_setRingW hb (Ring.succ_le_cap hw)

theorem State.bounded_pushMask (hb : (s.ring j a).Bounded) (w : Word) :
    ((s.pushMask i x w).ring j a).Bounded :=
  State.bounded_setRingW hb (BitVec.le_of_lt (Ring.wrap_lt_cap _ w))

theorem State.bounded_popIncrement (hb : (s.ring j a).Bounded) {r : Word}
    (hr : r < (s.ring i x).cap) : ((s.popIncrement i x r).ring j a).Bounded :=
  State.bounded_setRingR hb (Ring.succ_le_cap hr)

theorem State.bounded_popMask (hb : (s.ring j a).Bounded) (r : Word) :
    ((s.popMask i x r).ring j a).Bounded :=
  State.bounded_setRingR hb (BitVec.le_of_lt (Ring.wrap_lt_cap _ r))

end

/-! The checked indices of the two agents -/

/-- FG's checked index depends on FG's label and the capacities alone. -/
theorem State.FgIndexChecked.congr {s t : State} (h : s.FgIndexChecked) (hl : t.fg.loc = s.fg.loc)
    (hcap : ∀ i a, (t.ring i a).cap = (s.ring i a).cap) : t.FgIndexChecked := by
  unfold State.FgIndexChecked at *
  rw [hl]
  simpa only [hcap] using h

/-- The dispatcher's checked index depends on where it stands and the capacities alone. -/
theorem State.DispIndexChecked.congr {s t : State} (h : s.DispIndexChecked)
    (ha : t.active = s.active) (hl : t.dloc = s.dloc)
    (hcap : ∀ i a, (t.ring i a).cap = (s.ring i a).cap) : t.DispIndexChecked := by
  unfold State.DispIndexChecked at *
  rw [ha, hl]
  simpa only [hcap] using h

/-- No index is in progress at an operation's start or in an operation that uses no ring. -/
theorem State.fgIndexChecked_of_not_usesRing {t : State} {op : Instr}
    (hu : usesRing op = false) (hl : t.fg.loc = .start ∨ ∃ l, t.fg.loc = .busy op l) :
    t.FgIndexChecked := by
  unfold State.FgIndexChecked
  rcases hl with hl | ⟨l, hl⟩ <;> rw [hl]
  · trivial
  · cases op <;> first | (cases hu; done) | trivial


/-- FG's micro-step on the rings of peripheral `i` leaves them bounded and its own index checked. -/
def State.FgIndicesKept (i : InstId) (t : State) : Prop :=
  (∀ a, (t.ring i a).Bounded) ∧ t.FgIndexChecked

/-- The same for the dispatcher of peripheral `i`. -/
def State.DispIndicesKept (i : InstId) (t : State) : Prop :=
  (∀ a, (t.ring i a).Bounded) ∧ t.DispIndexChecked

section
variable {s : State} {i : InstId} (hb : ∀ a, (s.ring i a).Bounded)

section
variable (hc : s.FgIndexChecked)
include hb hc

/-- U2 checks the index that U3 increments and U4 masks. -/
theorem execRbPush_indices {x : RingSel} {b : Byte}
    (hat : ∀ o l, s.fg.loc = .busy o l → o = .rbPush i x b) :
    Ensures (execRbPush i x b s) (State.FgIndicesKept i) := by
  rcases hl : s.fg.loc with _ | ⟨o, l⟩
  · simp [execRbPush, State.FgIndicesKept, State.FgIndexChecked, hl, hb]
  · obtain rfl := hat o l hl
    unfold State.FgIndexChecked at hc
    cases l <;> simp only [execRbPush, hl, ensures_refused] at hc ⊢
    case u2 w =>
      simp [State.FgIndicesKept, State.FgIndexChecked, hl, hb, State.bounded_setCell]
    case u3 w =>
      simp [State.FgIndicesKept, State.FgIndexChecked, hb, hc, State.bounded_pushIncrement]
    case u4 w =>
      simp [State.FgIndicesKept, State.FgIndexChecked, hb, State.bounded_pushMask]

/-- V2 checks the index that V3 increments and V4 masks. -/
theorem execRbPop_indices {x : RingSel} (hat : ∀ o l, s.fg.loc = .busy o l → o = .rbPop i x) :
    Ensures (execRbPop i x s) (State.FgIndicesKept i) := by
  rcases hl : s.fg.loc with _ | ⟨o, l⟩
  · simp [execRbPop, State.FgIndicesKept, State.FgIndexChecked, hl, hb]
  · obtain rfl := hat o l hl
    unfold State.FgIndexChecked at hc
    cases l <;> simp only [execRbPop, hl, ensures_refused] at hc ⊢
    case v2 r => simp [State.FgIndicesKept, State.FgIndexChecked, hl, hb]
    case v3 r b =>
      simp [State.FgIndicesKept, State.FgIndexChecked, hb, hc, State.bounded_popIncrement]
    case v4 r b =>
      simp [State.FgIndicesKept, State.FgIndexChecked, hb, State.bounded_popMask]

/-- A5 checks the index that A6 increments and A7 masks; no other step of SEND_ASYNC changes a ring. -/
theorem execSendAsync_indices {a n : Word}
    (hat : ∀ o l, s.fg.loc = .busy o l → o = .sendAsync i a n) :
    Ensures (execSendAsync i a n s) (State.FgIndicesKept i) := by
  rcases hl : s.fg.loc with _ | ⟨o, l⟩
  · simp [execSendAsync, State.FgIndicesKept, State.FgIndexChecked, hl, hb]
  · obtain rfl := hat o l hl
    unfold State.FgIndexChecked at hc
    cases l <;> simp only [execSendAsync, hl, ensures_refused] at hc ⊢
    case a3 | a4 | a8 | a9 =>
      simp [State.FgIndicesKept, State.FgIndexChecked, hb, State.regWrite]
    case a2 v =>
      rw [ensures_next]
      split <;> simp [State.FgIndicesKept, State.FgIndexChecked, hb, State.regWrite]
    case a5 j b w =>
      simp [State.FgIndicesKept, State.FgIndexChecked, hl, hb, State.bounded_setCell]
    case a6 j w =>
      simp [State.FgIndicesKept, State.FgIndexChecked, hb, hc, State.bounded_pushIncrement]
    case a7 j w =>
      rw [ensures_next]
      split <;> simp [State.FgIndicesKept, State.FgIndexChecked, hb, State.bounded_pushMask]

/-- G2 checks the index that G3 increments and G4 masks; no other step of RECV_ASYNC changes a ring. -/
theorem execRecvAsync_indices {a n : Word}
    (hat : ∀ o l, s.fg.loc = .busy o l → o = .recvAsync i a n) :
    Ensures (execRecvAsync i a n s) (State.FgIndicesKept i) := by
  rcases hl : s.fg.loc with _ | ⟨o, l⟩
  · simp [execRecvAsync, State.FgIndicesKept, State.FgIndexChecked, hl, hb]
  · obtain rfl := hat o l hl
    unfold State.FgIndexChecked at hc
    cases l <;> simp only [execRecvAsync, hl, ensures_refused] at hc ⊢
    case g1 | g5 => simp [State.FgIndicesKept, State.FgIndexChecked, hb]
    case g2 j r => simp [State.FgIndicesKept, State.FgIndexChecked, hl, hb]
    case g3 j r b =>
      simp [State.FgIndicesKept, State.FgIndexChecked, hb, hc, State.bounded_popIncrement]
    case g4 j r b =>
      simp [State.FgIndicesKept, State.FgIndexChecked, hb, State.bounded_popMask]

end

include hb in
/-- RB3 and TR2 check the indices that RB4 and TR3 increment and RB5 and TR4 mask. -/
theorem dispStepAt_indices {l : DLoc} (hc : s.DispIndexChecked) (ha : s.active = some i)
    (hl : s.dloc = some l) (h0 : ∀ k, l.invokes = some k → (s.inst i).cb.get k = 0#32) :
    Ensures (dispStepAt i l s) (State.DispIndicesKept i) := by
  have hidx := hc
  unfold State.DispIndexChecked at hidx
  cases l <;> simp only [dispStepAt, State.classify, ha, hl] at hidx ⊢
  case c0 | c1 | c2 | c3 | c4 | tr1 | tr6 =>
    rw [ensures_next]
    split <;> simp [State.DispIndicesKept, State.DispIndexChecked, ha, hb]
  case ov1 | bk1 | pa2 | rb6 | tr9 =>
    simp [ensures_invoke_default (h0 _ rfl), State.DispIndicesKept, State.DispIndexChecked, ha, hl, hb]
  case c5 | pa1 | rb1 | rb2 | tr5 | tr7 | tr8 | x1 =>
    simp [State.DispIndicesKept, State.DispIndexChecked, hb, State.regReadEffect, State.regWrite]
  case rb3 b w =>
    rw [ensures_pushCell]
    refine ⟨fun hw => ?_, fun _ => ⟨hb, hc⟩⟩
    simp [State.DispIndicesKept, State.DispIndexChecked, ha, hb, hw, State.bounded_setCell]
  case rb4 b w =>
    simp [State.DispIndicesKept, State.DispIndexChecked, ha, hb, hidx, State.bounded_pushIncrement]
  case rb5 b w =>
    simp [State.DispIndicesKept, State.DispIndexChecked, hb, State.bounded_pushMask]
  case tr2 r =>
    rw [ensures_popCell]
    refine ⟨fun hr => ?_, fun _ => ⟨hb, hc⟩⟩
    simp [State.DispIndicesKept, State.DispIndexChecked, ha, hb, hr]
  case tr3 r b =>
    simp [State.DispIndicesKept, State.DispIndexChecked, ha, hb, hidx, State.bounded_popIncrement]
  case tr4 r b =>
    simp [State.DispIndicesKept, State.DispIndexChecked, hb, State.bounded_popMask]

end

/-- FG's micro-step keeps the rings of its operation's peripheral bounded and its own index checked: an operation
that uses no ring leaves the rings alone and holds no index. -/
theorem exec_foreground_indices {op : Instr} {s : State} (ha : op.agent = .foreground)
    (hat : ∀ o l, s.fg.loc = .busy o l → o = op) (hb : ∀ i a, (s.ring i a).Bounded)
    (hc : s.FgIndexChecked) : Ensures (exec op s) (State.FgIndicesKept op.inst) := by
  by_cases hu : usesRing op = true
  · cases op <;> first | (cases hu; done) | skip
    case rbPush => exact execRbPush_indices (hb _) hc hat
    case rbPop => exact execRbPop_indices (hb _) hc hat
    case sendAsync => exact execSendAsync_indices (hb _) hc hat
    case recvAsync => exact execRecvAsync_indices (hb _) hc hat
  · intro t he
    obtain ⟨-, -, -, -, -, -, hring⟩ := exec_writes op s t he
    refine ⟨fun a => by rw [hring.resolve_left hu]; exact hb _ a, ?_⟩
    rcases exec_foreground_cases ha he with ⟨f, g, m, tr, rfl, -, hg⟩ | ⟨r, rfl⟩
    · exact State.fgIndexChecked_of_not_usesRing (by simpa using hu)
        (hg.symm.imp And.right And.right)
    · exact hc

/-- No change of a peripheral changes a capacity. -/
theorem Inst.Changes.logC {cfg : Config} {x y : Inst} (h : Inst.Changes cfg x y) :
    y.rx.logC = x.rx.logC ∧ y.tx.logC = x.tx.logC := by
  induction h with
  | refl => exact ⟨rfl, rfl⟩
  | tail _ hxy ih =>
    rcases hxy with hxy | ⟨p, rfl⟩
    · obtain ⟨-, -, hrx, htx⟩ := hxy.fixed
      exact ⟨hrx.trans ih.1, htx.trans ih.2⟩
    · exact ih

/-- No step changes a capacity, user handlers included. -/
theorem step_cap {s t : State} (h : step s = .next t) (i : InstId) (a : RingSel) :
    (t.ring i a).cap = (s.ring i a).cap := by
  obtain ⟨hrx, htx⟩ := Inst.Changes.logC ((step_change h).inst i)
  cases a
  · exact congrArg (1#32 <<< ·.val) hrx
  · exact congrArg (1#32 <<< ·.val) htx

/-- The ring indices are bounded and those of both agents' advances checked. -/
structure State.IndexInvariant (s : State) : Prop where
  bounded : s.IndicesBounded
  fg : s.FgIndexChecked
  disp : s.DispIndexChecked

section
variable {s u : State} (hs : s.IndexInvariant)
  (hcap : ∀ i a, (u.ring i a).cap = (s.ring i a).cap)
include hs

theorem State.IndexInvariant.settle (b : Bool) (p : State) : (p.settle b s).IndexInvariant where
  bounded := State.settle_forall (fun _ _ hx => hx) hs.bounded b p
  fg := hs.fg.congr (by simp) (by simp)
  disp := hs.disp.congr (by simp) (by simp) (by simp)

include hcap

theorem fgStep_indexInvariant (h : fgStep s = .next u) : u.IndexInvariant := by
  rcases fgStep_operation h with ⟨op, hop, ha, he⟩ | rfl
  · have hat : ∀ o l, s.fg.loc = .busy o l → o = op := fun o l hl =>
      Option.some.inj ((State.operation_busy hl).symm.trans hop)
    obtain ⟨hb, hf⟩ := exec_foreground_indices ha hat hs.bounded.ring hs.fg u he
    rcases exec_foreground_cases ha he with ⟨f, g, m, tr, rfl, -, -⟩ | ⟨r, rfl⟩
    · exact ⟨hs.bounded.of_modInst rfl hb, hf, hs.disp.congr rfl rfl hcap⟩
    · exact ⟨hs.bounded, hs.fg, hs.disp⟩
  · exact ⟨hs.bounded, hs.fg, hs.disp⟩

theorem dispStepAt_indexInvariant {i : InstId} {l : DLoc} (hr : s.runsHandler = false)
    (hi : s.active = some i) (hl : s.dloc = some l) (h : dispStepAt i l s = .next u) :
    u.IndexInvariant := by
  obtain ⟨hfg, -, -, -, -, -, f, hinsts, -⟩ := dispStepAt_plain hr hi hl h
  obtain ⟨hb, hd⟩ := dispStepAt_indices (hs.bounded.ring i) hs.disp hi hl
    (fun _ hk => State.default_of_runsHandler hr hi hl hk) u h
  exact ⟨hs.bounded.of_modInst hinsts hb, hs.fg.congr (by rw [hfg]) hcap, hd⟩

theorem exec_line_indexInvariant {op : Instr} (ha : op.agent = .line) (h : exec op s = .next u) :
    u.IndexInvariant := by
  obtain ⟨-, -, -, -, -, -, hring⟩ := exec_writes op s u h
  have hu : ¬ usesRing op = true := fun hu => by
    rw [agent_of_usesRing hu] at ha
    cases ha
  obtain ⟨-, f, tr, rfl, -⟩ := exec_line_cases ha h
  exact ⟨hs.bounded.of_modInst rfl fun a => by rw [hring.resolve_left hu]; exact hs.bounded.ring _ a,
    hs.fg.congr rfl hcap, hs.disp.congr rfl rfl hcap⟩

end

theorem State.IndexInvariant.enter {s : State} (hs : s.IndexInvariant) (i : InstId) :
    (s.enter i).IndexInvariant := by
  have hring : ∀ j a, (s.enter i).ring j a = s.ring j a := fun j a =>
    s.ring_modInst i j a (f := fun x => { x with pend := false }) (fun _ => rfl) (fun _ => rfl)
  exact ⟨hs.bounded.of_modInst (i := i) rfl fun a => by rw [hring]; exact hs.bounded.ring i a,
    hs.fg.congr rfl fun j a => by rw [hring], by simp [State.DispIndexChecked]⟩

/-- Settles O54: each agent's micro-step keeps the rings it works on bounded and its own index checked, and the
other agent's checked index stays so, since no step changes a capacity. -/
theorem stepKeepsRingIndicesBounded : Obligations.StepKeepsRingIndicesBounded := by
  intro s t hr hb hf hd h
  have hcap := step_cap h
  obtain ⟨m, l, d, b, u, -, rfl, -, hm⟩ := step_moves h
  have hs : State.IndexInvariant { s with sched := l, draws := d } := ⟨hb, hf, hd⟩
  simp only [State.settle_ring] at hcap
  have hu : u.IndexInvariant := by
    rcases hm with ⟨-, -, hu⟩ | ⟨i, -, -, rfl⟩ | ⟨-, -, i, k, hi, hk, hu⟩ | ⟨e, op, -, -, ha, he⟩
    · exact fgStep_indexInvariant hs hcap hu
    · exact hs.enter i
    · exact dispStepAt_indexInvariant hs hcap hr hi hk hu
    · exact exec_line_indexInvariant hs hcap ha he
  obtain ⟨hb', hf', hd'⟩ := hu.settle b { s with sched := l, draws := d }
  exact ⟨hb', hf', hd'⟩

end Sys2Proof.Machine
end

section
/-! Who stores to memory: the two receives, one byte at the computed address (20_memory.md R41 to R43). -/

namespace Sys2Proof.Machine

/-- A byte that a store changes is the byte stored. -/
theorem Memory.eq_of_read_write_ne {m : Memory} {x y : Nat} {v : Byte}
    (h : (m.write x v).read y ≠ m.read y) : y = x :=
  Decidable.byContradiction fun hne => h (Memory.read_write_ne m v hne)

/-- FG is at the store of a receive (42_blocking.md R89, 43_async.md R92), of its buffer's byte at `c`. -/
def State.StoresAt (s : State) (c : Nat) : Prop :=
  (∃ i a n j b, s.fg.loc = .busy (.recvBlocking i a n) (.m3 j b) ∧
    c = (bufAddr a j).toNat ∧ memOk s.cfg (bufAddr a j) = true) ∨
  (∃ i a n j b, s.fg.loc = .busy (.recvAsync i a n) (.g5 j b) ∧
    c = (bufAddr a j).toNat ∧ memOk s.cfg (bufAddr a j) = true)

/-- Memory goes from `s` to `t` unchanged or by the store FG is at in `s`. -/
def State.StoresOnly (s t : State) : Prop :=
  t.mem = s.mem ∨ ∃ x b, s.StoresAt x ∧ t.mem = Memory.write s.mem x b

/-- The store FG is at is of the byte that changed. -/
theorem State.StoresOnly.storesAt {s t : State} (h : s.StoresOnly t) {c : Nat}
    (hne : Memory.read t.mem c ≠ Memory.read s.mem c) : s.StoresAt c := by
  rcases h with hm | ⟨x, b, hx, hm⟩ <;> rw [hm] at hne
  · exact absurd rfl hne
  · rwa [Memory.eq_of_read_write_ne hne]

theorem State.StoresOnly.settle {s t : State} (h : s.StoresOnly t) (b : Bool) (u : State) :
    s.StoresOnly (u.settle b t) := by simpa [State.StoresOnly] using h

/-- The store FG is at, where what follows it leaves memory alone. -/
theorem ensures_memWrite_storesOnly {s : State} {x : Word} {b : Byte} {k : State → Result}
    (hat : memOk s.cfg x = true → s.StoresAt x.toNat)
    (hk : ∀ t, Ensures (k t) (fun u => u.mem = t.mem)) : Ensures (s.memWrite x b k) s.StoresOnly := by
  rw [ensures_memWrite]
  exact fun hok u hu => .inr ⟨_, b, hat hok, hk _ u hu⟩

/-- The operations that store to memory (20_memory.md R41). -/
def receives : Instr → Bool
  | .recvBlocking _ _ _ => true
  | .recvAsync _ _ _ => true
  | _ => false

theorem not_receives_of_line {op : Instr} (ha : op.agent = .line) : receives op = false := by
  cases op <;> first | rfl | cases ha

/-- No other operation changes memory, the line stimuli included. -/
theorem exec_mem_of_not_receives {op : Instr} (s : State) (hr : receives op = false) :
    Ensures (exec op s) (fun t => t.mem = s.mem) := by
  cases op
  case recvBlocking | recvAsync => cases hr
  case rbPush | rbPop | sendAsync =>
    simp only [exec, execRbPush, execRbPop, execSendAsync]
    split <;> simp [State.pushIncrement, State.pushMask, State.popIncrement, State.popMask,
      State.setRingW, State.setRingR, State.setCell, State.modRing, State.regWrite]
  case enableClock | selectPins | setBaud | enableDirection | enable | disable =>
    simp only [exec, execEnableClock, execSelectPins, execSetBaud, execEnableDirection, execEnable,
      execDisable]
    split <;> simp [State.regWrite]
  case enableCallback | disableCallback | setCallback =>
    simp only [exec, execEnableCallback, execDisableCallback, execSetCallback]
    split <;> simp [State.regWrite, State.enableVector_frame]
  case sendBlocking | sendBreak =>
    simp only [exec, execSendBlocking, execSendBreak]
    split <;> simp [State.regWrite]
  case lineRxByte | lineRxBytePerr | lineBreakDetect | lineTxShift | lineTxIdle | lineBreakSent =>
    simp [exec, execLineRxByte, execLineRxBytePerr, execLineBreakDetect, execLineTxShift,
      execLineTxIdle, execLineBreakSent]

section
variable {s : State} {i : InstId} {a n : Word}

/-- RECV_BLOCKING stores at M3 only. -/
theorem execRecvBlocking_storesOnly (hat : ∀ o l, s.fg.loc = .busy o l → o = .recvBlocking i a n) :
    Ensures (execRecvBlocking i a n s) s.StoresOnly := by
  rcases hl : s.fg.loc with _ | ⟨o, l⟩
  · simp [execRecvBlocking, hl, State.StoresOnly]
  · obtain rfl := hat o l hl
    cases l <;> simp only [execRecvBlocking, hl, ensures_refused]
    case m1 | m2 => simp [State.StoresOnly, State.regReadEffect]
    case m3 j b =>
      exact ensures_memWrite_storesOnly (fun hok => .inl ⟨i, a, n, j, b, hl, rfl, hok⟩)
        (fun t => by simp)

/-- RECV_ASYNC stores at G5 only. -/
theorem execRecvAsync_storesOnly (hat : ∀ o l, s.fg.loc = .busy o l → o = .recvAsync i a n) :
    Ensures (execRecvAsync i a n s) s.StoresOnly := by
  rcases hl : s.fg.loc with _ | ⟨o, l⟩
  · simp [execRecvAsync, hl, State.StoresOnly]
  · obtain rfl := hat o l hl
    cases l <;> simp only [execRecvAsync, hl, ensures_refused]
    case g1 | g2 | g3 | g4 =>
      simp [State.StoresOnly, State.popIncrement, State.popMask, State.setRingR, State.modRing]
    case g5 j b =>
      exact ensures_memWrite_storesOnly (fun hok => .inr ⟨i, a, n, j, b, hl, rfl, hok⟩)
        (fun t => by simp)

end

/-- A micro-step of the operation FG is at changes memory by the store FG is at, if by any. -/
theorem exec_storesOnly {op : Instr} {s : State} (hat : ∀ o l, s.fg.loc = .busy o l → o = op) :
    Ensures (exec op s) s.StoresOnly := by
  by_cases hr : receives op = true
  · cases op <;> first | (cases hr; done) | skip
    case recvBlocking => exact execRecvBlocking_storesOnly hat
    case recvAsync => exact execRecvAsync_storesOnly hat
  · exact fun t he => .inl (exec_mem_of_not_receives s (by simpa using hr) t he)

theorem fgStep_storesOnly (s : State) : Ensures (fgStep s) s.StoresOnly := by
  intro t h
  rcases fgStep_operation h with ⟨op, hop, -, he⟩ | rfl
  · exact exec_storesOnly (fun o l hl =>
      Option.some.inj ((State.operation_busy hl).symm.trans hop)) t he
  · exact .inl rfl

/-- A step that runs no user handler changes memory by the store FG is at, if by any: entries, the dispatcher and
line moves store nothing. -/
theorem step_storesOnly {s t : State} (h : step s = .next t) (hr : s.runsHandler = false) :
    s.StoresOnly t := by
  obtain ⟨m, l, d, b, u, -, rfl, -, hm⟩ := step_moves h
  refine State.StoresOnly.settle ?_ b _
  rcases hm with ⟨-, -, hu⟩ | ⟨i, -, -, rfl⟩ | ⟨-, -, i, k, hi, hk, hu⟩ | ⟨e, op, -, -, ha, he⟩
  · exact fgStep_storesOnly { s with sched := l, draws := d } u hu
  · exact .inl rfl
  · obtain ⟨-, hmem, -⟩ := dispStepAt_plain (s := { s with sched := l, draws := d }) hr hi hk hu
    exact .inl hmem
  · have hmem := exec_mem_of_not_receives { s with sched := l, draws := d } (not_receives_of_line ha) u he
    exact .inl hmem

/-- Settles O50: a byte that a step changes is the byte of the one store FG is at, M3 or G5. -/
theorem memoryIsWrittenByTheReceivesOnly : Obligations.MemoryIsWrittenByTheReceivesOnly :=
  fun _ _ h hr _ hne => (step_storesOnly h hr).storesAt hne

end Sys2Proof.Machine
end

section
/-! Encoding: an operation reads back from its descriptor (30_encoding.md R57, R63), and a legal descriptor is
its operation's own encoding (R67). -/

namespace Sys2Proof

/-- Settles O1: one round trip per row of R63, the family of Laws/PerInstr. -/
theorem operationDecodesFromItsDescriptor : Obligations.OperationDecodesFromItsDescriptor := by
  intro i
  cases i with
  | rbPush i x b => exact Laws.RoundTrip.rbPush i x b
  | rbPop i x => exact Laws.RoundTrip.rbPop i x
  | enableClock i => exact Laws.RoundTrip.enableClock i
  | selectPins i p => exact Laws.RoundTrip.selectPins i p
  | setBaud i hz baud => exact Laws.RoundTrip.setBaud i hz baud
  | enableDirection i tx rx => exact Laws.RoundTrip.enableDirection i tx rx
  | enable i => exact Laws.RoundTrip.enable i
  | disable i => exact Laws.RoundTrip.disable i
  | enableCallback i k => exact Laws.RoundTrip.enableCallback i k
  | disableCallback i k => exact Laws.RoundTrip.disableCallback i k
  | setCallback i k h => exact Laws.RoundTrip.setCallback i k h
  | sendBlocking i a n => exact Laws.RoundTrip.sendBlocking i a n
  | recvBlocking i a n => exact Laws.RoundTrip.recvBlocking i a n
  | sendAsync i a n => exact Laws.RoundTrip.sendAsync i a n
  | recvAsync i a n => exact Laws.RoundTrip.recvAsync i a n
  | sendBreak i => exact Laws.RoundTrip.sendBreak i
  | lineRxByte i b => exact Laws.RoundTrip.lineRxByte i b
  | lineRxBytePerr i d b => exact Laws.RoundTrip.lineRxBytePerr i d b
  | lineBreakDetect i => exact Laws.RoundTrip.lineBreakDetect i
  | lineTxShift i => exact Laws.RoundTrip.lineTxShift i
  | lineTxIdle i => exact Laws.RoundTrip.lineTxIdle i
  | lineBreakSent i => exact Laws.RoundTrip.lineBreakSent i

theorem withKind_ok {c : BitVec 4} {f : Kind → Instr} {i : Instr} (h : withKind c f = .ok i) :
    ∃ k : Kind, k.code = c ∧ f k = i := by
  unfold withKind at h
  split at h
  · rename_i k hk; cases h; exact ⟨k, Kind.code_of_ofCode hk, rfl⟩
  · cases h

theorem withRing_ok {c : BitVec 4} {f : RingSel → Instr} {i : Instr} (h : withRing c f = .ok i) :
    ∃ x : RingSel, x.code = c ∧ f x = i := by
  unfold withRing at h
  split at h
  · rename_i x hx; cases h; exact ⟨x, RingSel.code_of_ofCode hx, rfl⟩
  · cases h

/-- Operation `i` is of row `m`, and each field of `d` that the row uses is the one of `i`'s descriptor. -/
structure Mnemonic.Reads (m : Mnemonic) (d : Descriptor) (i : Instr) : Prop where
  mnemonic : i.mnemonic = m
  wellFormed : i.wellFormed = true
  inst : BitVec.ofFin i.inst = d.inst
  sub : m.subUse ≠ .zero → i.subField = d.sub
  imm : m.usesImm = true → i.immField = d.imm
  wordA : m.usesA = true → i.wordA = d.w1
  wordB : m.usesB = true → i.wordB = d.w2

/-- A row builds its operation from the fields it uses, none of them dropped. -/
theorem Mnemonic.reads_of_build {m : Mnemonic} {d : Descriptor} {i : Instr} (h : m.build d = .ok i) :
    m.Reads d i := by
  cases m
  case RB_PUSH | RB_POP =>
    obtain ⟨x, hx, rfl⟩ := withRing_ok h
    constructor <;> simp [Instr.mnemonic, Instr.wellFormed, Instr.inst, Instr.subField, Instr.immField,
      Mnemonic.usesImm, Mnemonic.usesA, Mnemonic.usesB, hx]
  case ENABLE_CALLBACK | DISABLE_CALLBACK | SET_CALLBACK =>
    obtain ⟨k, hk, rfl⟩ := withKind_ok h
    constructor <;> simp [Instr.mnemonic, Instr.wellFormed, Instr.inst, Instr.subField, Instr.wordA,
      Mnemonic.usesImm, Mnemonic.usesA, Mnemonic.usesB, hk]
  case ENABLE_DIRECTION =>
    simp only [Mnemonic.build] at h
    split at h
    · rename_i tx rx hc
      obtain ⟨hcode, hlegal⟩ := directionCode_of_directionOfCode hc
      cases h
      constructor <;> simp [Instr.mnemonic, Instr.wellFormed, Instr.inst, Instr.subField,
        Mnemonic.usesImm, Mnemonic.usesA, Mnemonic.usesB, hcode]
      simpa using hlegal
    · cases h
  case LINE_RX_BYTE_PERR =>
    simp only [Mnemonic.build] at h
    split at h
    · rename_i b hc
      cases h
      constructor <;> simp [Instr.mnemonic, Instr.wellFormed, Instr.inst, Instr.subField, Instr.immField,
        Mnemonic.usesA, Mnemonic.usesB, drawCode_of_drawOfCode hc]
    · cases h
  all_goals
    cases h
    constructor <;> simp [Instr.mnemonic, Instr.wellFormed, Instr.inst, Instr.immField, Instr.wordA,
      Instr.wordB, Mnemonic.subUse, Mnemonic.usesImm, Mnemonic.usesA, Mnemonic.usesB]

theorem Mnemonic.zeroFieldSet_eq_false_iff {m : Mnemonic} {d : Descriptor} :
    m.zeroFieldSet d = false ↔ (m.subUse = .zero → d.sub = 0#4) ∧ (m.usesImm = false → d.imm = 0#8) ∧
      (m.usesA = false → d.w1 = 0#32) ∧ (m.usesB = false → d.w2 = 0#32) := by
  simp [Mnemonic.zeroFieldSet, and_assoc]

/-- Everything acceptance says: the code is a row's, the reserved and the must-be-0 fields are 0, and the row
builds the operation. -/
theorem decode_ok {d : Descriptor} {i : Instr} (h : decode d = .ok i) :
    ∃ m, Mnemonic.ofCode d.op = some m ∧ d.rsv = 0#8 ∧ m.zeroFieldSet d = false ∧ m.build d = .ok i := by
  unfold decode at h
  split at h
  · cases h
  · rename_i m hm
    split at h
    · cases h
    · rename_i hrsv
      split at h
      · cases h
      · rename_i hzero
        exact ⟨m, hm, by simpa using hrsv, by simpa using hzero, h⟩

/-- A descriptor with an operation's fields, the reserved one 0, is the operation's. -/
theorem encode_eq_of_fields {d : Descriptor} {i : Instr} (hop : i.mnemonic.code = d.op)
    (hinst : BitVec.ofFin i.inst = d.inst) (hsub : i.subField = d.sub) (hrsv : d.rsv = 0#8)
    (himm : i.immField = d.imm) (hA : i.wordA = d.w1) (hB : i.wordB = d.w2) : encode i = d := by
  have hw0 : packW0 d.op d.inst d.sub d.imm = d.w0 := packW0_fields d.w0 hrsv
  rw [encode, hop, hinst, hsub, himm, hA, hB, hw0]

/-- An operation a row reads from `d` has the fields of `d`: those the row uses by the reading, the others because
they are 0 in both. -/
theorem Mnemonic.Reads.encode_eq {m : Mnemonic} {d : Descriptor} {i : Instr} (h : m.Reads d i)
    (hop : m.code = d.op) (hrsv : d.rsv = 0#8) (hzero : m.zeroFieldSet d = false) : encode i = d := by
  obtain ⟨rfl, -, hinst, hsub, himm, hA, hB⟩ := h
  obtain ⟨dsub, dimm, dA, dB⟩ := Mnemonic.zeroFieldSet_eq_false_iff.1 hzero
  obtain ⟨isub, iimm, iA, iB⟩ :=
    Mnemonic.zeroFieldSet_eq_false_iff.1 (Laws.RoundTrip.zeroFieldSet_encode i)
  simp only [encode_sub, encode_imm, encode_w1, encode_w2] at isub iimm iA iB
  refine encode_eq_of_fields hop hinst ?_ hrsv ?_ ?_ ?_
  · by_cases hu : i.mnemonic.subUse = .zero
    · rw [isub hu, dsub hu]
    · exact hsub hu
  · cases hu : i.mnemonic.usesImm
    · rw [iimm hu, dimm hu]
    · exact himm hu
  · cases hu : i.mnemonic.usesA
    · rw [iA hu, dA hu]
    · exact hA hu
  · cases hu : i.mnemonic.usesB
    · rw [iB hu, dB hu]
    · exact hB hu

/-- Settles O2: decoding checks every field that the row's operation does not carry. -/
theorem legalDescriptorIsItsOperationsEncoding :
    Obligations.LegalDescriptorIsItsOperationsEncoding := by
  intro d i h
  obtain ⟨m, hm, hrsv, hzero, hbuild⟩ := decode_ok h
  have hreads := Mnemonic.reads_of_build hbuild
  exact ⟨hreads.encode_eq (Mnemonic.code_of_ofCode hm) hrsv hzero, hreads.wellFormed⟩

/-- A descriptor decodes to the well-formed operation it is the encoding of. -/
theorem decode_of_encode_eq {d : Descriptor} {i : Instr} (hw : i.wellFormed = true) (h : encode i = d) :
    decode d = .ok i := h ▸ operationDecodesFromItsDescriptor i hw

/-- Settles O3: each word is the encoding of the operation its text names. -/
theorem specExampleWordsDecode : Obligations.SpecExampleWordsDecode := by
  refine ⟨?_, ?_, ?_, ?_, ?_, ?_, ?_, ?_⟩ <;> exact decode_of_encode_eq rfl (by decide)

end Sys2Proof
end

section
/-! Illegal descriptors and absent instances (30_encoding.md R65, R66, 60_exceptions.md R138). -/

namespace Sys2Proof.Machine

/-- A step that raised a fault is followed by nothing (60_exceptions.md R138). -/
theorem State.after_raise (u s : State) (b : Bool) (r : FaultReason) :
    u.after b (s.raise r) = s.raise r := rfl

/-- At the start of a descriptor that is no FG row, FG raises IllegalEncoding. -/
theorem fgStep_of_illegal {s : State} {d : Descriptor} (hl : s.fg.loc = .start)
    (hd : s.prog[s.fg.pc]? = some d) (h : ∀ i, decode d = .ok i → i.agent = .line) :
    fgStep s = s.raise .illegalEncoding := by
  rcases hop : decode d with e | op
  · simp only [fgStep, hl, hd, hop]
  · simp [fgStep, hl, hd, hop, h op hop]

/-- FG's move there raises the fault and changes nothing else. -/
theorem runMove_fg_of_illegal {s : State} {d : Descriptor} (hmay : s.fgMay = true)
    (hl : s.fg.loc = .start) (hd : s.prog[s.fg.pc]? = some d)
    (h : ∀ i, decode d = .ok i → i.agent = .line) :
    runMove .fg s = .next { s with fault := some .illegalEncoding } :=
  calc runMove .fg s
      = s.after true (fgStep s) := State.guarded_of_may (State.fault_of_fgMay hmay) hmay _
    _ = s.after true (s.raise .illegalEncoding) := by rw [fgStep_of_illegal hl hd h]
    _ = .next { s with fault := some .illegalEncoding } := State.after_raise s s true _

/-- The first micro-step of every FG operation begins with the check of its instance. -/
theorem exec_start_of_absent {s : State} {op : Instr} (ha : op.agent = .foreground)
    (hl : s.fg.loc = .start) (hi : s.has op.inst = false) :
    exec op s = .next { s with fault := some .invalidInstance } := by
  cases op
  case lineRxByte | lineRxBytePerr | lineBreakDetect | lineTxShift | lineTxIdle | lineBreakSent =>
    cases ha
  all_goals
    simp only [exec, execRbPush, execRbPop, execEnableClock, execSelectPins, execSetBaud,
      execEnableDirection, execEnable, execDisable, execEnableCallback, execDisableCallback,
      execSetCallback, execSendBlocking, execRecvBlocking, execSendAsync, execRecvAsync, execSendBreak, hl]
    exact State.begin_of_absent hi _

/-- Settles O4: the fetch raises the one fault and `State.begin` the other, and nothing follows a raised fault. -/
theorem illegalDescriptorsAndInstancesFault : Obligations.IllegalDescriptorsAndInstancesFault :=
  ⟨fun s rest _ hs hmay hl hd h =>
    (step_of_sched hs).trans (runMove_fg_of_illegal (s := { s with sched := rest }) hmay hl hd h),
   fun _ _ ha hl hi => exec_start_of_absent ha hl hi⟩

end Sys2Proof.Machine
end

section
/-! An update of one peripheral: what it leaves alone, and a chain of micro-steps of one operation. -/

namespace Sys2Proof.Machine

theorem State.sameElsewhere_modInst (s : State) (i : InstId) (f : Inst → Inst) :
    SameElsewhere i s (s.modInst i f) :=
  ⟨rfl, List.length_modify .., fun _ hj => State.inst_modInst_of_ne hj f⟩

/-- The frame of a last micro-step that updates its peripheral by `f` and leaves the history at `l`: the old
history, or the old one with the events emitted. -/
theorem State.finish_modInst_frame {s : State} {i : InstId} (hi : s.has i = true) (f : Inst → Inst)
    (l : List Event) : let t := State.finish { s.modInst i f with trace := l }
    t.fg = s.fg.next ∧ t.inst i = f (s.inst i) ∧ t.trace = l ∧ SameMem s t ∧ SameElsewhere i s t :=
  ⟨rfl, State.inst_modInst_self hi f, rfl, fun _ => rfl, s.sameElsewhere_modInst i f⟩

theorem execTimes_succ_of_next {op : Instr} {s t : State} (h : exec op s = .next t) (n : Nat) :
    execTimes (n + 1) op s = execTimes n op t := by
  simp only [execTimes, h]

end Sys2Proof.Machine
end

section
/-! The configuration operations (40_configuration.md R70 to R75): each micro-step as an equation, and the
fields of CTRL a read-modify-write leaves. -/

namespace Sys2Proof.Machine

/-! The micro-steps -/

section
variable {s : State} {i : InstId}

section
variable (hl : s.fg.loc = .start) (hi : s.has i = true)
include hl hi

theorem exec_enableClock : exec (.enableClock i) s =
    .next ((s.modInst i fun x => { x with clk := true }).emit (.clockEnable i)).finish := by
  simp only [exec, execEnableClock, hl, State.begin_of_has hi]

theorem exec_selectPins (p : Byte) : exec (.selectPins i p) s =
    if p ∈ (s.inst i).pairings then
      .next ((s.modInst i fun x => { x with pins := some p }).emit (.pinSelect i p)).finish
    else .next { s with fault := some .invalidPinPairing } := by
  simp only [exec, execSelectPins, hl, State.begin_of_has hi, List.contains_iff_mem, State.raise]

theorem exec_setBaud (hz baud : Word) : exec (.setBaud i hz baud) s =
    if baud = 0#32 then .next { s with fault := some .divideByZero }
    else if 65536 ≤ hz.toNat / baud.toNat then .next { s with fault := some .baudDivisorOverflow }
    else .next (s.regWrite i .brr (BitVec.ofNat 32 (hz.toNat / baud.toNat))).finish := by
  simp only [exec, execSetBaud, hl, State.begin_of_has hi]
  rfl

theorem exec_enableDirection_start (tx rx : Bool) : exec (.enableDirection i tx rx) s =
    .next (s.goto (.enableDirection i tx rx) (.e2 (s.regVal i .ctrl))) := by
  simp only [exec, execEnableDirection, hl, State.begin_of_has hi]

theorem exec_enable_start : exec (.enable i) s = .next (s.goto (.enable i) (.n2 (s.regVal i .ctrl))) := by
  simp only [exec, execEnable, hl, State.begin_of_has hi]

theorem exec_disable_start : exec (.disable i) s = .next (s.goto (.disable i) (.f2 (s.regVal i .ctrl))) := by
  simp only [exec, execDisable, hl, State.begin_of_has hi]

end

section
variable {op : Instr} {v : Word}

theorem exec_enableDirection_e2 (hl : s.fg.loc = .busy op (.e2 v)) (tx rx : Bool) :
    exec (.enableDirection i tx rx) s = .next (s.regWrite i .ctrl (v ||| directionBits tx rx)).finish := by
  simp only [exec, execEnableDirection, hl]

theorem exec_enable_n2 (hl : s.fg.loc = .busy op (.n2 v)) :
    exec (.enable i) s = .next (s.regWrite i .ctrl (setBit v Field.ue.bit)).finish := by
  simp only [exec, execEnable, hl]

theorem exec_disable_f2 (hl : s.fg.loc = .busy op (.f2 v)) :
    exec (.disable i) s = .next (s.regWrite i .ctrl (clearBit v Field.ue.bit)).finish := by
  simp only [exec, execDisable, hl]

end
end

/-! The fields of CTRL -/

@[simp] theorem getLsbD_ctrlMask (f : Field) : ctrlMask.getLsbD f.bit = true := by cases f <;> decide

theorem Inst.getLsbD_reg_ctrl (x : Inst) (f : Field) : (x.reg .ctrl).getLsbD f.bit = x.field f := by
  simp [Inst.reg, Inst.field]

theorem Inst.field_regWrite_ctrl (x : Inst) (v : Word) (f : Field) :
    (x.regWrite .ctrl v).field f = v.getLsbD f.bit := by
  simp [Inst.regWrite, Inst.field]

theorem getLsbD_directionBits (tx rx : Bool) (f : Field) :
    (directionBits tx rx).getLsbD f.bit = ((tx && decide (f = .te)) || (rx && decide (f = .re))) := by
  cases tx <;> cases rx <;> cases f <;> decide

/-- A read-modify-write with a direction mask sets the mask's fields and keeps every other. -/
theorem Inst.field_enableDirection (x : Inst) (tx rx : Bool) (f : Field) :
    (x.regWrite .ctrl (x.reg .ctrl ||| directionBits tx rx)).field f =
      (x.field f || ((tx && decide (f = .te)) || (rx && decide (f = .re)))) := by
  rw [Inst.field_regWrite_ctrl, BitVec.getLsbD_or, Inst.getLsbD_reg_ctrl, getLsbD_directionBits]

/-- E1 and E2 with no step between are one read-modify-write of CTRL. -/
theorem execTimes_enableDirection {s : State} {i : InstId} (hl : s.fg.loc = .start) (hi : s.has i = true)
    (tx rx : Bool) : ∃ t, execTimes 2 (.enableDirection i tx rx) s = .next t ∧
      t.inst i = (s.inst i).regWrite .ctrl ((s.inst i).reg .ctrl ||| directionBits tx rx) := by
  have he1 := exec_enableDirection_start hl hi tx rx
  have he2 := exec_enableDirection_e2 (i := i)
    (s := s.goto (.enableDirection i tx rx) (.e2 (s.regVal i .ctrl))) rfl tx rx
  exact ⟨_, (execTimes_succ_of_next he1 1).trans (execTimes_succ_of_next he2 0),
    State.inst_modInst_self (s := s.goto _ _) hi _⟩

/-- Settles O11: the two micro-steps are one read-modify-write of CTRL, followed field by field. -/
theorem enableDirectionNeverClobbers : Obligations.EnableDirectionNeverClobbers := by
  intro s i tx rx hl hi
  obtain ⟨t, ht, hinst⟩ := execTimes_enableDirection hl hi tx rx
  refine ⟨t, ht, ?_, ?_, fun f hte hre => ?_⟩ <;> rw [hinst, Inst.field_enableDirection]
  · simp [Bool.or_comm]
  · simp [Bool.or_comm]
  · simp [hte, hre]

/-- Settles O6: K1 is one update of the peripheral and one event. -/
theorem enableClockRequestsTheClock : Obligations.EnableClockRequestsTheClock :=
  fun _ _ hl hi => ⟨_, exec_enableClock hl hi, State.finish_modInst_frame hi _ _⟩

/-- Settles O7: S1 branches on the membership of the pairing alone. -/
theorem selectPinsRecordsALegalPairing : Obligations.SelectPinsRecordsALegalPairing :=
  fun _ _ p hl hi =>
    ⟨fun hp => ⟨_, (exec_selectPins hl hi p).trans (if_pos hp), State.finish_modInst_frame hi _ _⟩,
     fun hp => (exec_selectPins hl hi p).trans (if_neg hp)⟩

/-- A quotient below 2^16 loses no bit to the reserved half of BRR. -/
theorem ofNat_and_brrMask {q : Nat} (hq : q < 65536) : BitVec.ofNat 32 q &&& brrMask = BitVec.ofNat 32 q := by
  apply BitVec.eq_of_toNat_eq
  have hmask : brrMask.toNat = 2 ^ 16 - 1 := rfl
  rw [BitVec.toNat_and, hmask, Nat.and_two_pow_sub_one_eq_mod, BitVec.toNat_ofNat]
  omega

/-- Settles O8: D1 branches on a zero baud, then on the quotient; a quotient that fits is the whole BRR. -/
theorem setBaudLoadsTheFlooredQuotient : Obligations.SetBaudLoadsTheFlooredQuotient := by
  intro s i hz baud hl hi
  have hd1 := exec_setBaud hl hi hz baud
  refine ⟨fun hb hq => ?_, fun hb => ?_, fun hb hq => ?_⟩
  · rw [if_neg hb, if_neg (Nat.not_le.2 hq)] at hd1
    obtain ⟨hfg, hinst, hrest⟩ := State.finish_modInst_frame hi
      (fun x => x.regWrite .brr (BitVec.ofNat 32 (hz.toNat / baud.toNat))) s.trace
    rw [Inst.regWrite, ofNat_and_brrMask hq] at hinst
    exact ⟨_, hd1, hfg, hinst, hrest⟩
  · rw [hd1, if_pos hb]
  · rw [hd1, if_neg hb, if_pos hq]

/-- Settles O9: E1 is a `goto` with the value read, E2 one masked write of CTRL. -/
theorem enableDirectionMicroSteps : Obligations.EnableDirectionMicroSteps :=
  fun s _ tx rx hi =>
    ⟨fun hl => exec_enableDirection_start hl hi tx rx,
     fun _ _ hl => ⟨_, exec_enableDirection_e2 hl tx rx, State.finish_modInst_frame hi _ s.trace⟩⟩

/-- Settles O10: N1 and F1 are a `goto` with the value read, N2 and F2 one masked write of CTRL. -/
theorem enableAndDisableMicroSteps : Obligations.EnableAndDisableMicroSteps :=
  fun s _ hi =>
    ⟨fun hl => ⟨exec_enable_start hl hi, exec_disable_start hl hi⟩,
     fun _ _ hl => ⟨_, exec_enable_n2 hl, State.finish_modInst_frame hi _ s.trace⟩,
     fun _ _ hl => ⟨_, exec_disable_f2 hl, State.finish_modInst_frame hi _ s.trace⟩⟩

end Sys2Proof.Machine
end

section
/-! The bytes of a ring through the micro-steps of a PUSH and a POP (41_ring_buffer.md R80, R81), and the ring
of a peripheral after an update. -/

namespace Sys2Proof.Machine

theorem Ring.length_contents (q : Ring) : q.contents.length = q.occupancy.toNat := by
  simp [Ring.contents]

/-- A ring holds no byte exactly at occupancy 0. -/
theorem Ring.contents_eq_nil_iff {q : Ring} : q.contents = [] ↔ q.occupancy = 0#32 := by
  rw [← List.length_eq_zero_iff, Ring.length_contents]
  exact ⟨fun h => BitVec.eq_of_toNat_eq h, fun h => congrArg BitVec.toNat h⟩

/-- Step p2 of a PUSH changes no byte held. -/
theorem Ring.contents_store {q : Ring} (hw : q.w < q.cap) (b : Byte) :
    ({ q with buf := Memory.write q.buf q.w.toNat b } : Ring).contents = q.contents :=
  q.contents_write _ b rfl (Ring.lt_cap_iff.1 hw)

/-- The masked successor is the successor modulo the capacity. -/
theorem Ring.wrap_toNat_mod {q : Ring} {n : Word} (hn : n < q.cap) :
    (q.wrap n).toNat % 2 ^ q.logC.val = (n + 1#32).toNat % 2 ^ q.logC.val := by
  rw [Ring.wrap_toNat_eq hn, Ring.succ_toNat hn, Nat.mod_mod]

/-- Step p4 of a PUSH changes no byte held. -/
theorem Ring.contents_maskW {q : Ring} {n : Word} (hn : n < q.cap) (hw : q.w = n + 1#32) :
    ({ q with w := q.wrap n } : Ring).contents = q.contents :=
  Ring.contents_congr rfl rfl (by rw [hw]; exact Ring.wrap_toNat_mod hn) rfl

/-- Step q4 of a POP changes no byte held. -/
theorem Ring.contents_maskR {q : Ring} {n : Word} (hn : n < q.cap) (hr : q.r = n + 1#32) :
    ({ q with r := q.wrap n } : Ring).contents = q.contents :=
  Ring.contents_congr rfl rfl rfl (by rw [hr]; exact Ring.wrap_toNat_mod hn)

section
variable {s : State} {i j : InstId} {x a : RingSel}

theorem State.ring_modRing_self (hi : s.has i = true) (f : Ring → Ring) :
    (s.modRing i x f).ring i x = f (s.ring i x) := by
  simp [State.ring, State.modRing, hi]

theorem State.ring_setCell_self (hi : s.has i = true) (n : Word) (b : Byte) :
    (s.setCell i x n b).ring i x =
      { s.ring i x with buf := Memory.write (s.ring i x).buf n.toNat b } := State.ring_modRing_self hi _

theorem State.ring_setRingW_self (hi : s.has i = true) (w : Word) :
    (s.setRingW i x w).ring i x = { s.ring i x with w := w } := State.ring_modRing_self hi _

theorem State.ring_setRingR_self (hi : s.has i = true) (r : Word) :
    (s.setRingR i x r).ring i x = { s.ring i x with r := r } := State.ring_modRing_self hi _

theorem State.ring_modRing_of_ne (h : ¬ (j = i ∧ a = x)) (f : Ring → Ring) :
    (s.modRing i x f).ring j a = s.ring j a :=
  (s.ring_modRing_cases i j x a f).resolve_right fun ⟨hj, ha, _⟩ => h ⟨hj, ha⟩

end

/-- The ring an operation works on (41_ring_buffer.md R76). -/
def ringOf : Instr → Option (InstId × RingSel)
  | .rbPush i x _ => some (i, x)
  | .rbPop i x => some (i, x)
  | .sendAsync i _ _ => some (i, .tx)
  | .recvAsync i _ _ => some (i, .rx)
  | _ => none

theorem ringOf_of_not_usesRing {op : Instr} (h : ¬ usesRing op = true) : ringOf op = none := by
  cases op <;> first | rfl | exact absurd rfl h

/-- A micro-step leaves every ring alone that its operation does not work on. -/
theorem exec_ring_frame {op : Instr} {s : State} {j : InstId} {a : RingSel}
    (h : ringOf op ≠ some (j, a)) : Ensures (exec op s) (fun t => t.ring j a = s.ring j a) := by
  by_cases hu : usesRing op = true
  · cases op <;> first | (cases hu; done) | skip
    case rbPush i x b =>
      have hne : ¬ (j = i ∧ a = x) := fun ⟨hj, ha⟩ => h (by rw [hj, ha]; rfl)
      simp only [exec, execRbPush]
      split <;> simp [State.setCell, State.pushIncrement, State.pushMask, State.setRingW,
        State.ring_modRing_of_ne hne]
    case rbPop i x =>
      have hne : ¬ (j = i ∧ a = x) := fun ⟨hj, ha⟩ => h (by rw [hj, ha]; rfl)
      simp only [exec, execRbPop]
      split <;> simp [State.popIncrement, State.popMask, State.setRingR, State.ring_modRing_of_ne hne]
    case sendAsync i b n =>
      have hne : ¬ (j = i ∧ a = .tx) := fun ⟨hj, ha⟩ => h (by rw [hj, ha]; rfl)
      simp only [exec, execSendAsync]
      split <;> simp [State.setCell, State.pushIncrement, State.pushMask, State.setRingW, State.regWrite,
        State.ring_modRing_of_ne hne]
    case recvAsync i b n =>
      have hne : ¬ (j = i ∧ a = .rx) := fun ⟨hj, ha⟩ => h (by rw [hj, ha]; rfl)
      simp only [exec, execRecvAsync]
      split <;> simp [State.popIncrement, State.popMask, State.setRingR, State.ring_modRing_of_ne hne]
  · intro t he
    obtain ⟨-, -, -, -, -, -, hring⟩ := exec_writes op s t he
    exact hring.resolve_left hu j a

end Sys2Proof.Machine
end

section
/-! The agents of one peripheral's rings: what a step is, seen from peripheral `i` (41_ring_buffer.md R82). -/

namespace Sys2Proof.Machine

theorem State.dispAt_of_active {s : State} {i : InstId} {l : DLoc} (ha : s.active = some i)
    (hl : s.dloc = some l) : s.dispAt i = some l := by simp [State.dispAt, ha, hl]

theorem State.dispAt_of_inactive {s : State} (ha : s.active = none) (i : InstId) :
    s.dispAt i = none := by simp [State.dispAt, ha]

theorem State.dispAt_congr {s t : State} (ha : t.active = s.active) (hl : t.dloc = s.dloc) (i : InstId) :
    t.dispAt i = s.dispAt i := by simp [State.dispAt, ha, hl]

theorem State.active_of_fgMay {s : State} (h : s.fgMay = true) : s.active = none := by
  simp only [State.fgMay, Bool.and_eq_true, Option.isNone_iff_eq_none] at h
  obtain ⟨⟨⟨⟨hactive, -⟩, -⟩, -⟩, -⟩ := h
  exact hactive

theorem State.active_of_allowed {s : State} {i : InstId} (h : s.allowed i = true) : s.active = none := by
  simp only [State.allowed, State.entriesOpen, Bool.and_eq_true, Option.isNone_iff_eq_none] at h
  obtain ⟨⟨⟨⟨-, hactive⟩, -⟩, -⟩, -⟩ := h
  exact hactive

/-- FG is inside the operation it is at. -/
theorem State.eq_operation_of_busy {s : State} {op : Instr} (h : s.operation = some op) :
    ∀ o l, s.fg.loc = .busy o l → o = op :=
  fun _ _ hl => Option.some.inj ((State.operation_busy hl).symm.trans h)

/-- FG's micro-step does not move a dispatcher. -/
theorem exec_foreground_dispAt {op : Instr} {s t : State} (ha : op.agent = .foreground)
    (h : exec op s = .next t) (i : InstId) : t.dispAt i = s.dispAt i := by
  rcases exec_foreground_cases ha h with ⟨f, g, m, tr, rfl, -, -⟩ | ⟨r, rfl⟩ <;> rfl

@[simp] theorem State.settle_dispAt (b : Bool) (s t : State) (i : InstId) :
    (s.settle b t).dispAt i = t.dispAt i := State.dispAt_congr (by simp) (by simp) i

@[simp] theorem State.settle_ctrl (b : Bool) (s t : State) (j : InstId) :
    ((s.settle b t).inst j).ctrl = (t.inst j).ctrl := by
  obtain ⟨p, hp⟩ := s.settle_inst b t j
  rw [hp]

theorem exec_line_txeie {op : Instr} {s : State} (ha : op.agent = .line) (j : InstId) :
    Ensures (exec op s) (fun t => (t.inst j).ctrl.getLsbD 7 = (s.inst j).ctrl.getLsbD 7) := by
  have hkeep : ∀ (r : State) (i : InstId) (f : Inst → Inst),
      (∀ x, (f x).ctrl.getLsbD 7 = x.ctrl.getLsbD 7) → r.insts = s.insts →
      ((r.modInst i f).inst j).ctrl.getLsbD 7 = (s.inst j).ctrl.getLsbD 7 := by
    intro r i f hf hr
    have h := State.inst_modInst_rel (P := fun x y => y.ctrl.getLsbD 7 = x.ctrl.getLsbD 7) r i j
      (fun _ => rfl) hf
    simpa [State.inst, hr] using h
  cases op <;> first | (cases ha; done) | skip
  all_goals
    simp only [exec, execLineRxByte, execLineRxBytePerr, execLineBreakDetect, execLineTxShift,
      execLineTxIdle, execLineBreakSent, ensures_lineMove]
    refine fun _ _ => hkeep _ _ _ (fun x => ?_) rfl
  case lineRxByte => unfold Inst.receive; split <;> rfl
  case lineRxBytePerr => unfold Inst.receivePerr; (repeat' split) <;> rfl
  case lineBreakSent => exact getLsbD_clearBit _ (by decide) 7
  all_goals rfl

/-- A micro-step that, seen from peripheral `i`, moves neither FG nor a ring nor TXEIE, and the dispatcher of `i`
at most into its first label. -/
structure State.Bystands (i : InstId) (s t : State) : Prop where
  ring : ∀ a, t.ring i a = s.ring i a
  txeie : (t.inst i).ctrl.getLsbD 7 = (s.inst i).ctrl.getLsbD 7
  loc : t.fg.loc = s.fg.loc
  mem : t.mem = s.mem
  disp : t.dispAt i = s.dispAt i ∨ (s.dispAt i = none ∧ t.dispAt i = some .c0)

theorem State.bystands_fault (i : InstId) (s : State) (r : FaultReason) :
    s.Bystands i { s with fault := some r } := ⟨fun _ => rfl, rfl, rfl, rfl, .inl rfl⟩

/-- An entry is of peripheral `i`, whose dispatcher was not active, or of another. -/
theorem State.bystands_enter {s : State} (ha : s.active = none) (i j : InstId) :
    s.Bystands i (s.enter j) where
  ring a := s.ring_modInst j i a (f := fun x => { x with pend := false }) (fun _ => rfl) fun _ => rfl
  txeie := s.inst_modInst_rel (P := fun x y => y.ctrl.getLsbD 7 = x.ctrl.getLsbD 7)
    (f := fun x => { x with pend := false }) j i (fun _ => rfl) fun _ => rfl
  loc := rfl
  mem := rfl
  disp := by
    by_cases hj : j = i <;> simp [State.dispAt, ha, hj]

/-- A line move. -/
theorem exec_line_bystands {op : Instr} {s t : State} (ha : op.agent = .line) (h : exec op s = .next t)
    (i : InstId) : s.Bystands i t := by
  have hring : ∀ a, t.ring i a = s.ring i a := fun a =>
    exec_ring_frame (by cases op <;> first | (cases ha; done) | simp [ringOf]) t h
  have htxeie := exec_line_txeie ha i t h
  obtain ⟨-, f, tr, rfl, -⟩ := exec_line_cases ha h
  exact ⟨hring, htxeie, rfl, rfl, .inl rfl⟩

/-- A micro-step of another peripheral's dispatcher. -/
theorem dispStepAt_bystands {j i : InstId} {l : DLoc} {s t : State} (hr : s.runsHandler = false)
    (ha : s.active = some j) (hl : s.dloc = some l) (h : dispStepAt j l s = .next t) (hne : i ≠ j) :
    s.Bystands i t := by
  obtain ⟨hfg, hmem, -, -, hactive, -, f, hinsts, -⟩ := dispStepAt_plain hr ha hl h
  have hinst : t.inst i = s.inst i := by
    rw [← State.inst_modInst_of_ne hne f (s := s), State.inst, hinsts, State.inst]
  have hji : ¬ j = i := fun e => hne e.symm
  refine ⟨fun a => by rw [State.ring, hinst, State.ring], by rw [hinst], by rw [hfg], hmem, .inl ?_⟩
  rcases hactive with ht | ht <;> simp [State.dispAt, ht, ha, hji]

/-- A step that runs no user handler, seen from peripheral `i`: a micro-step of FG's operation while no dispatcher
is active, one of the dispatcher of `i`, or neither. -/
theorem step_agents {s t : State} (h : step s = .next t) (hr : s.runsHandler = false) (i : InstId) :
    ∃ l d b u, t = State.settle b { s with sched := l, draws := d } u ∧
      ((∃ op, s.operation = some op ∧ op.agent = .foreground ∧ s.active = none ∧
          exec op { s with sched := l, draws := d } = .next u) ∨
        (∃ k, s.active = some i ∧ s.dloc = some k ∧
          dispStepAt i k { s with sched := l, draws := d } = .next u) ∨
        State.Bystands i { s with sched := l, draws := d } u) := by
  obtain ⟨m, l, d, b, u, -, rfl, -, hm⟩ := step_moves h
  refine ⟨l, d, b, u, rfl, ?_⟩
  rcases hm with ⟨-, hmay, hu⟩ | ⟨j, -, hal, rfl⟩ | ⟨-, -, j, k, hj, hk, hu⟩ | ⟨e, op, -, -, ha, he⟩
  · rcases fgStep_operation hu with ⟨op, hop, ha, he⟩ | rfl
    · exact .inl ⟨op, hop, ha, State.active_of_fgMay hmay, he⟩
    · exact .inr (.inr (State.bystands_fault i _ _))
  · exact .inr (.inr (State.bystands_enter (s := { s with sched := l, draws := d })
      (State.active_of_allowed hal) i j))
  · by_cases hji : i = j
    · subst hji; exact .inr (.inl ⟨k, hj, hk, hu⟩)
    · exact .inr (.inr (dispStepAt_bystands (s := { s with sched := l, draws := d }) hr hj hk hu hji))
  · exact .inr (.inr (exec_line_bystands ha he i))

end Sys2Proof.Machine
end

section
/-! RX as a FIFO under interleaving (41_ring_buffer.md R84): each agent's micro-step keeps both agents in agreement
with the ring and changes its bytes at p3 and q3 only. -/

namespace Sys2Proof.Machine

/-- FG's agreement with the ring survives a change of the ring that keeps `R`, the bytes held and the cell FG has
read from. -/
theorem Ring.PoppedByForeground.of_push {q p : Ring} {f : Option Label} (h : q.PoppedByForeground f)
    (hc : p.logC = q.logC) (hr : p.r = q.r) (hheld : q.contents <+: p.contents)
    (hcell : q.r < q.cap → q.occupancy ≠ 0#32 →
      Memory.read p.buf q.r.toNat = Memory.read q.buf q.r.toNat) : p.PoppedByForeground f := by
  have hcap : p.cap = q.cap := by simp only [Ring.cap, hc]
  have hocc : q.occupancy ≠ 0#32 → p.occupancy ≠ 0#32 := by
    simp only [ne_eq, ← Ring.contents_eq_nil_iff]
    exact fun hne hp => hne (List.prefix_nil.1 (hp ▸ hheld))
  unfold Ring.PoppedByForeground at *
  rw [hcap, hr]
  split at h
  · obtain ⟨hrq, hlt, hne⟩ := h
    exact ⟨hrq, hlt, hocc hne⟩
  · obtain ⟨hrq, hlt, hne⟩ := h
    exact ⟨hrq, hlt, hocc hne⟩
  · obtain ⟨rfl, hlt, hne, hb⟩ := h
    exact ⟨rfl, hlt, hocc hne, (hcell hlt hne).trans hb⟩
  · obtain ⟨rfl, hlt, hne, hb⟩ := h
    exact ⟨rfl, hlt, hocc hne, (hcell hlt hne).trans hb⟩
  · exact h
  · exact h
  · exact h

theorem State.fgAt_of_busy {s : State} {p : Instr → Bool} {op : Instr} {l : Label}
    (hl : s.fg.loc = .busy op l) (hp : p op = true) : s.fgAt p = some l := by simp [State.fgAt, hl, hp]

theorem State.fgAt_of_start {s : State} (hl : s.fg.loc = .start) (p : Instr → Bool) : s.fgAt p = none := by
  simp [State.fgAt, hl]

theorem State.fgAt_of_other {s : State} {p : Instr → Bool} {op : Instr} (hp : p op = false)
    (hl : s.fg.loc = .start ∨ ∃ l, s.fg.loc = .busy op l) : s.fgAt p = none := by
  rcases hl with hl | ⟨l, hl⟩ <;> simp [State.fgAt, hl, hp]

/-- FG is at an operation's start, or inside the operation a premise names. -/
theorem State.loc_cases {s : State} {op : Instr} (hat : ∀ o l, s.fg.loc = .busy o l → o = op) :
    s.fg.loc = .start ∨ ∃ l, s.fg.loc = .busy op l := by
  rcases hl : s.fg.loc with _ | ⟨o, l⟩
  · exact .inl rfl
  · exact .inr ⟨l, by rw [hat o l hl]⟩

/-- FG's micro-step ends at an operation's start or inside its own operation. -/
theorem exec_foreground_loc {op : Instr} {s t : State} (ha : op.agent = .foreground)
    (hat : ∀ o l, s.fg.loc = .busy o l → o = op) (h : exec op s = .next t) :
    t.fg.loc = .start ∨ ∃ l, t.fg.loc = .busy op l := by
  rcases exec_foreground_cases ha h with ⟨f, g, m, tr, rfl, -, hg⟩ | ⟨r, rfl⟩
  · exact hg.symm.imp And.right And.right
  · exact State.loc_cases hat

section
variable {s : State} {i : InstId} (hs : s.RxInRole i)
include hs

theorem State.RxInRole.wf : Memory.wf (s.ring i .rx).buf = true := hs.1

theorem State.RxInRole.pushed : (s.ring i .rx).PushedByDispatcher (s.dispAt i) := hs.2.1

theorem State.RxInRole.popped : (s.ring i .rx).PoppedByForeground (s.fgAt (popsRx i)) := hs.2.2

end

/-- The ring and the two labels are what a state is in role by. -/
theorem State.RxInRole.intro {t : State} {i : InstId} {q : Ring} {d : Option DLoc} {f : Option Label}
    (hring : t.ring i .rx = q) (hd : t.dispAt i = d) (hf : t.fgAt (popsRx i) = f)
    (hwf : Memory.wf q.buf = true) (hpush : q.PushedByDispatcher d) (hpop : q.PoppedByForeground f) :
    t.RxInRole i := by
  subst hring hd hf
  exact ⟨hwf, hpush, hpop⟩

/-- The bytes of `RX[i]` go from `s` to `t` unchanged, by an append at p3 or by a take at q3. -/
def State.RxMoves (i : InstId) (s t : State) : Prop :=
  (t.ring i .rx).contents = (s.ring i .rx).contents ∨
  (∃ b w, s.dispAt i = some (.rb4 b w) ∧
    (t.ring i .rx).contents = (s.ring i .rx).contents ++ [b]) ∨
  (∃ r b, (s.fgAt (popsRx i) = some (.v3 r b) ∨ ∃ j, s.fgAt (popsRx i) = some (.g3 j r b)) ∧
    (s.ring i .rx).contents = b :: (t.ring i .rx).contents)

/-- What the statement says of one step from `s` to `t`. -/
def State.RxFifo (i : InstId) (s t : State) : Prop := t.RxInRole i ∧ s.RxMoves i t

section
variable {s t : State} {i : InstId} (hs : s.RxInRole i)
include hs

/-- A micro-step that leaves the ring alone owes the agreement of the agents' new labels only. -/
theorem State.RxInRole.fifo_of_ring {d : Option DLoc} {f : Option Label}
    (hring : t.ring i .rx = s.ring i .rx) (hd : t.dispAt i = d) (hf : t.fgAt (popsRx i) = f)
    (hpush : (s.ring i .rx).PushedByDispatcher d) (hpop : (s.ring i .rx).PoppedByForeground f) :
    State.RxFifo i s t :=
  ⟨.intro hring hd hf hs.wf hpush hpop, .inl (by rw [hring])⟩

theorem State.RxInRole.fifo_of_bystands (hb : s.Bystands i t) : State.RxFifo i s t := by
  have hf : t.fgAt (popsRx i) = s.fgAt (popsRx i) := by simp only [State.fgAt, hb.loc]
  have hpush := hs.pushed
  rcases hb.disp with hd | ⟨hd, hd'⟩
  · exact hs.fifo_of_ring (hb.ring .rx) hd hf hpush hs.popped
  · rw [hd] at hpush
    exact hs.fifo_of_ring (hb.ring .rx) hd' hf hpush hs.popped

/-- q3 takes the byte FG has read, and leaves the dispatcher in agreement. -/
theorem State.RxInRole.fifo_of_popIncrement {r : Word} {b : Byte} {f : Option Label}
    (hat : s.fgAt (popsRx i) = some (.v3 r b) ∨ ∃ j, s.fgAt (popsRx i) = some (.g3 j r b))
    (hring : t.ring i .rx = { s.ring i .rx with r := r + 1#32 }) (hd : t.dispAt i = s.dispAt i)
    (hf : t.fgAt (popsRx i) = f)
    (hpop : r < (s.ring i .rx).cap → ({ s.ring i .rx with r := r + 1#32 } : Ring).PoppedByForeground f) :
    State.RxFifo i s t := by
  have hagree : r = (s.ring i .rx).r ∧ r < (s.ring i .rx).cap ∧ (s.ring i .rx).occupancy ≠ 0#32 ∧
      Memory.read (s.ring i .rx).buf r.toNat = b := by
    have hpop := hs.popped
    rcases hat with hat | ⟨j, hat⟩ <;> rw [hat] at hpop <;> exact hpop
  obtain ⟨rfl, hlt, hne, rfl⟩ := hagree
  refine ⟨.intro hring hd hf hs.wf hs.pushed (hpop hlt), .inr (.inr ⟨_, _, hat, ?_⟩)⟩
  rw [hring]
  exact Ring.contents_popIncrement hlt hne

/-- q4 moves no byte and leaves `R` below the capacity and the dispatcher in agreement. -/
theorem State.RxInRole.fifo_of_popMask {r : Word} {f : Option Label}
    (hat : r < (s.ring i .rx).cap ∧ (s.ring i .rx).r = r + 1#32)
    (hring : t.ring i .rx = { s.ring i .rx with r := (s.ring i .rx).wrap r })
    (hd : t.dispAt i = s.dispAt i) (hf : t.fgAt (popsRx i) = f)
    (hpop : (s.ring i .rx).wrap r < (s.ring i .rx).cap →
      ({ s.ring i .rx with r := (s.ring i .rx).wrap r } : Ring).PoppedByForeground f) :
    State.RxFifo i s t := by
  refine ⟨.intro hring hd hf hs.wf hs.pushed (hpop (Ring.wrap_lt_cap _ r)), .inl ?_⟩
  rw [hring]
  exact Ring.contents_maskR hat.1 hat.2

/-- While no PUSH is under way, FG reads `R` of a ring that holds a byte. -/
theorem State.RxInRole.occupancy_ne_zero (hd : s.dispAt i = none)
    (hr : (s.ring i .rx).r < (s.ring i .rx).cap) (he : ¬ (s.ring i .rx).empty = true) :
    (s.ring i .rx).occupancy ≠ 0#32 := by
  have hpush := hs.pushed
  rw [hd] at hpush
  rw [ne_eq, Ring.occupancy_eq_zero hpush hr]
  simpa [Ring.empty] using he

/-- An operation that does not work on `RX[i]` starts and ends outside its consumers. -/
theorem exec_other_rxFifo {op : Instr} (ha : op.agent = .foreground)
    (hat : ∀ o l, s.fg.loc = .busy o l → o = op) (hne : ringOf op ≠ some (i, .rx))
    (h : exec op s = .next t) : State.RxFifo i s t := by
  have hp : popsRx i op = false := by
    cases op <;> first | rfl | skip
    case rbPop j x =>
      cases x
      · exact decide_eq_false fun hj => hne (by rw [hj]; rfl)
      · rfl
    case recvAsync j a n => exact decide_eq_false fun hj => hne (by rw [hj]; rfl)
  have hpop := hs.popped
  rw [State.fgAt_of_other hp (State.loc_cases hat)] at hpop
  exact hs.fifo_of_ring (exec_ring_frame hne t h) (exec_foreground_dispAt ha h i)
    (State.fgAt_of_other hp (exec_foreground_loc ha hat h)) hs.pushed hpop

section
variable (hi : s.has i = true) (hd : s.dispAt i = none)
include hi hd

theorem execRbPop_rxFifo (hat : ∀ o l, s.fg.loc = .busy o l → o = .rbPop i .rx) :
    Ensures (execRbPop i .rx s) (State.RxFifo i s) := by
  have hp : popsRx i (.rbPop i .rx) = true := decide_eq_true rfl
  have hpop := hs.popped
  rcases hl : s.fg.loc with _ | ⟨o, l⟩
  · rw [State.fgAt_of_start hl] at hpop
    simp only [execRbPop, hl, ensures_begin, ensures_ite, ensures_next]
    refine ⟨fun _ => ⟨fun _ => ?_, fun he => ?_⟩, fun h => absurd hi h⟩
    · exact hs.fifo_of_ring rfl rfl (State.fgAt_of_start rfl _) hs.pushed hpop
    · exact hs.fifo_of_ring rfl rfl (State.fgAt_of_busy rfl hp) hs.pushed
        ⟨rfl, hpop, hs.occupancy_ne_zero hd hpop he⟩
  · obtain rfl := hat o l hl
    have hf := State.fgAt_of_busy hl hp
    rw [hf] at hpop
    cases l <;> simp only [execRbPop, hl, ensures_refused, ensures_popCell, ensures_next]
    case v2 r =>
      obtain ⟨hr, hlt, hne⟩ := hpop
      refine ⟨fun _ => ?_, fun hge => absurd hlt (BitVec.not_lt.2 hge)⟩
      exact hs.fifo_of_ring rfl rfl (State.fgAt_of_busy rfl hp) hs.pushed ⟨hr, hlt, hne, rfl⟩
    case v3 r b =>
      exact hs.fifo_of_popIncrement (.inl hf) (State.ring_setRingR_self hi _) rfl
        (State.fgAt_of_busy rfl hp) fun hlt => ⟨hlt, rfl⟩
    case v4 r b =>
      exact hs.fifo_of_popMask hpop (State.ring_setRingR_self hi _) rfl (State.fgAt_of_start rfl _) id

theorem execRecvAsync_rxFifo {a n : Word} (hat : ∀ o l, s.fg.loc = .busy o l → o = .recvAsync i a n) :
    Ensures (execRecvAsync i a n s) (State.RxFifo i s) := by
  have hp : popsRx i (.recvAsync i a n) = true := decide_eq_true rfl
  have hpop := hs.popped
  rcases hl : s.fg.loc with _ | ⟨o, l⟩
  · rw [State.fgAt_of_start hl] at hpop
    simp only [execRecvAsync, hl, ensures_begin, ensures_ite, ensures_next]
    refine ⟨fun _ => ⟨fun _ => ?_, fun _ => ?_⟩, fun h => absurd hi h⟩
    · exact hs.fifo_of_ring rfl rfl (State.fgAt_of_start rfl _) hs.pushed hpop
    · exact hs.fifo_of_ring rfl rfl (State.fgAt_of_busy rfl hp) hs.pushed hpop
  · obtain rfl := hat o l hl
    have hf := State.fgAt_of_busy hl hp
    rw [hf] at hpop
    cases l <;> simp only [execRecvAsync, hl, ensures_refused, ensures_popCell, ensures_memWrite,
      ensures_ite, ensures_next]
    case g1 j =>
      refine ⟨fun _ => ?_, fun he => ?_⟩
      · exact hs.fifo_of_ring rfl rfl (State.fgAt_of_start rfl _) hs.pushed hpop
      · exact hs.fifo_of_ring rfl rfl (State.fgAt_of_busy rfl hp) hs.pushed
          ⟨rfl, hpop, hs.occupancy_ne_zero hd hpop he⟩
    case g2 j r =>
      obtain ⟨hr, hlt, hne⟩ := hpop
      refine ⟨fun _ => ?_, fun hge => absurd hlt (BitVec.not_lt.2 hge)⟩
      exact hs.fifo_of_ring rfl rfl (State.fgAt_of_busy rfl hp) hs.pushed ⟨hr, hlt, hne, rfl⟩
    case g3 j r b =>
      exact hs.fifo_of_popIncrement (.inr ⟨j, hf⟩) (State.ring_setRingR_self hi _) rfl
        (State.fgAt_of_busy rfl hp) fun hlt => ⟨hlt, rfl⟩
    case g4 j r b =>
      exact hs.fifo_of_popMask hpop (State.ring_setRingR_self hi _) rfl (State.fgAt_of_busy rfl hp) id
    case g5 j b =>
      refine fun _ => ⟨fun _ => ?_, fun _ => ?_⟩
      · exact hs.fifo_of_ring rfl rfl (State.fgAt_of_start rfl _) hs.pushed hpop
      · exact hs.fifo_of_ring rfl rfl (State.fgAt_of_busy rfl hp) hs.pushed hpop

end

/-- FG's operation is one of the two consumers of `RX[i]`, the RB_PUSH left out, or works on another ring. -/
theorem exec_foreground_rxFifo {op : Instr} (hi : s.has i = true) (hd : s.dispAt i = none)
    (ha : op.agent = .foreground) (hat : ∀ o l, s.fg.loc = .busy o l → o = op)
    (hpush : ∀ b, op ≠ .rbPush i .rx b) (h : exec op s = .next t) : State.RxFifo i s t := by
  by_cases hring : ringOf op = some (i, .rx)
  · cases op <;> first | (cases hring; done) | skip
    case rbPush b => cases hring; exact absurd rfl (hpush b)
    case rbPop => cases hring; exact execRbPop_rxFifo hs hi hd hat t h
    case recvAsync => cases hring; exact execRecvAsync_rxFifo hs hi hd hat t h
  · exact exec_other_rxFifo hs ha hat hring h

/-- A micro-step of the dispatcher leaves FG's label, and FG in agreement if it keeps `R`, the bytes held and the
cell FG has read from. -/
theorem State.RxInRole.fifo_of_push {q : Ring} {l : DLoc} (hring : t.ring i .rx = q)
    (hd : t.dispAt i = some l) (hfg : t.fg = s.fg) (hwf : Memory.wf q.buf = true)
    (hpush : q.PushedByDispatcher (some l)) (hc : q.logC = (s.ring i .rx).logC)
    (hr : q.r = (s.ring i .rx).r) (hheld : (s.ring i .rx).contents <+: q.contents)
    (hcell : (s.ring i .rx).r < (s.ring i .rx).cap → (s.ring i .rx).occupancy ≠ 0#32 →
      Memory.read q.buf (s.ring i .rx).r.toNat = Memory.read (s.ring i .rx).buf (s.ring i .rx).r.toNat)
    (hmoves : State.RxMoves i s t) : State.RxFifo i s t :=
  ⟨.intro hring hd (by simp only [State.fgAt, hfg]) hwf hpush (hs.popped.of_push hc hr hheld hcell), hmoves⟩

/-- The dispatcher's micro-step: RB3 stores at `W`, which is no cell held; RB4 appends the byte in storage; RB5
moves no byte; every other leaves the ring alone. -/
theorem dispStepAt_rxFifo {l : DLoc} (hi : s.has i = true) (ha : s.active = some i)
    (hl : s.dloc = some l) (h0 : ∀ k, l.invokes = some k → (s.inst i).cb.get k = 0#32)
    (hroom : ∀ b w, l = .rb4 b w → (s.ring i .rx).occupancy.toNat + 1 < 2 ^ (s.ring i .rx).logC.val) :
    Ensures (dispStepAt i l s) (State.RxFifo i s) := by
  have hat := State.dispAt_of_active ha hl
  have hpush := hs.pushed
  rw [hat] at hpush
  have hsame : ∀ {t : State} {d : Option DLoc}, t.fg = s.fg → t.ring i .rx = s.ring i .rx →
      t.dispAt i = d → (s.ring i .rx).PushedByDispatcher d → State.RxFifo i s t :=
    fun hfg hring hd hp => hs.fifo_of_ring hring hd (by simp only [State.fgAt, hfg]) hp hs.popped
  have hto : ∀ {t : State} {l' : DLoc}, t.active = s.active → t.dloc = some l' → t.dispAt i = some l' :=
    fun h h' => State.dispAt_of_active (h.trans ha) h'
  cases l <;> simp only [dispStepAt, State.classify, ensures_next, ensures_popCell, ensures_pushCell]
  case c0 | c1 | c2 | c3 | c4 | tr1 | tr6 =>
    split <;> exact hsame rfl rfl (hto rfl rfl) hpush
  case c5 | tr7 => exact hsame rfl rfl (hto rfl rfl) hpush
  case ov1 | bk1 | pa2 | rb6 | tr9 =>
    rw [ensures_invoke_default (h0 _ rfl)]
    exact ⟨fun _ => hsame rfl rfl (hto rfl hl) hpush, fun _ => hsame rfl rfl (hto rfl rfl) hpush⟩
  case pa1 | rb1 | tr5 | tr8 =>
    exact hsame rfl (by simp [State.regReadEffect, State.regWrite]) (hto rfl rfl) hpush
  case x1 => exact hsame rfl rfl (State.dispAt_of_inactive rfl i) hpush
  case tr2 r =>
    exact ⟨fun _ => hsame rfl rfl (hto rfl rfl) hpush, fun _ => hsame rfl rfl (hto rfl hl) hpush⟩
  case tr3 | tr4 =>
    refine hsame rfl ?_ (hto rfl rfl) hpush
    simp [State.popIncrement, State.popMask, State.setRingR, State.ring_modRing_of_ne]
  case rb2 b => exact hsame rfl rfl (hto rfl rfl) ⟨rfl, hpush⟩
  case rb3 b w =>
    obtain ⟨rfl, hlt⟩ := hpush
    refine ⟨fun _ => ?_, fun hge => absurd hlt (BitVec.not_lt.2 hge)⟩
    have hring := State.ring_setCell_self (x := .rx) hi (s.ring i .rx).w b
    have hheld := Ring.contents_store hlt b
    refine hs.fifo_of_push hring (hto rfl rfl) rfl (Memory.write_wf _ _ hs.wf)
      ⟨rfl, hlt, Memory.read_write_self _ _ hs.wf⟩ rfl rfl (by rw [hheld]) (fun hr hne => ?_)
      (.inl ((congrArg Ring.contents hring).trans hheld))
    refine Memory.read_write_ne _ _ fun he => hne ?_
    exact (Ring.occupancy_eq_zero hlt hr).2 (BitVec.eq_of_toNat_eq he.symm)
  case rb4 b w =>
    obtain ⟨rfl, hlt, rfl⟩ := hpush
    have hring := State.ring_setRingW_self (x := .rx) hi ((s.ring i .rx).w + 1#32)
    obtain ⟨-, hheld⟩ := Ring.contents_pushIncrement hlt (hroom _ _ rfl)
    exact hs.fifo_of_push hring (hto rfl rfl) rfl hs.wf ⟨hlt, rfl⟩ rfl rfl
      (by rw [hheld]; exact List.prefix_append _ _) (fun _ _ => rfl)
      (.inr (.inl ⟨_, _, hat, (congrArg Ring.contents hring).trans hheld⟩))
  case rb5 b w =>
    obtain ⟨hlt, hw⟩ := hpush
    have hring := State.ring_setRingW_self (x := .rx) hi ((s.ring i .rx).wrap w)
    have hheld := Ring.contents_maskW hlt hw
    exact hs.fifo_of_push hring (hto rfl rfl) rfl hs.wf (Ring.wrap_lt_cap _ w) rfl rfl
      (by rw [hheld]) (fun _ _ => rfl) (.inl ((congrArg Ring.contents hring).trans hheld))

end

theorem State.RxFifo.settle {s t : State} {i : InstId} (h : State.RxFifo i s t) (b : Bool) (r : State) :
    State.RxFifo i s (r.settle b t) := by
  obtain ⟨hrole, hmoves⟩ := h
  refine ⟨.intro (State.settle_ring ..) (State.settle_dispAt ..) (by simp only [State.fgAt, State.settle_fg])
    hrole.wf hrole.pushed hrole.popped, ?_⟩
  simpa only [State.RxMoves, State.settle_ring] using hmoves

/-- Settles O56: FG's micro-step pops while no PUSH is under way, the dispatcher's pushes around FG's label, and no
other micro-step touches the ring or a label of its two agents' advances. -/
theorem receiveRingIsFifoUnderInterleaving : Obligations.ReceiveRingIsFifoUnderInterleaving := by
  intro s t i hs hi hr hop hroom h
  obtain ⟨l, d, b, u, rfl, ⟨op, hat, ha, hact, he⟩ | ⟨k, hact, hk, he⟩ | hb⟩ := step_agents h hr i
  · have hat' := State.eq_operation_of_busy hat
    exact State.RxFifo.settle (exec_foreground_rxFifo (s := { s with sched := l, draws := d }) hs hi
      (State.dispAt_of_inactive hact i) ha hat' (fun b hb => hop b (hb ▸ hat)) he) b _
  · exact State.RxFifo.settle (dispStepAt_rxFifo (s := { s with sched := l, draws := d }) hs hi hact hk
      (fun _ hk' => State.default_of_runsHandler hr hact hk hk')
      (fun b w hl => hroom b w (State.dispAt_of_active hact (hl ▸ hk))) u he) b _
  · exact State.RxFifo.settle (State.RxInRole.fifo_of_bystands (s := { s with sched := l, draws := d }) hs hb) b _

end Sys2Proof.Machine
end

section
/-! The critical section of SEND_ASYNC keeps it and the dispatcher's TransmitReady case apart (43_async.md R91). -/

namespace Sys2Proof.Machine

/-- While FG is inside the critical section of a SEND_ASYNC of peripheral `i`, TXEIE is 0 and the dispatcher of `i` is
not in its TransmitReady case. -/
def State.SendSection (s : State) (i : InstId) : Prop :=
  ∀ a n l, s.fg.loc = .busy (.sendAsync i a n) l → l.inSection = true →
    (s.inst i).ctrl.getLsbD 7 = false ∧ ∀ d, s.dispAt i = some d → d.transmits = false

/-- A masked write of CTRL with TXEIE cleared clears TXEIE. -/
theorem Inst.txeie_regWrite_clearBit (x : Inst) (v : Word) :
    (x.regWrite .ctrl (clearBit v Field.txeie.bit)).ctrl.getLsbD 7 = false := by
  have h := Inst.field_regWrite_ctrl x (clearBit v Field.txeie.bit) .txeie
  rw [getLsbD_clearBit _ Field.txeie.bit_lt] at h
  simpa [Inst.field, Field.bit] using h

theorem State.modRing_ctrl (s : State) (i j : InstId) (x : RingSel) (f : Ring → Ring) :
    ((s.modRing i x f).inst j).ctrl = (s.inst j).ctrl :=
  State.inst_modInst_rel (P := fun y z => z.ctrl = y.ctrl) s i j (fun _ => rfl)
    fun y => Inst.setRing_ctrl y x (f (y.ring x))

section
variable {s t : State} {i : InstId}

theorem State.SendSection.of_bystands (hs : s.SendSection i) (hb : s.Bystands i t) : t.SendSection i := by
  intro a n l hl hsec
  obtain ⟨hmask, hapart⟩ := hs a n l (hb.loc ▸ hl) hsec
  refine ⟨hb.txeie.trans hmask, fun d hd => ?_⟩
  rcases hb.disp with hsame | ⟨-, hc0⟩
  · exact hapart d (hsame ▸ hd)
  · cases hc0.symm.trans hd
    rfl

/-- A2 clears TXEIE, and no later step inside the section sets it. -/
theorem execSendAsync_masks {a n : Word} (hs : s.SendSection i) (hi : s.has i = true)
    (hat : ∀ o l, s.fg.loc = .busy o l → o = .sendAsync i a n) :
    Ensures (execSendAsync i a n s) (fun t => ∀ l, t.fg.loc = .busy (.sendAsync i a n) l →
      l.inSection = true → (t.inst i).ctrl.getLsbD 7 = false) := by
  rcases hl : s.fg.loc with _ | ⟨o, l⟩
  · simp only [execSendAsync, hl, ensures_begin, ensures_next]
    refine ⟨fun _ l' hl' hsec => ?_, fun h => absurd hi h⟩
    cases hl'
    cases hsec
  · obtain rfl := hat o l hl
    have hmask : l.inSection = true → (s.inst i).ctrl.getLsbD 7 = false := fun hsec => (hs a n l hl hsec).1
    cases l <;> simp only [execSendAsync, hl, ensures_refused, ensures_memRead, ensures_pushCell, ensures_next]
    case a2 v =>
      intro _ _ _
      rw [State.inst_goto, State.regWrite, State.inst_modInst_self hi]
      exact Inst.txeie_regWrite_clearBit _ v
    case a3 j => exact fun _ _ _ _ => hmask rfl
    case a4 | a8 => exact fun _ _ _ => hmask rfl
    case a5 j b w =>
      refine ⟨fun _ _ _ _ => ?_, fun _ _ _ _ => hmask rfl⟩
      rw [State.inst_goto, State.setCell, State.modRing_ctrl]
      exact hmask rfl
    case a6 | a7 =>
      intro _ _ _
      simp only [State.inst_goto, State.pushIncrement, State.pushMask, State.setRingW, State.modRing_ctrl]
      exact hmask rfl
    case a9 v => exact fun _ hl' _ => nomatch hl'

theorem exec_foreground_sendSection {op : Instr} (hs : s.SendSection i) (hi : s.has i = true)
    (hd : s.dispAt i = none) (ha : op.agent = .foreground) (hat : ∀ o l, s.fg.loc = .busy o l → o = op)
    (h : exec op s = .next t) : t.SendSection i := by
  intro a n l hl hsec
  have hdt := (exec_foreground_dispAt ha h i).trans hd
  refine ⟨?_, fun d hd' => nomatch hdt.symm.trans hd'⟩
  rcases exec_foreground_loc ha hat h with hstart | ⟨l', hbusy⟩
  · cases hstart.symm.trans hl
  · cases hbusy.symm.trans hl
    exact execSendAsync_masks hs hi hat t h l hl hsec

/-- With TXEIE 0 the dispatcher does not go into its TransmitReady case, and leaves TXEIE alone outside it. -/
theorem dispStepAt_keeps_apart {l : DLoc} (hi : s.has i = true) (ha : s.active = some i)
    (hl : s.dloc = some l) (h0 : ∀ k, l.invokes = some k → (s.inst i).cb.get k = 0#32)
    (hmask : (s.inst i).ctrl.getLsbD 7 = false) (hapart : l.transmits = false) :
    Ensures (dispStepAt i l s) (fun t => (t.inst i).ctrl.getLsbD 7 = false ∧
      ∀ d, t.dispAt i = some d → d.transmits = false) := by
  have hto : ∀ {t : State} {l' : DLoc}, (t.inst i).ctrl.getLsbD 7 = (s.inst i).ctrl.getLsbD 7 →
      t.active = s.active → t.dloc = some l' → l'.transmits = false →
      (t.inst i).ctrl.getLsbD 7 = false ∧ ∀ d, t.dispAt i = some d → d.transmits = false := by
    intro t l' hctrl hact hl' htr
    refine ⟨hctrl.trans hmask, fun d hd => ?_⟩
    cases (State.dispAt_of_active (hact.trans ha) hl').symm.trans hd
    exact htr
  have hupd : ∀ f : Inst → Inst, (f (s.inst i)).ctrl = (s.inst i).ctrl →
      ((s.modInst i f).inst i).ctrl.getLsbD 7 = (s.inst i).ctrl.getLsbD 7 := fun f hf => by
    rw [State.inst_modInst_self hi, hf]
  cases l <;> first | (cases hapart; done) | skip
  all_goals simp only [dispStepAt, State.classify, ensures_next, ensures_pushCell]
  case c0 | c1 | c2 | c3 => split <;> exact hto rfl rfl rfl rfl
  case c4 =>
    have hcause : (s.inst i).cause s.cfg .transmitReady = false := by
      simp only [Inst.cause, Inst.enabled, Inst.field, Field.bit, hmask, Bool.and_false]
    rw [hcause]
    exact hto rfl rfl rfl rfl
  case c5 | rb2 => exact hto rfl rfl rfl rfl
  case ov1 | bk1 | pa2 | rb6 | tr9 =>
    rw [ensures_invoke_default (h0 _ rfl)]
    exact ⟨fun _ => hto rfl rfl hl rfl, fun _ => hto rfl rfl rfl rfl⟩
  case pa1 | rb1 => exact hto (hupd _ (Inst.regReadEffect_ctrl ..)) rfl rfl rfl
  case rb3 => exact ⟨fun _ => hto (hupd _ rfl) rfl rfl rfl, fun _ => hto rfl rfl hl rfl⟩
  case rb4 | rb5 => exact hto (hupd _ rfl) rfl rfl rfl
  case x1 => exact ⟨hmask, fun d hd => nomatch (State.dispAt_of_inactive rfl i).symm.trans hd⟩

theorem dispStepAt_sendSection {l : DLoc} (hs : s.SendSection i) (hi : s.has i = true)
    (hr : s.runsHandler = false) (ha : s.active = some i) (hl : s.dloc = some l)
    (h : dispStepAt i l s = .next t) : t.SendSection i := by
  intro a n lab hlab hsec
  obtain ⟨hfg, -⟩ := dispStepAt_plain hr ha hl h
  obtain ⟨hmask, hapart⟩ := hs a n lab (hfg ▸ hlab) hsec
  exact dispStepAt_keeps_apart hi ha hl (fun _ hk => State.default_of_runsHandler hr ha hl hk) hmask
    (hapart l (State.dispAt_of_active ha hl)) t h

theorem State.SendSection.settle (hs : s.SendSection i) (b : Bool) (r : State) :
    (r.settle b s).SendSection i := by
  simpa only [State.SendSection, State.settle_fg, State.settle_ctrl, State.settle_dispAt] using hs

end

end Sys2Proof.Machine
end

section
/-! TX as a FIFO under interleaving (41_ring_buffer.md R84): each agent's micro-step keeps the agents in agreement
with the ring and changes its bytes at p3 and q3 only. -/

namespace Sys2Proof.Machine

/-- FG, inside the operation its location names, agrees with `TX[i]` as a producer of it. -/
def Ring.PushedInto (q : Ring) (m : Memory) (i : InstId) : FgLoc → Prop
  | .busy (.sendAsync j a _) l => if j = i then q.PushedByForeground m a l else q.w < q.cap
  | .busy (.rbPush j .tx b) l => if j = i then q.PushedDirectly b l else q.w < q.cap
  | _ => q.w < q.cap

section
variable {q : Ring} {m : Memory} {i : InstId}

theorem Ring.pushedInto_sendAsync {a n : Word} {l : Label} :
    q.PushedInto m i (.busy (.sendAsync i a n) l) ↔ q.PushedByForeground m a l := by
  simp [Ring.PushedInto]

theorem Ring.pushedInto_rbPush {b : Byte} {l : Label} :
    q.PushedInto m i (.busy (.rbPush i .tx b) l) ↔ q.PushedDirectly b l := by
  simp [Ring.PushedInto]

/-- Outside the producers of `TX[i]` no PUSH is under way. -/
theorem Ring.pushedInto_of_other {op : Instr} {loc : FgLoc} (hne : ringOf op ≠ some (i, .tx))
    (hl : loc = .start ∨ ∃ l, loc = .busy op l) : q.PushedInto m i loc ↔ q.w < q.cap := by
  rcases hl with rfl | ⟨l, rfl⟩
  · exact Iff.rfl
  · cases op <;> try exact Iff.rfl
    case rbPush j x b =>
      cases x
      · exact Iff.rfl
      · have hj : j ≠ i := fun hj => hne (by rw [hj]; rfl)
        simp [Ring.PushedInto, hj]
    case sendAsync j a n =>
      have hj : j ≠ i := fun hj => hne (by rw [hj]; rfl)
      simp [Ring.PushedInto, hj]

/-- `W` is at most the capacity, the transient value of a PUSH under way. -/
theorem Ring.PushedInto.w_le_cap {loc : FgLoc} (h : q.PushedInto m i loc) : q.w ≤ q.cap := by
  have hw : q.w < q.cap ∨ ∃ w, w < q.cap ∧ q.w = w + 1#32 := by
    unfold Ring.PushedInto at h
    split at h
    · split at h
      · unfold Ring.PushedByForeground at h
        split at h
        case h_1 => exact .inl h.2
        case h_2 => obtain ⟨-, rfl, hlt⟩ := h; exact .inl hlt
        case h_3 => obtain ⟨rfl, hlt, -⟩ := h; exact .inl hlt
        case h_4 => exact .inr ⟨_, h⟩
        case h_5 => exact .inl h
      · exact .inl h
    · split at h
      · unfold Ring.PushedDirectly at h
        split at h
        case h_1 => obtain ⟨rfl, hlt⟩ := h; exact .inl hlt
        case h_2 => obtain ⟨rfl, hlt, -⟩ := h; exact .inl hlt
        case h_3 => exact .inr ⟨_, h⟩
        case h_4 => exact .inl h
      · exact .inl h
    · exact .inl h
  rcases hw with hlt | ⟨w, hlt, hw⟩
  · exact BitVec.le_of_lt hlt
  · rw [hw]; exact Ring.succ_le_cap hlt

end

/-- `TX[i]` agrees with its agents: `State.TxInRole` without the critical section. -/
def State.TxAgrees (s : State) (i : InstId) : Prop :=
  Memory.wf (s.ring i .tx).buf = true ∧ (s.ring i .tx).PoppedByDispatcher (s.dispAt i) ∧
    (s.ring i .tx).PushedInto s.mem i s.fg.loc

theorem State.txInRole_iff (s : State) (i : InstId) : s.TxInRole i ↔ s.TxAgrees i ∧ s.SendSection i := by
  unfold State.TxInRole State.TxAgrees State.SendSection
  rcases hl : s.fg.loc with _ | ⟨op, l⟩
  · simp [State.ring, Inst.ring, Ring.PushedInto]
  · cases op
    case sendAsync j a n =>
      by_cases hj : j = i
      · subst hj; simp [State.ring, Inst.ring, Ring.PushedInto, and_assoc]
      · simp [State.ring, Inst.ring, Ring.PushedInto, hj]
    case rbPush j x b => cases x <;> simp [State.ring, Inst.ring, Ring.PushedInto]
    all_goals simp [State.ring, Inst.ring, Ring.PushedInto]


section
variable {s : State} {i : InstId} (hs : s.TxAgrees i)
include hs

theorem State.TxAgrees.wf : Memory.wf (s.ring i .tx).buf = true := hs.1

theorem State.TxAgrees.popped : (s.ring i .tx).PoppedByDispatcher (s.dispAt i) := hs.2.1

theorem State.TxAgrees.pushed : (s.ring i .tx).PushedInto s.mem i s.fg.loc := hs.2.2

end

theorem State.TxAgrees.intro {t : State} {i : InstId} {q : Ring} {d : Option DLoc}
    (hring : t.ring i .tx = q) (hd : t.dispAt i = d) (hwf : Memory.wf q.buf = true)
    (hpop : q.PoppedByDispatcher d) (hpush : q.PushedInto t.mem i t.fg.loc) : t.TxAgrees i := by
  subst hring hd
  exact ⟨hwf, hpop, hpush⟩

/-- The bytes of `TX[i]` go from `s` to `t` unchanged, by an append at p3 or by a take at q3. -/
def State.TxMoves (i : InstId) (s t : State) : Prop :=
  (t.ring i .tx).contents = (s.ring i .tx).contents ∨
  (∃ a n j w, s.fg.loc = .busy (.sendAsync i a n) (.a6 j w) ∧
    (t.ring i .tx).contents = (s.ring i .tx).contents ++ [Memory.read s.mem (bufAddr a j).toNat]) ∨
  (∃ b w, s.fg.loc = .busy (.rbPush i .tx b) (.u3 w) ∧
    (t.ring i .tx).contents = (s.ring i .tx).contents ++ [b]) ∨
  (∃ r b, s.dispAt i = some (.tr3 r b) ∧ (s.ring i .tx).contents = b :: (t.ring i .tx).contents)

/-- What the statement says of one step from `s` to `t`, the critical section apart. -/
def State.TxFifo (i : InstId) (s t : State) : Prop := t.TxAgrees i ∧ State.TxMoves i s t

section
variable {s t : State} {i : InstId} (hs : s.TxAgrees i)
include hs

/-- A micro-step that leaves the ring alone owes the agreement of the agents' new labels only. -/
theorem State.TxAgrees.fifo_of_ring {d : Option DLoc} (hring : t.ring i .tx = s.ring i .tx)
    (hd : t.dispAt i = d) (hpop : (s.ring i .tx).PoppedByDispatcher d)
    (hpush : (s.ring i .tx).PushedInto t.mem i t.fg.loc) : State.TxFifo i s t :=
  ⟨.intro hring hd hs.wf hpop hpush, .inl (by rw [hring])⟩

theorem State.TxAgrees.fifo_of_bystands (hb : s.Bystands i t) : State.TxFifo i s t := by
  have hpush : (s.ring i .tx).PushedInto t.mem i t.fg.loc := by rw [hb.mem, hb.loc]; exact hs.pushed
  have hpop := hs.popped
  rcases hb.disp with hd | ⟨hd, hd'⟩
  · exact hs.fifo_of_ring (hb.ring .tx) hd hpop hpush
  · rw [hd] at hpop
    exact hs.fifo_of_ring (hb.ring .tx) hd' hpop hpush

/-! FG's micro-steps, taken while no dispatcher is active -/

/-- An operation that does not work on `TX[i]` starts and ends outside its producers. -/
theorem exec_other_txFifo {op : Instr} (ha : op.agent = .foreground)
    (hat : ∀ o l, s.fg.loc = .busy o l → o = op) (hne : ringOf op ≠ some (i, .tx))
    (h : exec op s = .next t) : State.TxFifo i s t :=
  hs.fifo_of_ring (exec_ring_frame hne t h) (exec_foreground_dispAt ha h i) hs.popped
    ((Ring.pushedInto_of_other hne (exec_foreground_loc ha hat h)).2
      ((Ring.pushedInto_of_other hne (State.loc_cases hat)).1 hs.pushed))

section
variable (hi : s.has i = true) (hd : s.dispAt i = none)
include hd

theorem State.TxAgrees.r_lt_cap : (s.ring i .tx).r < (s.ring i .tx).cap := by
  have hpop := hs.popped
  rw [hd] at hpop
  exact hpop

/-- p2 stores the byte in the cell `W` addresses and changes no byte held. -/
theorem State.TxAgrees.fifo_of_store {b : Byte} (hlt : (s.ring i .tx).w < (s.ring i .tx).cap)
    (hring : t.ring i .tx = { s.ring i .tx with
      buf := Memory.write (s.ring i .tx).buf (s.ring i .tx).w.toNat b })
    (hdt : t.dispAt i = s.dispAt i)
    (hpush : Memory.read (Memory.write (s.ring i .tx).buf (s.ring i .tx).w.toNat b)
        (s.ring i .tx).w.toNat = b →
      ({ s.ring i .tx with buf := Memory.write (s.ring i .tx).buf (s.ring i .tx).w.toNat b } : Ring).PushedInto
        t.mem i t.fg.loc) : State.TxFifo i s t := by
  refine ⟨.intro hring (hdt.trans hd) (Memory.write_wf _ _ hs.wf) (hs.r_lt_cap hd)
    (hpush (Memory.read_write_self _ _ hs.wf)), .inl ?_⟩
  rw [hring]
  exact Ring.contents_store hlt b

/-- p3 appends the byte in storage. -/
theorem State.TxAgrees.fifo_of_pushIncrement (hlt : (s.ring i .tx).w < (s.ring i .tx).cap)
    (hroom : (s.ring i .tx).occupancy.toNat + 1 < 2 ^ (s.ring i .tx).logC.val)
    (hring : t.ring i .tx = { s.ring i .tx with w := (s.ring i .tx).w + 1#32 })
    (hdt : t.dispAt i = s.dispAt i)
    (hpush : ({ s.ring i .tx with w := (s.ring i .tx).w + 1#32 } : Ring).PushedInto t.mem i t.fg.loc)
    (hmoves : (t.ring i .tx).contents =
      (s.ring i .tx).contents ++ [Memory.read (s.ring i .tx).buf (s.ring i .tx).w.toNat] →
      State.TxMoves i s t) : State.TxFifo i s t := by
  refine ⟨.intro hring (hdt.trans hd) hs.wf (hs.r_lt_cap hd) hpush, hmoves ?_⟩
  rw [hring]
  exact (Ring.contents_pushIncrement hlt hroom).2

/-- p4 moves no byte and leaves `W` below the capacity. -/
theorem State.TxAgrees.fifo_of_pushMask {w : Word} (hlt : w < (s.ring i .tx).cap)
    (hw : (s.ring i .tx).w = w + 1#32)
    (hring : t.ring i .tx = { s.ring i .tx with w := (s.ring i .tx).wrap w })
    (hdt : t.dispAt i = s.dispAt i)
    (hpush : (s.ring i .tx).wrap w < (s.ring i .tx).cap →
      ({ s.ring i .tx with w := (s.ring i .tx).wrap w } : Ring).PushedInto t.mem i t.fg.loc) :
    State.TxFifo i s t := by
  refine ⟨.intro hring (hdt.trans hd) hs.wf (hs.r_lt_cap hd) (hpush (Ring.wrap_lt_cap _ w)), .inl ?_⟩
  rw [hring]
  exact Ring.contents_maskW hlt hw

include hi

/-- RB_PUSH stores its byte at U2 and appends it at U3. -/
theorem execRbPush_txFifo {b : Byte} (hat : ∀ o l, s.fg.loc = .busy o l → o = .rbPush i .tx b)
    (hroom : ∀ w, s.fg.loc = .busy (.rbPush i .tx b) (.u3 w) →
      (s.ring i .tx).occupancy.toNat + 1 < 2 ^ (s.ring i .tx).logC.val) :
    Ensures (execRbPush i .tx b s) (State.TxFifo i s) := by
  have hpush := hs.pushed
  rcases hl : s.fg.loc with _ | ⟨o, l⟩
  · rw [hl] at hpush
    simp only [execRbPush, hl, ensures_begin, ensures_next]
    refine ⟨fun _ => ?_, fun h => absurd hi h⟩
    exact hs.fifo_of_ring rfl rfl hs.popped (Ring.pushedInto_rbPush.2 ⟨rfl, hpush⟩)
  · obtain rfl := hat o l hl
    rw [hl, Ring.pushedInto_rbPush] at hpush
    cases l <;> simp only [execRbPush, hl, ensures_refused, ensures_pushCell, ensures_next]
    case u2 w =>
      obtain ⟨rfl, hlt⟩ := hpush
      refine ⟨fun _ => ?_, fun hge => absurd hlt (BitVec.not_lt.2 hge)⟩
      exact hs.fifo_of_store hd hlt (State.ring_setCell_self hi _ b) rfl fun hb =>
        Ring.pushedInto_rbPush.2 ⟨rfl, hlt, hb⟩
    case u3 w =>
      obtain ⟨rfl, hlt, rfl⟩ := hpush
      exact hs.fifo_of_pushIncrement hd hlt (hroom _ hl) (State.ring_setRingW_self hi _) rfl
        (Ring.pushedInto_rbPush.2 ⟨hlt, rfl⟩) fun hc => .inr (.inr (.inl ⟨_, _, hl, hc⟩))
    case u4 w =>
      obtain ⟨hlt, hw⟩ := hpush
      exact hs.fifo_of_pushMask hd hlt hw (State.ring_setRingW_self hi _) rfl id

/-- SEND_ASYNC stores the caller's byte at A5 and appends it at A6. -/
theorem execSendAsync_txFifo {a n : Word} (hat : ∀ o l, s.fg.loc = .busy o l → o = .sendAsync i a n)
    (hroom : ∀ j w, s.fg.loc = .busy (.sendAsync i a n) (.a6 j w) →
      (s.ring i .tx).occupancy.toNat + 1 < 2 ^ (s.ring i .tx).logC.val) :
    Ensures (execSendAsync i a n s) (State.TxFifo i s) := by
  have hpush := hs.pushed
  have hreg : ∀ v, (s.regWrite i .ctrl v).ring i .tx = s.ring i .tx := fun v => by
    simp [State.regWrite]
  have hto : ∀ {t : State} {l : Label}, t.ring i .tx = s.ring i .tx → t.dispAt i = s.dispAt i →
      t.fg.loc = .busy (.sendAsync i a n) l → (s.ring i .tx).PushedByForeground t.mem a l →
      State.TxFifo i s t := fun hring hdt hl hp =>
    hs.fifo_of_ring hring hdt hs.popped (by rw [hl]; exact Ring.pushedInto_sendAsync.2 hp)
  rcases hl : s.fg.loc with _ | ⟨o, l⟩
  · rw [hl] at hpush
    simp only [execSendAsync, hl, ensures_begin, ensures_next]
    exact ⟨fun _ => hto rfl rfl rfl hpush, fun h => absurd hi h⟩
  · obtain rfl := hat o l hl
    rw [hl, Ring.pushedInto_sendAsync] at hpush
    cases l <;> simp only [execSendAsync, hl, ensures_refused, ensures_memRead, ensures_pushCell, ensures_next]
    case a2 v => split <;> exact hto (hreg _) rfl rfl hpush
    case a3 j => exact fun _ => hto rfl rfl rfl ⟨rfl, hpush⟩
    case a4 j b =>
      obtain ⟨hb, hlt⟩ := hpush
      exact hto rfl rfl rfl ⟨hb, rfl, hlt⟩
    case a5 j b w =>
      obtain ⟨hb, rfl, hlt⟩ := hpush
      refine ⟨fun _ => ?_, fun hge => absurd hlt (BitVec.not_lt.2 hge)⟩
      exact hs.fifo_of_store hd hlt (State.ring_setCell_self hi _ b) rfl fun hstored =>
        Ring.pushedInto_sendAsync.2 ⟨rfl, hlt, hstored.trans hb.symm⟩
    case a6 j w =>
      obtain ⟨rfl, hlt, hb⟩ := hpush
      exact hs.fifo_of_pushIncrement hd hlt (hroom _ _ hl) (State.ring_setRingW_self hi _) rfl
        (Ring.pushedInto_sendAsync.2 ⟨hlt, rfl⟩) fun hc => .inr (.inl ⟨_, _, _, _, hl, by rw [hc, hb]⟩)
    case a7 j w =>
      obtain ⟨hlt, hw⟩ := hpush
      refine hs.fifo_of_pushMask hd hlt hw (State.ring_setRingW_self hi _) rfl fun hw' => ?_
      split <;> exact Ring.pushedInto_sendAsync.2 hw'
    case a8 => exact hto rfl rfl rfl hpush
    case a9 v => exact hs.fifo_of_ring (hreg _) rfl hs.popped hpush

/-- FG's operation is one of the two producers of `TX[i]`, the RB_POP left out, or works on another ring. -/
theorem exec_foreground_txFifo {op : Instr} (ha : op.agent = .foreground)
    (hat : ∀ o l, s.fg.loc = .busy o l → o = op) (hpop : op ≠ .rbPop i .tx)
    (hsend : ∀ a n j w, s.fg.loc = .busy (.sendAsync i a n) (.a6 j w) →
      (s.ring i .tx).occupancy.toNat + 1 < 2 ^ (s.ring i .tx).logC.val)
    (hpush : ∀ b w, s.fg.loc = .busy (.rbPush i .tx b) (.u3 w) →
      (s.ring i .tx).occupancy.toNat + 1 < 2 ^ (s.ring i .tx).logC.val)
    (h : exec op s = .next t) : State.TxFifo i s t := by
  by_cases hring : ringOf op = some (i, .tx)
  · cases op <;> first | (cases hring; done) | skip
    case rbPush b => cases hring; exact execRbPush_txFifo hs hi hd hat (hpush b) t h
    case rbPop => cases hring; exact absurd rfl hpop
    case sendAsync a n => cases hring; exact execSendAsync_txFifo hs hi hd hat (hsend a n) t h
  · exact exec_other_txFifo hs ha hat hring h

end

/-- TR1 reads `R` of a ring that holds a byte: `W` is `R` or the capacity where it holds none, and the second is the
state left out. -/
theorem State.TxAgrees.occupancy_ne_zero (hr : (s.ring i .tx).r < (s.ring i .tx).cap)
    (htransient : (s.ring i .tx).w = (s.ring i .tx).cap → (s.ring i .tx).occupancy ≠ 0#32)
    (he : ¬ (s.ring i .tx).empty = true) : (s.ring i .tx).occupancy ≠ 0#32 := by
  by_cases hw : (s.ring i .tx).w = (s.ring i .tx).cap
  · exact htransient hw
  · rw [ne_eq, Ring.occupancy_eq_zero (BitVec.lt_of_le_ne hs.pushed.w_le_cap hw) hr]
    simpa [Ring.empty] using he

/-- The dispatcher's micro-step: TR1 finds a byte held, TR2 reads the oldest, TR3 takes it, TR4 moves no byte; every
other leaves the ring alone. FG's agreement speaks of no `R`. -/
theorem dispStepAt_txFifo {l : DLoc} (hi : s.has i = true) (hr : s.runsHandler = false)
    (ha : s.active = some i) (hl : s.dloc = some l)
    (htransient : l = .tr1 → (s.ring i .tx).w = (s.ring i .tx).cap → (s.ring i .tx).occupancy ≠ 0#32) :
    Ensures (dispStepAt i l s) (State.TxFifo i s) := by
  have hat := State.dispAt_of_active ha hl
  have hpop := hs.popped
  rw [hat] at hpop
  have h0 : ∀ k, l.invokes = some k → (s.inst i).cb.get k = 0#32 := fun _ hk =>
    State.default_of_runsHandler hr ha hl hk
  have hsame : ∀ {t : State} {d : Option DLoc}, t.fg = s.fg → t.mem = s.mem →
      t.ring i .tx = s.ring i .tx → t.dispAt i = d → (s.ring i .tx).PoppedByDispatcher d →
      State.TxFifo i s t :=
    fun hfg hmem hring hd hp => hs.fifo_of_ring hring hd hp (by rw [hfg, hmem]; exact hs.pushed)
  have hto : ∀ {t : State} {l' : DLoc}, t.active = s.active → t.dloc = some l' → t.dispAt i = some l' :=
    fun h h' => State.dispAt_of_active (h.trans ha) h'
  cases l <;> simp only [dispStepAt, State.classify, ensures_next, ensures_popCell, ensures_pushCell]
  case c0 | c1 | c2 | c3 | c4 | tr6 =>
    split <;> exact hsame rfl rfl rfl (hto rfl rfl) hpop
  case c5 | tr7 | rb2 => exact hsame rfl rfl rfl (hto rfl rfl) hpop
  case ov1 | bk1 | pa2 | rb6 | tr9 =>
    rw [ensures_invoke_default (h0 _ rfl)]
    exact ⟨fun _ => hsame rfl rfl rfl (hto rfl hl) hpop, fun _ => hsame rfl rfl rfl (hto rfl rfl) hpop⟩
  case pa1 | rb1 | tr5 | tr8 =>
    exact hsame rfl rfl (by simp [State.regReadEffect, State.regWrite]) (hto rfl rfl) hpop
  case x1 => exact hsame rfl rfl rfl (State.dispAt_of_inactive rfl i) hpop
  case rb3 =>
    refine ⟨fun _ => hsame rfl rfl ?_ (hto rfl rfl) hpop, fun _ => hsame rfl rfl rfl (hto rfl hl) hpop⟩
    simp [State.setCell, State.ring_modRing_of_ne]
  case rb4 | rb5 =>
    refine hsame rfl rfl ?_ (hto rfl rfl) hpop
    simp [State.pushIncrement, State.pushMask, State.setRingW, State.ring_modRing_of_ne]
  case tr1 =>
    split
    · exact hsame rfl rfl rfl (hto rfl rfl) hpop
    · rename_i he
      exact hsame rfl rfl rfl (hto rfl rfl) ⟨rfl, hpop, hs.occupancy_ne_zero hpop (htransient rfl) he⟩
  case tr2 r =>
    obtain ⟨hr, hlt, hne⟩ := hpop
    refine ⟨fun _ => ?_, fun hge => absurd hlt (BitVec.not_lt.2 hge)⟩
    exact hsame rfl rfl rfl (hto rfl rfl) ⟨hr, hlt, hne, rfl⟩
  case tr3 r b =>
    obtain ⟨rfl, hlt, hne, rfl⟩ := hpop
    have hring := State.ring_setRingR_self (x := .tx) hi ((s.ring i .tx).r + 1#32)
    refine ⟨.intro hring (hto rfl rfl) hs.wf ⟨hlt, rfl⟩ hs.pushed, .inr (.inr (.inr ⟨_, _, hat, ?_⟩))⟩
    exact (Ring.contents_popIncrement hlt hne).trans (by rw [← hring]; rfl)
  case tr4 r b =>
    obtain ⟨hlt, hr⟩ := hpop
    have hring := State.ring_setRingR_self (x := .tx) hi ((s.ring i .tx).wrap r)
    exact ⟨.intro hring (hto rfl rfl) hs.wf (Ring.wrap_lt_cap _ r) hs.pushed,
      .inl ((congrArg Ring.contents hring).trans (Ring.contents_maskR hlt hr))⟩

end

theorem State.TxFifo.settle {s t : State} {i : InstId} (h : State.TxFifo i s t) (b : Bool) (r : State) :
    State.TxFifo i s (r.settle b t) := by
  obtain ⟨hrole, hmoves⟩ := h
  refine ⟨.intro (State.settle_ring ..) (State.settle_dispAt ..) hrole.wf hrole.popped ?_, ?_⟩
  · rw [State.settle_mem, State.settle_fg]
    exact hrole.pushed
  · simpa only [State.TxMoves, State.settle_ring] using hmoves

/-- Settles O57: FG's micro-step pushes while no dispatcher is active, the dispatcher's pops around FG's label, the
critical section keeps the dispatcher's POP out of a SEND_ASYNC, and no other micro-step touches the ring. -/
theorem transmitRingIsFifoUnderInterleaving : Obligations.TransmitRingIsFifoUnderInterleaving := by
  intro s t i hs hi hr hpop hsend hpush htransient h
  simp only [State.txInRole_iff] at hs ⊢
  obtain ⟨hagree, hsection⟩ := hs
  suffices hstep : t.SendSection i ∧ State.TxFifo i s t by
    obtain ⟨hsection', hagree', hmoves⟩ := hstep
    exact ⟨⟨hagree', hsection'⟩, hmoves⟩
  obtain ⟨l, d, b, u, rfl, hu⟩ := step_agents h hr i
  have hagree : State.TxAgrees { s with sched := l, draws := d } i := hagree
  have hsection : State.SendSection { s with sched := l, draws := d } i := hsection
  suffices hmicro : u.SendSection i ∧ State.TxFifo i { s with sched := l, draws := d } u by
    obtain ⟨hsection', hfifo⟩ := hmicro
    exact ⟨hsection'.settle b _, hfifo.settle b _⟩
  rcases hu with ⟨op, hat, ha, hact, he⟩ | ⟨k, hact, hk, he⟩ | hb
  · have hat' := State.eq_operation_of_busy hat
    have hd := State.dispAt_of_inactive hact i
    exact ⟨exec_foreground_sendSection hsection hi hd ha hat' he,
      exec_foreground_txFifo hagree hi hd ha hat' (fun hop => hpop (hop ▸ hat)) hsend hpush he⟩
  · exact ⟨dispStepAt_sendSection hsection hi hr hact hk he,
      dispStepAt_txFifo hagree hi hr hact hk
        (fun htr1 => htransient (State.dispAt_of_active hact (htr1 ▸ hk))) u he⟩
  · exact ⟨hsection.of_bystands hb, hagree.fifo_of_bystands hb⟩

end Sys2Proof.Machine
end

section
/-! RB_PUSH and RB_POP, each micro-step as an equation (41_ring_buffer.md R86, R87). -/

namespace Sys2Proof.Machine

/-- The frame of a micro-step that updates its peripheral by `f` and leaves FG's context at `g`. -/
theorem State.modInst_fg_frame {s : State} {i : InstId} (hi : s.has i = true) (f : Inst → Inst) (g : Fg) :
    let t : State := { s.modInst i f with fg := g }
    t.fg = g ∧ t.inst i = f (s.inst i) ∧ t.trace = s.trace ∧ SameMem s t ∧ SameElsewhere i s t :=
  ⟨rfl, State.inst_modInst_self hi f, rfl, fun _ => rfl, s.sameElsewhere_modInst i f⟩

section
variable {s : State} {i : InstId} {x : RingSel}

section
variable (hl : s.fg.loc = .start) (hi : s.has i = true)
include hl hi

theorem exec_rbPush_start (b : Byte) :
    exec (.rbPush i x b) s = .next (s.goto (.rbPush i x b) (.u2 (s.ring i x).w)) := by
  simp only [exec, execRbPush, hl, State.begin_of_has hi]

theorem exec_rbPop_start_empty (he : (s.ring i x).w = (s.ring i x).r) :
    exec (.rbPop i x) s = .next ((s.setOk false).setRes 0#32).finish := by
  simp [exec, execRbPop, hl, State.begin_of_has hi, Ring.empty, he]

theorem exec_rbPop_start (he : (s.ring i x).w ≠ (s.ring i x).r) :
    exec (.rbPop i x) s = .next (s.goto (.rbPop i x) (.v2 (s.ring i x).r)) := by
  simp [exec, execRbPop, hl, State.begin_of_has hi, Ring.empty, he]

end

section
variable {op : Instr}

theorem exec_rbPush_u2 {w : Word} (hl : s.fg.loc = .busy op (.u2 w)) (hw : w < (s.ring i x).cap) (b : Byte) :
    exec (.rbPush i x b) s = .next ((s.setCell i x w b).goto (.rbPush i x b) (.u3 w)) := by
  simp only [exec, execRbPush, hl, State.pushCell_of_lt hw]

theorem exec_rbPush_u3 {w : Word} (hl : s.fg.loc = .busy op (.u3 w)) (b : Byte) :
    exec (.rbPush i x b) s = .next ((s.pushIncrement i x w).goto (.rbPush i x b) (.u4 w)) := by
  simp only [exec, execRbPush, hl]

theorem exec_rbPush_u4 {w : Word} (hl : s.fg.loc = .busy op (.u4 w)) (b : Byte) :
    exec (.rbPush i x b) s = .next ((s.pushMask i x w).setOk true).finish := by
  simp only [exec, execRbPush, hl]

theorem exec_rbPop_v2 {r : Word} (hl : s.fg.loc = .busy op (.v2 r)) (hr : r < (s.ring i x).cap) :
    exec (.rbPop i x) s =
      .next (s.goto (.rbPop i x) (.v3 r (Memory.read (s.ring i x).buf r.toNat))) := by
  simp only [exec, execRbPop, hl, State.popCell_of_lt hr]

theorem exec_rbPop_v3 {r : Word} {b : Byte} (hl : s.fg.loc = .busy op (.v3 r b)) :
    exec (.rbPop i x) s = .next ((s.popIncrement i x r).goto (.rbPop i x) (.v4 r b)) := by
  simp only [exec, execRbPop, hl]

theorem exec_rbPop_v4 {r : Word} {b : Byte} (hl : s.fg.loc = .busy op (.v4 r b)) :
    exec (.rbPop i x) s = .next (((s.popMask i x r).setOk true).setRes (zext b)).finish := by
  simp only [exec, execRbPop, hl]

end
end

/-- Settles O12: U1 is a `goto` with `W`; U2, U3 and U4 are one update of the ring each. -/
theorem rbPushMicroSteps : Obligations.RbPushMicroSteps :=
  fun _ _ _ b hi =>
    ⟨fun hl => exec_rbPush_start hl hi b,
     fun _ _ hl hw => ⟨_, exec_rbPush_u2 hl (Ring.lt_cap_iff.2 hw) b, State.modInst_fg_frame hi _ _⟩,
     fun _ _ hl => ⟨_, exec_rbPush_u3 hl b, State.modInst_fg_frame hi _ _⟩,
     fun _ _ hl => ⟨_, exec_rbPush_u4 hl b, State.modInst_fg_frame hi _ _⟩⟩

/-- Settles O13: V1 ends the operation or is a `goto` with `R`, V2 a `goto` with the cell read; V3 and V4 are one
update of the ring each. -/
theorem rbPopMicroSteps : Obligations.RbPopMicroSteps :=
  fun _ _ _ hi =>
    ⟨fun hl he => exec_rbPop_start_empty hl hi he,
     fun hl he => exec_rbPop_start hl hi he,
     fun _ _ hl hr => exec_rbPop_v2 hl (Ring.lt_cap_iff.2 hr),
     fun _ _ _ hl => ⟨_, exec_rbPop_v3 hl, State.modInst_fg_frame hi _ _⟩,
     fun _ _ _ hl => ⟨_, exec_rbPop_v4 hl, State.modInst_fg_frame hi _ _⟩⟩

end Sys2Proof.Machine
end

section
/-! RB_PUSH and RB_POP with no step between their micro-steps (41_ring_buffer.md R80 to R85). -/

namespace Sys2Proof.Machine

theorem Inst.setRing_setRing (y : Inst) (x : RingSel) (p q : Ring) :
    (y.setRing x p).setRing x q = y.setRing x q := by cases x <;> rfl

theorem Inst.setRing_ring (y : Inst) (x : RingSel) : y.setRing x (y.ring x) = y := by cases x <;> rfl

/-- A ring after a whole PUSH: the byte stored at `W`, and `W` advanced. -/
def Ring.push (q : Ring) (b : Byte) : Ring :=
  { q with buf := Memory.write q.buf q.w.toNat b, w := q.wrap q.w }

/-- A ring after a whole POP: `R` advanced. -/
def Ring.pop (q : Ring) : Ring := { q with r := q.wrap q.r }

theorem Ring.push_inRange {q : Ring} (h : q.InRange) (b : Byte) : (q.push b).InRange :=
  ⟨q.wrap_lt_cap q.w, h.2⟩

theorem Ring.pop_inRange {q : Ring} (h : q.InRange) : q.pop.InRange := ⟨h.1, q.wrap_lt_cap q.r⟩

/-- The store, the increment and the mask of a PUSH together append its byte. -/
theorem Ring.contents_push {q : Ring} {b : Byte} (hw : q.w < q.cap) (hwf : Memory.wf q.buf = true)
    (hroom : q.occupancy.toNat + 1 < 2 ^ q.logC.val) : (q.push b).contents = q.contents ++ [b] := by
  let p : Ring := { q with buf := Memory.write q.buf q.w.toNat b }
  calc (q.push b).contents
      = ({ p with w := p.w + 1#32 } : Ring).contents :=
        Ring.contents_maskW (q := { p with w := p.w + 1#32 }) hw rfl
    _ = p.contents ++ [Memory.read p.buf p.w.toNat] := (Ring.contents_pushIncrement (q := p) hw hroom).2
    _ = q.contents ++ [b] := by rw [Ring.contents_store hw b, Memory.read_write_self _ _ hwf]

/-- At occupancy `C - 1` the advanced `W` meets `R`. -/
theorem Ring.push_w_of_full {q : Ring} (b : Byte) (h : q.InRange)
    (hfull : q.occupancy.toNat + 1 = 2 ^ q.logC.val) : (q.push b).w = q.r := by
  obtain ⟨hw, hr⟩ := h
  apply BitVec.eq_of_toNat_eq
  show (q.wrap q.w).toNat = q.r.toNat
  rw [Ring.wrap_toNat_eq hw, Nat.add_mod, ← q.occupancy_spec.2, ← Nat.add_mod, Nat.add_assoc, hfull,
    Nat.add_mod_right, Nat.mod_eq_of_lt (Ring.lt_cap_iff.1 hr)]

/-- With both indices below the capacity, a ring holds no byte exactly when they are equal. -/
theorem Ring.InRange.contents_eq_nil_iff {q : Ring} (h : q.InRange) : q.contents = [] ↔ q.w = q.r :=
  Ring.contents_eq_nil_iff.trans (Ring.occupancy_eq_zero h.1 h.2)

/-- The increment and the mask of a POP together take the byte in the cell `R` addresses. -/
theorem Ring.contents_eq_cons_pop {q : Ring} (h : q.InRange) (hne : q.contents ≠ []) :
    q.contents = Memory.read q.buf q.r.toNat :: q.pop.contents := by
  rw [Ring.contents_popIncrement h.2 (mt Ring.contents_eq_nil_iff.2 hne),
    ← Ring.contents_maskR (q := { q with r := q.r + 1#32 }) h.2 rfl]
  rfl

/-- From `s` to `t` one ring has become `q` and FG's context `g`, and nothing else has changed. -/
structure State.ReplacesRing (s : State) (i : InstId) (x : RingSel) (q : Ring) (g : Fg) (t : State) : Prop where
  fg : t.fg = g
  inst : t.inst i = (s.inst i).setRing x q
  trace : t.trace = s.trace
  mem : SameMem s t
  elsewhere : SameElsewhere i s t

section
variable {s t : State} {i : InstId} {x : RingSel} {q : Ring} {g : Fg}

theorem State.replacesRing_self (g : Fg) : s.ReplacesRing i x (s.ring i x) g { s with fg := g } :=
  ⟨rfl, (Inst.setRing_ring _ x).symm, rfl, fun _ => rfl, rfl, rfl, fun _ _ => rfl⟩

section
variable (h : s.ReplacesRing i x q g t)
include h

theorem State.ReplacesRing.ring : t.ring i x = q := by
  rw [State.ring, h.inst, Inst.ring_setRing_self]

theorem State.ReplacesRing.restore : (t.inst i).setRing x (s.ring i x) = s.inst i := by
  rw [h.inst, Inst.setRing_setRing]
  exact Inst.setRing_ring _ x

theorem State.ReplacesRing.fault : t.fault = s.fault := by
  obtain ⟨hrest, -⟩ := h.elsewhere
  have hfault := congrArg State.fault hrest
  exact hfault

/-- One more update of the ring. -/
theorem State.ReplacesRing.modRing (hi : s.has i = true) (f : Ring → Ring) (g' : Fg) :
    s.ReplacesRing i x (f q) g' { t.modRing i x f with fg := g' } := by
  obtain ⟨hrest, hlen, hothers⟩ := h.elsewhere
  have hti : t.has i = true := by rw [State.has_iff] at hi ⊢; exact hlen ▸ hi
  refine ⟨rfl, ?_, h.trace, h.mem, hrest, (List.length_modify ..).trans hlen, fun j hj => ?_⟩
  · have hring : (t.inst i).ring x = q := h.ring
    exact (State.inst_modInst_self hti _).trans (by rw [hring, h.inst, Inst.setRing_setRing])
  · exact (State.inst_modInst_of_ne hj _).trans (hothers j hj)

end
end

section
variable {s : State} {i : InstId} {x : RingSel} (hl : s.fg.loc = .start) (hi : s.has i = true)
  (hq : (s.ring i x).InRange)
include hl hi hq

/-- U1 to U4 with no step between are one PUSH. -/
theorem execTimes_rbPush (b : Byte) : ∃ t, execTimes 4 (.rbPush i x b) s = .next t ∧
    s.ReplacesRing i x ((s.ring i x).push b) { s.fg.next with ok := some true } t := by
  let op := Instr.rbPush i x b
  let w := (s.ring i x).w
  let s1 := s.goto op (.u2 w)
  let s2 := (s1.setCell i x w b).goto op (.u3 w)
  let s3 := (s2.pushIncrement i x w).goto op (.u4 w)
  have h1 : s.ReplacesRing i x (s.ring i x) (s.fg.at op (.u2 w)) s1 := State.replacesRing_self _
  have h2 : s.ReplacesRing i x _ (s.fg.at op (.u3 w)) s2 := h1.modRing hi _ _
  have h3 : s.ReplacesRing i x _ (s.fg.at op (.u4 w)) s3 := h2.modRing hi _ _
  have h4 : s.ReplacesRing i x _ { s.fg.next with ok := some true } ((s3.pushMask i x w).setOk true).finish :=
    h3.modRing hi (fun p => { p with w := (s3.ring i x).wrap w }) _
  rw [h3.ring] at h4
  have hu1 : exec op s = .next s1 := exec_rbPush_start hl hi b
  have hu2 : exec op s1 = .next s2 := exec_rbPush_u2 (s := s1) rfl hq.1 b
  have hu3 : exec op s2 = .next s3 := exec_rbPush_u3 (s := s2) rfl b
  have hu4 := exec_rbPush_u4 (s := s3) (i := i) (x := x) rfl b
  exact ⟨_, (execTimes_succ_of_next hu1 3).trans <| (execTimes_succ_of_next hu2 2).trans <|
    (execTimes_succ_of_next hu3 1).trans (execTimes_succ_of_next hu4 0), h4⟩

omit hq in
/-- V1 to V4 with no step between are one POP of a ring that holds a byte. -/
theorem execTimes_rbPop (hr : (s.ring i x).r < (s.ring i x).cap) (hne : (s.ring i x).w ≠ (s.ring i x).r) :
    ∃ t, execTimes 4 (.rbPop i x) s = .next t ∧ s.ReplacesRing i x (s.ring i x).pop
      { s.fg.next with
        ok := some true, res := some (zext (Memory.read (s.ring i x).buf (s.ring i x).r.toNat)) } t := by
  let op := Instr.rbPop i x
  let r := (s.ring i x).r
  let b := Memory.read (s.ring i x).buf r.toNat
  let s1 := s.goto op (.v2 r)
  let s2 := s1.goto op (.v3 r b)
  let s3 := (s2.popIncrement i x r).goto op (.v4 r b)
  have h2 : s.ReplacesRing i x (s.ring i x) (s.fg.at op (.v3 r b)) s2 := State.replacesRing_self _
  have h3 : s.ReplacesRing i x _ (s.fg.at op (.v4 r b)) s3 := h2.modRing hi _ _
  have h4 : s.ReplacesRing i x _ { s.fg.next with ok := some true, res := some (zext b) }
      (((s3.popMask i x r).setOk true).setRes (zext b)).finish :=
    h3.modRing hi (fun p => { p with r := (s3.ring i x).wrap r }) _
  rw [h3.ring] at h4
  have hv1 : exec op s = .next s1 := exec_rbPop_start hl hi hne
  have hv2 : exec op s1 = .next s2 := exec_rbPop_v2 (s := s1) rfl hr
  have hv3 : exec op s2 = .next s3 := exec_rbPop_v3 (s := s2) rfl
  have hv4 := exec_rbPop_v4 (s := s3) (i := i) (x := x) (r := r) (b := b) rfl
  exact ⟨_, (execTimes_succ_of_next hv1 3).trans <| (execTimes_succ_of_next hv2 2).trans <|
    (execTimes_succ_of_next hv3 1).trans (execTimes_succ_of_next hv4 0), h4⟩

end

/-- Settles O15: the four micro-steps are one PUSH, which appends its byte while the ring has room. -/
theorem pushAppendsItsByte : Obligations.PushAppendsItsByte := by
  intro s i x b hl hi hq hwf hroom
  obtain ⟨t, ht, h⟩ := execTimes_rbPush hl hi hq b
  refine ⟨t, ht, ?_, ?_, h.fg, h.restore, h.trace, h.mem, h.elsewhere⟩ <;> rw [h.ring]
  · exact Ring.contents_push hq.1 hwf hroom
  · exact Ring.push_inRange hq b

/-- Settles O16: V1 finds the indices equal exactly when the ring holds no byte; otherwise the four micro-steps are
one POP, which takes the oldest. -/
theorem popTakesTheOldestByte : Obligations.PopTakesTheOldestByte := by
  intro s i x hl hi hq
  refine ⟨fun hnil => exec_rbPop_start_empty hl hi (hq.contents_eq_nil_iff.1 hnil), fun b l hcons => ?_⟩
  have hne : (s.ring i x).contents ≠ [] := by simp [hcons]
  obtain ⟨t, ht, h⟩ := execTimes_rbPop hl hi hq.2 (mt hq.contents_eq_nil_iff.2 hne)
  obtain ⟨hb, hrest⟩ := List.cons.inj ((Ring.contents_eq_cons_pop hq hne).symm.trans hcons)
  rw [hb] at h
  refine ⟨t, ht, ?_, ?_, h.fg, h.restore, h.trace, h.mem, h.elsewhere⟩ <;> rw [h.ring]
  · exact hrest
  · exact Ring.pop_inRange hq

/-- Settles O17: the same PUSH at occupancy `C - 1` advances `W` onto `R`. -/
theorem pushOntoAFullRingEmptiesIt : Obligations.PushOntoAFullRingEmptiesIt := by
  intro s i x b hl hi hq hfull
  obtain ⟨t, ht, h⟩ := execTimes_rbPush hl hi hq b
  have hw := Ring.push_w_of_full b hq hfull
  refine ⟨t, ht, ?_, ?_, ?_, h.fg, h.fault, h.trace⟩ <;> rw [h.ring]
  · exact hw
  · rfl
  · exact (Ring.push_inRange hq b).contents_eq_nil_iff.2 hw

end Sys2Proof.Machine
end

section
/-! SEND_BLOCKING and RECV_BLOCKING, each micro-step as an equation (42_blocking.md R88, R89), and what an access
of the data register does to an instance (20_memory.md R48). -/

namespace Sys2Proof.Machine

/-! The data register -/

theorem extractLsb'_zext (b : Byte) : (zext b).extractLsb' 0 8 = b :=
  (BitVec.extractLsb'_setWidth_of_le (by decide)).trans BitVec.extractLsb'_eq_self

/-- Two bits cleared one after the other are one mask. -/
theorem clearBit_clearBit (v : Word) (m n : Nat) :
    clearBit (clearBit v m) n = v &&& ~~~(1#32 <<< m ||| 1#32 <<< n) := by
  rw [clearBit, clearBit, BitVec.and_assoc, BitVec.not_or]

theorem Inst.dataWrite_zext (x : Inst) (b : Byte) :
    x.dataWrite (zext b) = { x with tdr := b, stat := x.stat &&& ~~~0xC0#32 } := by
  simp only [Inst.dataWrite, Inst.clearFlag, extractLsb'_zext, clearBit_clearBit]
  rfl

theorem Inst.dataReadEffect_eq (cfg : Config) (x : Inst) : x.dataReadEffect cfg =
    { x with stat := x.stat &&& ~~~(if cfg.drReadClearsOre then 0x29#32 else 0x21#32) } := by
  have hpair : clearBit (clearBit x.stat Flag.rxne.bit) Flag.pe.bit = x.stat &&& ~~~0x21#32 :=
    clearBit_clearBit ..
  simp only [Inst.dataReadEffect, Inst.clearFlag, hpair]
  split
  · rw [clearBit, BitVec.and_assoc, ← BitVec.not_or]
    rfl
  · rfl

/-! The micro-steps -/

/-- A micro-step that ends its operation or goes on at a label differs in FG's context alone. -/
theorem State.finish_or_goto (c : Prop) [Decidable c] (s : State) (op : Instr) (l : Label) :
    (if c then .next s.finish else .next (s.goto op l) : Result) =
      .next { s with fg := if c then s.fg.next else s.fg.at op l } := by
  split <;> rfl

section
variable {s : State} {i : InstId}

section
variable (hl : s.fg.loc = .start) (hi : s.has i = true) (a n : Word)
include hl hi

theorem exec_sendBlocking_start : exec (.sendBlocking i a n) s =
    .next { s with fg := if n = 0#32 then s.fg.next else s.fg.at (.sendBlocking i a n) (.l1 0) } := by
  simp only [exec, execSendBlocking, hl, State.begin_of_has hi, State.finish_or_goto]

theorem exec_recvBlocking_start : exec (.recvBlocking i a n) s =
    .next { s with fg := if n = 0#32 then s.fg.next else s.fg.at (.recvBlocking i a n) (.m1 0) } := by
  simp only [exec, execRecvBlocking, hl, State.begin_of_has hi, State.finish_or_goto]

end

section
variable {op : Instr} {j : Nat} {b : Byte} {a : Word}

theorem exec_sendBlocking_l1 (hl : s.fg.loc = .busy op (.l1 j)) (a n : Word) :
    exec (.sendBlocking i a n) s =
      .next (s.goto (.sendBlocking i a n) (if (s.inst i).flag .txe then .l2 j else .l1 j)) := by
  simp only [exec, execSendBlocking, hl]

theorem exec_sendBlocking_l2 (hl : s.fg.loc = .busy op (.l2 j)) (hok : memOk s.cfg (bufAddr a j) = true)
    (n : Word) : exec (.sendBlocking i a n) s =
      .next (s.goto (.sendBlocking i a n) (.l3 j (Memory.read s.mem (bufAddr a j).toNat))) := by
  simp only [exec, execSendBlocking, hl, State.memRead_of_ok hok]

theorem exec_sendBlocking_l2_stuck (hl : s.fg.loc = .busy op (.l2 j))
    (hno : memOk s.cfg (bufAddr a j) = false) (n : Word) :
    exec (.sendBlocking i a n) s = .fault .fgStuck := by
  simp only [exec, execSendBlocking, hl, State.memRead_stuck hno]

theorem exec_sendBlocking_l3 (hl : s.fg.loc = .busy op (.l3 j b)) (a n : Word) :
    exec (.sendBlocking i a n) s = .next { s.regWrite i .data (zext b) with
      fg := if j + 1 = n.toNat then s.fg.next else s.fg.at (.sendBlocking i a n) (.l1 (j + 1)) } := by
  simp only [exec, execSendBlocking, hl, State.finish_or_goto]
  rfl

theorem exec_recvBlocking_m1 (hl : s.fg.loc = .busy op (.m1 j)) (a n : Word) :
    exec (.recvBlocking i a n) s =
      .next (s.goto (.recvBlocking i a n) (if (s.inst i).flag .rxne then .m2 j else .m1 j)) := by
  simp only [exec, execRecvBlocking, hl]

theorem exec_recvBlocking_m2 (hl : s.fg.loc = .busy op (.m2 j)) (a n : Word) :
    exec (.recvBlocking i a n) s =
      .next ((s.regReadEffect i .data).goto (.recvBlocking i a n) (.m3 j (s.inst i).rdr)) := by
  simp only [exec, execRecvBlocking, hl, State.regVal, Inst.reg, extractLsb'_zext]

theorem exec_recvBlocking_m3 (hl : s.fg.loc = .busy op (.m3 j b))
    (hok : memOk s.cfg (bufAddr a j) = true) (n : Word) :
    exec (.recvBlocking i a n) s = .next { s with
      mem := Memory.write s.mem (bufAddr a j).toNat b
      fg := if j + 1 = n.toNat then s.fg.next else s.fg.at (.recvBlocking i a n) (.m1 (j + 1)) } := by
  simp only [exec, execRecvBlocking, hl, State.memWrite_of_ok hok, State.finish_or_goto]

theorem exec_recvBlocking_m3_stuck (hl : s.fg.loc = .busy op (.m3 j b))
    (hno : memOk s.cfg (bufAddr a j) = false) (n : Word) :
    exec (.recvBlocking i a n) s = .fault .fgStuck := by
  simp only [exec, execRecvBlocking, hl, State.memWrite_stuck hno]

end
end

/-- Settles O21: L0 to L2 change FG's context alone or are stuck; L3 is one write of the data register. -/
theorem sendBlockingMicroSteps : Obligations.SendBlockingMicroSteps := by
  intro s i a n hi
  refine ⟨fun hl => exec_sendBlocking_start hl hi a n,
    fun _ _ hl => exec_sendBlocking_l1 hl a n,
    fun _ _ hl hok => exec_sendBlocking_l2 hl hok n,
    fun _ _ hl hno => exec_sendBlocking_l2_stuck hl hno n,
    fun _ _ _ hl => ⟨_, exec_sendBlocking_l3 hl a n, ?_⟩⟩
  rw [← Inst.dataWrite_zext]
  exact State.modInst_fg_frame hi _ _

/-- Settles O22: M0 and M1 change FG's context alone, M2 is one read of the data register, and M3 is one write of
memory or is stuck. -/
theorem recvBlockingMicroSteps : Obligations.RecvBlockingMicroSteps := by
  intro s i a n hi
  refine ⟨fun hl => exec_recvBlocking_start hl hi a n,
    fun _ _ hl => exec_recvBlocking_m1 hl a n,
    fun _ _ hl => ⟨_, exec_recvBlocking_m2 hl a n, ?_⟩,
    fun _ _ _ hl hwf hok => ⟨_, exec_recvBlocking_m3 hl hok n, rfl, Memory.read_write_self _ _ hwf,
      fun _ hc => Memory.read_write_ne _ _ hc, rfl, rfl, rfl, rfl, fun _ _ => rfl⟩,
    fun _ _ _ hl hno => exec_recvBlocking_m3_stuck hl hno n⟩
  rw [← Inst.dataReadEffect_eq]
  exact State.modInst_fg_frame hi _ _

end Sys2Proof.Machine
end

section
/-! SEND_ASYNC, RECV_ASYNC and SEND_BREAK, each micro-step as an equation (43_async.md R90, R92, R94). -/

namespace Sys2Proof.Machine

/-- A micro-step that ends its operation with a result or goes on at a label differs in FG's context alone. -/
theorem State.finishRes_or_goto (c : Prop) [Decidable c] (s : State) (v : Word) (op : Instr) (l : Label) :
    (if c then .next (s.setRes v).finish else .next (s.goto op l) : Result) =
      .next { s with fg := if c then { s.fg.next with res := some v } else s.fg.at op l } := by
  split <;> rfl

section
variable {s : State} {i : InstId}

section
variable (hl : s.fg.loc = .start) (hi : s.has i = true)
include hl hi

theorem exec_sendAsync_start (a n : Word) : exec (.sendAsync i a n) s =
    .next (s.goto (.sendAsync i a n) (.a2 (s.regVal i .ctrl))) := by
  simp only [exec, execSendAsync, hl, State.begin_of_has hi]

theorem exec_recvAsync_start (a n : Word) : exec (.recvAsync i a n) s = .next { s with
    fg := if n = 0#32 then { s.fg.next with res := some 0#32 }
      else s.fg.at (.recvAsync i a n) (.g1 0) } := by
  simp only [exec, execRecvAsync, hl, State.begin_of_has hi, State.finishRes_or_goto]

theorem exec_sendBreak_start : exec (.sendBreak i) s =
    .next (s.goto (.sendBreak i) (if (s.inst i).field .sbk then .b2 else .b3)) := by
  simp only [exec, execSendBreak, hl, State.begin_of_has hi]

end

section
variable {op : Instr} {j : Nat} {b : Byte} {w r v a : Word}

/-! SEND_ASYNC -/

theorem exec_sendAsync_a2 (hl : s.fg.loc = .busy op (.a2 v)) (a n : Word) : exec (.sendAsync i a n) s =
    .next ((s.regWrite i .ctrl (clearBit v Field.txeie.bit)).goto (.sendAsync i a n)
      (if n = 0#32 then .a8 else .a3 0)) := by
  simp only [exec, execSendAsync, hl]

theorem exec_sendAsync_a3 (hl : s.fg.loc = .busy op (.a3 j)) (hok : memOk s.cfg (bufAddr a j) = true)
    (n : Word) : exec (.sendAsync i a n) s =
      .next (s.goto (.sendAsync i a n) (.a4 j (Memory.read s.mem (bufAddr a j).toNat))) := by
  simp only [exec, execSendAsync, hl, State.memRead_of_ok hok]

theorem exec_sendAsync_a3_stuck (hl : s.fg.loc = .busy op (.a3 j))
    (hno : memOk s.cfg (bufAddr a j) = false) (n : Word) :
    exec (.sendAsync i a n) s = .fault .fgStuck := by
  simp only [exec, execSendAsync, hl, State.memRead_stuck hno]

theorem exec_sendAsync_a4 (hl : s.fg.loc = .busy op (.a4 j b)) (a n : Word) :
    exec (.sendAsync i a n) s =
      .next (s.goto (.sendAsync i a n) (.a5 j b (s.ring i .tx).w)) := by
  simp only [exec, execSendAsync, hl]

theorem exec_sendAsync_a5 (hl : s.fg.loc = .busy op (.a5 j b w)) (hw : w < (s.ring i .tx).cap) (a n : Word) :
    exec (.sendAsync i a n) s =
      .next ((s.setCell i .tx w b).goto (.sendAsync i a n) (.a6 j w)) := by
  simp only [exec, execSendAsync, hl, State.pushCell_of_lt hw]

theorem exec_sendAsync_a6 (hl : s.fg.loc = .busy op (.a6 j w)) (a n : Word) :
    exec (.sendAsync i a n) s =
      .next ((s.pushIncrement i .tx w).goto (.sendAsync i a n) (.a7 j w)) := by
  simp only [exec, execSendAsync, hl]

theorem exec_sendAsync_a7 (hl : s.fg.loc = .busy op (.a7 j w)) (a n : Word) :
    exec (.sendAsync i a n) s = .next ((s.pushMask i .tx w).goto (.sendAsync i a n)
      (if j + 1 < n.toNat then .a3 (j + 1) else .a8)) := by
  simp only [exec, execSendAsync, hl]

theorem exec_sendAsync_a8 (hl : s.fg.loc = .busy op .a8) (a n : Word) :
    exec (.sendAsync i a n) s = .next (s.goto (.sendAsync i a n) (.a9 (s.regVal i .ctrl))) := by
  simp only [exec, execSendAsync, hl]

theorem exec_sendAsync_a9 (hl : s.fg.loc = .busy op (.a9 v)) (a n : Word) :
    exec (.sendAsync i a n) s = .next (s.regWrite i .ctrl (setBit v Field.txeie.bit)).finish := by
  simp only [exec, execSendAsync, hl]

/-! RECV_ASYNC -/

theorem exec_recvAsync_g1 (hl : s.fg.loc = .busy op (.g1 j)) (a n : Word) :
    exec (.recvAsync i a n) s = .next { s with
      fg := if (s.ring i .rx).w = (s.ring i .rx).r then { s.fg.next with res := some (BitVec.ofNat 32 j) }
        else s.fg.at (.recvAsync i a n) (.g2 j (s.ring i .rx).r) } := by
  simp only [exec, execRecvAsync, hl, Ring.empty, decide_eq_true_eq, State.finishRes_or_goto]

theorem exec_recvAsync_g2 (hl : s.fg.loc = .busy op (.g2 j r)) (hr : r < (s.ring i .rx).cap) (a n : Word) :
    exec (.recvAsync i a n) s =
      .next (s.goto (.recvAsync i a n) (.g3 j r (Memory.read (s.ring i .rx).buf r.toNat))) := by
  simp only [exec, execRecvAsync, hl, State.popCell_of_lt hr]

theorem exec_recvAsync_g3 (hl : s.fg.loc = .busy op (.g3 j r b)) (a n : Word) :
    exec (.recvAsync i a n) s =
      .next ((s.popIncrement i .rx r).goto (.recvAsync i a n) (.g4 j r b)) := by
  simp only [exec, execRecvAsync, hl]

theorem exec_recvAsync_g4 (hl : s.fg.loc = .busy op (.g4 j r b)) (a n : Word) :
    exec (.recvAsync i a n) s =
      .next ((s.popMask i .rx r).goto (.recvAsync i a n) (.g5 j b)) := by
  simp only [exec, execRecvAsync, hl]

theorem exec_recvAsync_g5 (hl : s.fg.loc = .busy op (.g5 j b)) (hok : memOk s.cfg (bufAddr a j) = true)
    (n : Word) : exec (.recvAsync i a n) s = .next { s with
      mem := Memory.write s.mem (bufAddr a j).toNat b
      fg := if j + 1 = n.toNat then { s.fg.next with res := some (BitVec.ofNat 32 (j + 1)) }
        else s.fg.at (.recvAsync i a n) (.g1 (j + 1)) } := by
  simp only [exec, execRecvAsync, hl, State.memWrite_of_ok hok, State.finishRes_or_goto]

theorem exec_recvAsync_g5_stuck (hl : s.fg.loc = .busy op (.g5 j b))
    (hno : memOk s.cfg (bufAddr a j) = false) (n : Word) :
    exec (.recvAsync i a n) s = .fault .fgStuck := by
  simp only [exec, execRecvAsync, hl, State.memWrite_stuck hno]

/-! SEND_BREAK -/

theorem exec_sendBreak_b2 (hl : s.fg.loc = .busy op .b2) : exec (.sendBreak i) s =
    .next (s.goto (.sendBreak i) (if (s.inst i).field .sbk then .b2 else .b3)) := by
  simp only [exec, execSendBreak, hl]

theorem exec_sendBreak_b3 (hl : s.fg.loc = .busy op .b3) :
    exec (.sendBreak i) s = .next (s.goto (.sendBreak i) (.b4 (s.regVal i .ctrl))) := by
  simp only [exec, execSendBreak, hl]

theorem exec_sendBreak_b4 (hl : s.fg.loc = .busy op (.b4 v)) :
    exec (.sendBreak i) s = .next (s.regWrite i .ctrl (setBit v Field.sbk.bit)).finish := by
  simp only [exec, execSendBreak, hl]

end
end

/-- Settles O23: A1, A3, A4 and A8 change FG's context alone or are stuck, A2 and A9 are one masked write of CTRL
each, and A5 to A7 one update of TX each. -/
theorem sendAsyncMicroSteps : Obligations.SendAsyncMicroSteps :=
  fun _ _ a n hi =>
    ⟨fun hl => exec_sendAsync_start hl hi a n,
     fun _ _ hl => ⟨_, exec_sendAsync_a2 hl a n, State.modInst_fg_frame hi _ _⟩,
     fun _ _ hl hok => exec_sendAsync_a3 hl hok n,
     fun _ _ hl hno => exec_sendAsync_a3_stuck hl hno n,
     fun _ _ _ hl => exec_sendAsync_a4 hl a n,
     fun _ _ _ _ hl hw => ⟨_, exec_sendAsync_a5 hl (Ring.lt_cap_iff.2 hw) a n, State.modInst_fg_frame hi _ _⟩,
     fun _ _ _ hl => ⟨_, exec_sendAsync_a6 hl a n, State.modInst_fg_frame hi _ _⟩,
     fun _ _ _ hl => ⟨_, exec_sendAsync_a7 hl a n, State.modInst_fg_frame hi _ _⟩,
     fun _ hl => exec_sendAsync_a8 hl a n,
     fun _ _ hl => ⟨_, exec_sendAsync_a9 hl a n, State.modInst_fg_frame hi _ _⟩⟩

/-- Settles O25: G0, G1 and G2 change FG's context alone, G3 and G4 are one update of RX each, and G5 is one write
of memory or is stuck. -/
theorem recvAsyncMicroSteps : Obligations.RecvAsyncMicroSteps :=
  fun _ _ a n hi =>
    ⟨fun hl => exec_recvAsync_start hl hi a n,
     fun _ _ hl => exec_recvAsync_g1 hl a n,
     fun _ _ _ hl hr => exec_recvAsync_g2 hl (Ring.lt_cap_iff.2 hr) a n,
     fun _ _ _ _ hl => ⟨_, exec_recvAsync_g3 hl a n, State.modInst_fg_frame hi _ _⟩,
     fun _ _ _ _ hl => ⟨_, exec_recvAsync_g4 hl a n, State.modInst_fg_frame hi _ _⟩,
     fun _ _ _ hl hwf hok => ⟨_, exec_recvAsync_g5 hl hok n, rfl, Memory.read_write_self _ _ hwf,
       fun _ hc => Memory.read_write_ne _ _ hc, rfl, rfl, rfl, rfl, fun _ _ => rfl⟩,
     fun _ _ _ hl hno => exec_recvAsync_g5_stuck hl hno n⟩

/-- Settles O27: B1 to B3 change FG's context alone; B4 is one masked write of CTRL. -/
theorem sendBreakMicroSteps : Obligations.SendBreakMicroSteps :=
  fun _ _ hi =>
    ⟨fun hl => exec_sendBreak_start hl hi,
     fun _ hl => exec_sendBreak_b2 hl,
     fun _ hl => exec_sendBreak_b3 hl,
     fun _ _ hl => ⟨_, exec_sendBreak_b4 hl, State.modInst_fg_frame hi _ _⟩⟩

end Sys2Proof.Machine
end

section
/-! Inside the critical section of SEND_ASYNC every step keeps TXEIE 0 (43_async.md R91), wherever the dispatcher
stands. -/

namespace Sys2Proof.Machine

theorem State.sendMasked_iff (s : State) : s.SendMasked ↔ ∀ i a n l,
    s.fg.loc = .busy (.sendAsync i a n) l → l.inSection = true → (s.inst i).ctrl.getLsbD 7 = false := by
  unfold State.SendMasked
  split
  case h_1 i a n l hl =>
    refine ⟨fun h i' a' n' l' hl' => ?_, fun h => h i a n l hl⟩
    cases hl.symm.trans hl'
    exact h
  case h_2 hne => exact ⟨fun _ i a n l hl => absurd hl (hne i a n l), fun _ => trivial⟩

theorem State.inst_of_absent {s : State} {i : InstId} (h : s.has i = false) : s.inst i = Inst.absent :=
  List.getD_eq_default _ _ (by simpa [State.has] using h)

theorem step_has {s t : State} (h : step s = .next t) (i : InstId) : t.has i = s.has i := by
  simp only [State.has, (step_change h).length_eq]

section
variable {s t : State} {i : InstId}

/-- A dispatcher's micro-step that runs no user handler does not set its peripheral's TXEIE: TR8 clears it, and
every other keeps CTRL. -/
theorem dispStepAt_txeie {l : DLoc} (hi : s.has i = true)
    (h0 : ∀ k, l.invokes = some k → (s.inst i).cb.get k = 0#32) (hmask : (s.inst i).ctrl.getLsbD 7 = false) :
    Ensures (dispStepAt i l s) (fun t => (t.inst i).ctrl.getLsbD 7 = false) := by
  have hupd : ∀ f : Inst → Inst, (f (s.inst i)).ctrl = (s.inst i).ctrl →
      ((s.modInst i f).inst i).ctrl.getLsbD 7 = false := fun f hf => by
    rw [State.inst_modInst_self hi, hf, hmask]
  cases l <;> simp only [dispStepAt, State.classify, ensures_next, ensures_pushCell, ensures_popCell]
  case c0 | c1 | c2 | c3 | c4 | c5 | rb2 | tr1 | tr6 | tr7 | x1 => exact hmask
  case ov1 | bk1 | pa2 | rb6 | tr9 =>
    rw [ensures_invoke_default (h0 _ rfl)]
    exact ⟨fun _ => hmask, fun _ => hmask⟩
  case pa1 | rb1 => exact hupd _ (Inst.regReadEffect_ctrl ..)
  case rb3 => exact ⟨fun _ => hupd _ rfl, fun _ => hmask⟩
  case rb4 | rb5 | tr3 | tr4 | tr5 => exact hupd _ rfl
  case tr2 => exact ⟨fun _ => hmask, fun _ => hmask⟩
  case tr8 v =>
    rw [State.inst_dgoto, State.regWrite, State.inst_modInst_self hi]
    exact Inst.txeie_regWrite_clearBit _ v

end

/-- Settles O55: FG's micro-step keeps its own section, since no dispatcher is active at it; the dispatcher never
sets TXEIE; and no other micro-step moves FG or TXEIE. -/
theorem stepKeepsTheSendMask : Obligations.StepKeepsTheSendMask := by
  intro s t hs hr h
  rw [State.sendMasked_iff] at hs ⊢
  intro i a n lab hlab hsec
  by_cases hi : s.has i = true
  · obtain ⟨l, d, b, u, rfl, hu⟩ := step_agents h hr i
    rw [State.settle_fg] at hlab
    rw [State.settle_ctrl]
    rcases hu with ⟨op, hat, ha, hact, he⟩ | ⟨k, hact, hk, he⟩ | hb
    · have hd := State.dispAt_of_inactive hact i
      have hsection : State.SendSection { s with sched := l, draws := d } i := fun a' n' l' hl' hsec' =>
        ⟨hs i a' n' l' hl' hsec', fun k hk => nomatch hd.symm.trans hk⟩
      have hkept := exec_foreground_sendSection hsection hi hd ha (State.eq_operation_of_busy hat) he
      exact (hkept a n lab hlab hsec).1
    · obtain ⟨hfg, -⟩ := dispStepAt_plain (s := { s with sched := l, draws := d }) hr hact hk he
      exact dispStepAt_txeie (s := { s with sched := l, draws := d }) hi
        (fun _ hk' => State.default_of_runsHandler hr hact hk hk') (hs i a n lab (hfg ▸ hlab) hsec) u he
    · exact hb.txeie.trans (hs i a n lab (hb.loc ▸ hlab) hsec)
  · rw [State.inst_of_absent ((step_has h i).trans (Bool.eq_false_iff.2 hi))]
    rfl

end Sys2Proof.Machine
end

section
/-! A peripheral's transfer with no step of another agent between: each state on the way differs from the first in
the one peripheral, FG's context and memory. -/

namespace Sys2Proof.Machine

theorem execTimes_of_next {op : Instr} {s t : State} {m : Nat} (h : execTimes m op s = .next t) (k : Nat) :
    execTimes (m + k) op s = execTimes k op t := by
  induction m generalizing s with
  | zero =>
    cases h
    rw [Nat.zero_add]
  | succ m ih =>
    rw [execTimes] at h
    split at h
    · rename_i u hu
      rw [Nat.succ_add, execTimes_succ_of_next hu]
      exact ih h
    · cases h
    · cases h

/-- The state with peripheral `i`, FG's context and memory replaced. -/
def State.put (s : State) (i : InstId) (y : Inst) (g : Fg) (m : Memory) : State :=
  { s.modInst i (fun _ => y) with fg := g, mem := m }

section
variable (s : State) (i : InstId) (y : Inst) (g : Fg) (m : Memory)

/-- A change of FG's context alone. -/
theorem State.put_fg : s.put i (s.inst i) g s.mem = { s with fg := g } := by
  have hinsts : s.insts.modify i.val (fun _ => s.inst i) = s.insts := by
    apply List.ext_getElem?
    intro k
    rw [List.getElem?_modify]
    by_cases hk : i.val = k
    · subst hk
      cases hget : s.insts[i.val]? <;> simp [State.inst, List.getD_eq_getElem?_getD, hget]
    · simp [hk]
  show { s with insts := s.insts.modify i.val (fun _ => s.inst i), fg := g } = ({ s with fg := g } : State)
  rw [hinsts]

/-- An update of the peripheral. -/
theorem State.modInst_put (f : Inst → Inst) : (s.put i y g m).modInst i f = s.put i (f y) g m := by
  have h := s.modInst_modInst i (fun _ => y) f
  show ({ (s.modInst i fun _ => y).modInst i f with fg := g, mem := m } : State) = _
  rw [h]
  rfl

variable {i} (hi : s.has i = true)
include hi

theorem State.inst_put : (s.put i y g m).inst i = y := State.inst_modInst_self hi _

theorem State.ring_put (x : RingSel) : (s.put i y g m).ring i x = y.ring x := by
  rw [State.ring, s.inst_put y g m hi]

end

/-- What a transfer that ends in `s.put i y g m` leaves alone. -/
theorem State.put_frame {s : State} {i : InstId} (hi : s.has i = true) (y : Inst) (g : Fg) (m : Memory) :
    let t := s.put i y g m
    t.fg = g ∧ t.inst i = y ∧ t.mem = m ∧ t.trace = s.trace ∧ SameElsewhere i s t :=
  ⟨rfl, s.inst_put y g m hi, rfl, rfl, s.sameElsewhere_modInst i _⟩

theorem toNat_pos_of_ne_zero {n : Word} (hn : n ≠ 0#32) : 0 < n.toNat :=
  Nat.pos_of_ne_zero fun h => hn (BitVec.eq_of_toNat_eq h)

theorem bufAddr_injective {a : Word} {j k : Nat} (hj : j < 2 ^ 32) (hk : k < 2 ^ 32)
    (h : bufAddr a j = bufAddr a k) : j = k := by
  have hofNat := congrArg BitVec.toNat (BitVec.add_right_inj _ |>.1 h)
  rwa [BitVec.toNat_ofNat, BitVec.toNat_ofNat, Nat.mod_eq_of_lt hj, Nat.mod_eq_of_lt hk] at hofNat

end Sys2Proof.Machine
end

section
/-! An uninterrupted SEND_ASYNC (43_async.md R90, 41_ring_buffer.md R84). -/

namespace Sys2Proof.Machine

/-- As many PUSHes as there are bytes, while they fit, append the bytes. -/
theorem Ring.contents_foldl_push {q : Ring} {bs : List Byte} (hq : q.InRange) (hwf : Memory.wf q.buf = true)
    (hroom : q.occupancy.toNat + bs.length < 2 ^ q.logC.val) :
    (bs.foldl Ring.push q).contents = q.contents ++ bs ∧ (bs.foldl Ring.push q).InRange := by
  induction bs generalizing q with
  | nil => exact ⟨(List.append_nil _).symm, hq⟩
  | cons b bs ih =>
    rw [List.length_cons] at hroom
    have hpush := Ring.contents_push (b := b) hq.1 hwf (by omega)
    have hocc : (q.push b).occupancy.toNat = q.occupancy.toNat + 1 := by
      rw [← Ring.length_contents, hpush, List.length_append, Ring.length_contents, List.length_singleton]
    obtain ⟨hcont, hrange⟩ := ih (q := q.push b) (Ring.push_inRange hq b) (Memory.write_wf _ _ hwf)
      (by rw [hocc]; show _ < 2 ^ q.logC.val; omega)
    refine ⟨?_, hrange⟩
    rw [List.foldl_cons, hcont, hpush, List.append_assoc, List.singleton_append]

/-- Clearing TXEIE and setting it again, through masked reads and writes of CTRL, is one masked write that sets it. -/
theorem setBit_clearBit_masked (v mask : Word) {n : Nat} (hn : n < 32) :
    setBit ((clearBit (v &&& mask) n &&& mask) &&& mask) n &&& mask = setBit v n &&& mask := by
  apply BitVec.eq_of_getLsbD_eq
  intro k _
  simp only [BitVec.getLsbD_and, getLsbD_setBit _ hn, getLsbD_clearBit _ hn]
  by_cases hk : k = n
  · simp [hk]
  · cases mask.getLsbD k <;> simp [hk]

section
variable {s : State} {i : InstId} {a n : Word} (hi : s.has i = true)
include hi

/-- A3 to A7 with no step between are one PUSH of the caller's `j`-th byte. -/
theorem execTimes_sendAsync_byte {y : Inst} {j : Nat} (hok : memOk s.cfg (bufAddr a j) = true)
    (hw : y.tx.w < y.tx.cap) (g : Fg) (m : Memory) :
    execTimes 5 (.sendAsync i a n) (s.put i y (g.at (.sendAsync i a n) (.a3 j)) m) =
      .next (s.put i { y with tx := y.tx.push (Memory.read m (bufAddr a j).toNat) }
        (g.at (.sendAsync i a n) (if j + 1 < n.toNat then .a3 (j + 1) else .a8)) m) := by
  let op := Instr.sendAsync i a n
  let b := Memory.read m (bufAddr a j).toNat
  let w := y.tx.w
  let y5 := { y with tx := { y.tx with buf := Memory.write y.tx.buf w.toNat b } }
  let y6 := { y5 with tx := { y5.tx with w := w + 1#32 } }
  have h3 : exec op (s.put i y (g.at op (.a3 j)) m) = .next (s.put i y (g.at op (.a4 j b)) m) :=
    exec_sendAsync_a3 (s := s.put i y (g.at op (.a3 j)) m) rfl hok n
  have h4 : exec op (s.put i y (g.at op (.a4 j b)) m) = .next (s.put i y (g.at op (.a5 j b w)) m) := by
    rw [exec_sendAsync_a4 rfl, s.ring_put _ _ _ hi]
    rfl
  have h5 : exec op (s.put i y (g.at op (.a5 j b w)) m) = .next (s.put i y5 (g.at op (.a6 j w)) m) := by
    rw [exec_sendAsync_a5 rfl (by rw [s.ring_put _ _ _ hi]; exact hw), State.setCell_eq_modInst,
      State.modInst_put]
    rfl
  have h6 : exec op (s.put i y5 (g.at op (.a6 j w)) m) = .next (s.put i y6 (g.at op (.a7 j w)) m) := by
    rw [exec_sendAsync_a6 rfl, State.pushIncrement_eq_setRingW, State.setRingW_eq_modInst, State.modInst_put]
    rfl
  have h7 := exec_sendAsync_a7 (s := s.put i y6 (g.at op (.a7 j w)) m) (i := i) rfl a n
  rw [State.pushMask_eq_setRingW, s.ring_put _ _ _ hi, State.setRingW_eq_modInst, State.modInst_put] at h7
  exact (execTimes_succ_of_next h3 4).trans <| (execTimes_succ_of_next h4 3).trans <|
    (execTimes_succ_of_next h5 2).trans <| (execTimes_succ_of_next h6 1).trans (execTimes_succ_of_next h7 0)

/-- From byte `j` on, the remaining `k` bytes are pushed one after another. -/
theorem execTimes_sendAsync_bytes {y : Inst} {j k : Nat} (hk : j + k = n.toNat)
    (hok : ∀ l, l < n.toNat → memOk s.cfg (bufAddr a l) = true) (hq : y.tx.InRange) (g : Fg) (m : Memory) :
    execTimes (5 * k) (.sendAsync i a n)
        (s.put i y (g.at (.sendAsync i a n) (if j < n.toNat then .a3 j else .a8)) m) =
      .next (s.put i
        { y with tx := ((List.range' j k).map fun l => Memory.read m (bufAddr a l).toNat).foldl Ring.push y.tx }
        (g.at (.sendAsync i a n) .a8) m) := by
  induction k generalizing j y with
  | zero =>
    rw [if_neg (by omega)]
    rfl
  | succ k ih =>
    rw [if_pos (by omega), Nat.mul_succ, Nat.add_comm,
      execTimes_of_next (execTimes_sendAsync_byte hi (hok j (by omega)) hq.1 g m)]
    exact ih (by omega) (Ring.push_inRange hq _)

/-- A1 to A9 with no step between push the caller's bytes and leave TXEIE set. -/
theorem execTimes_sendAsync (hl : s.fg.loc = .start) (hq : (s.inst i).tx.InRange)
    (hok : ∀ l, l < n.toNat → memOk s.cfg (bufAddr a l) = true) :
    execTimes (4 + 5 * n.toNat) (.sendAsync i a n) s = .next (s.put i
      { s.inst i with
        tx := ((List.range n.toNat).map fun l => Memory.read s.mem (bufAddr a l).toNat).foldl Ring.push
          (s.inst i).tx
        ctrl := ((s.inst i).ctrl ||| 0x80#32) &&& 0x21AD#32 } s.fg.next s.mem) := by
  let op := Instr.sendAsync i a n
  let y := s.inst i
  let y2 := y.regWrite .ctrl (clearBit (y.reg .ctrl) Field.txeie.bit)
  let y7 := { y2 with
    tx := ((List.range' 0 n.toNat).map fun l => Memory.read s.mem (bufAddr a l).toNat).foldl Ring.push y2.tx }
  let y9 := y7.regWrite .ctrl (setBit (y7.reg .ctrl) Field.txeie.bit)
  have h1 : exec op s = .next (s.put i y (s.fg.at op (.a2 (y.reg .ctrl))) s.mem) :=
    (exec_sendAsync_start hl hi a n).trans (congrArg _ (s.put_fg i _).symm)
  have h2 : exec op (s.put i y (s.fg.at op (.a2 (y.reg .ctrl))) s.mem) =
      .next (s.put i y2 (s.fg.at op (if 0 < n.toNat then .a3 0 else .a8)) s.mem) := by
    have hfirst : (if n = 0#32 then Label.a8 else .a3 0) = if 0 < n.toNat then .a3 0 else .a8 := by
      by_cases hn : n = 0#32
      · rw [if_pos hn, if_neg (by rw [hn]; decide)]
      · rw [if_neg hn, if_pos (toNat_pos_of_ne_zero hn)]
    rw [exec_sendAsync_a2 rfl, State.regWrite, State.modInst_put, hfirst]
    rfl
  have h7 := execTimes_sendAsync_bytes (y := y2) hi (Nat.zero_add _) hok hq s.fg s.mem
  have h8 : exec op (s.put i y7 (s.fg.at op .a8) s.mem) =
      .next (s.put i y7 (s.fg.at op (.a9 (y7.reg .ctrl))) s.mem) := by
    rw [exec_sendAsync_a8 rfl, State.regVal, s.inst_put _ _ _ hi]
    rfl
  have h9 : exec op (s.put i y7 (s.fg.at op (.a9 (y7.reg .ctrl))) s.mem) = .next (s.put i y9 s.fg.next s.mem) := by
    rw [exec_sendAsync_a9 rfl, State.regWrite, State.modInst_put]
    rfl
  have hctrl : y9.ctrl = ((s.inst i).ctrl ||| 0x80#32) &&& 0x21AD#32 :=
    setBit_clearBit_masked _ _ Field.txeie.bit_lt
  rw [show 4 + 5 * n.toNat = 5 * n.toNat + 2 + 1 + 1 by omega, execTimes_succ_of_next h1,
    execTimes_succ_of_next h2, execTimes_of_next h7, execTimes_succ_of_next h8, execTimes_succ_of_next h9,
    ← hctrl, List.range_eq_range']
  rfl

end

/-- Settles O24: A3 to A7 push the caller's bytes one after another, and A8 and A9 undo what A1 and A2 did. -/
theorem sendAsyncQueuesTheCallersBytes : Obligations.SendAsyncQueuesTheCallersBytes := by
  intro s i a n hl hi hq hwf hroom hok
  have ht := execTimes_sendAsync (a := a) (n := n) hi hl hq hok
  obtain ⟨hcont, hrange⟩ := Ring.contents_foldl_push
    (bs := (List.range n.toNat).map fun j => Memory.read s.mem (bufAddr a j).toNat) hq hwf (by simpa using hroom)
  obtain ⟨hfg, hinst, hmem, htrace, helse⟩ := State.put_frame hi _ s.fg.next s.mem
  refine ⟨_, ht, ?_, ?_, hfg, ?_, htrace, fun c => by rw [hmem], helse⟩ <;> rw [hinst]
  · exact hcont
  · exact hrange

end Sys2Proof.Machine
end

section
/-! An uninterrupted RECV_ASYNC (43_async.md R92, 41_ring_buffer.md R84). -/

namespace Sys2Proof.Machine

/-- As many POPs as bytes held, or fewer, take the oldest bytes. -/
theorem Ring.contents_iterate_pop {q : Ring} {k : Nat} (hq : q.InRange) (hk : k ≤ q.contents.length) :
    (Ring.pop^[k] q).contents = q.contents.drop k := by
  induction k generalizing q with
  | zero => rfl
  | succ k ih =>
    have hne : q.contents ≠ [] := by
      intro hnil
      simp [hnil] at hk
    have hpop := Ring.contents_eq_cons_pop hq hne
    rw [hpop, List.length_cons] at hk
    rw [Function.iterate_succ_apply, ih (Ring.pop_inRange hq) (by omega), hpop, List.drop_succ_cons]

/-- Memory after bytes are stored one after another in the caller's buffer at `a`, from its `j`-th on. -/
def Memory.store (m : Memory) (a : Word) : Nat → List Byte → Memory
  | _, [] => m
  | j, b :: bs => Memory.store (Memory.write m (bufAddr a j).toNat b) a (j + 1) bs

section
variable {m : Memory} {a : Word} {j : Nat} {bs : List Byte}

theorem Memory.read_store_of_ne {c : Nat} (hc : ∀ k, k < bs.length → c ≠ (bufAddr a (j + k)).toNat) :
    (Memory.store m a j bs).read c = m.read c := by
  induction bs generalizing m j with
  | nil => rfl
  | cons b bs ih =>
    have hfirst : c ≠ (bufAddr a j).toNat := hc 0 (Nat.succ_pos _)
    rw [Memory.store, ih fun k hk => ?_, Memory.read_write_ne _ _ hfirst]
    rw [Nat.add_assoc, Nat.add_comm 1]
    exact hc (k + 1) (Nat.succ_lt_succ hk)

theorem Memory.read_store_self {k : Nat} {b : Byte} (hwf : m.wf = true) (hlt : j + bs.length ≤ 2 ^ 32)
    (hb : bs[k]? = some b) : (Memory.store m a j bs).read (bufAddr a (j + k)).toNat = b := by
  induction bs generalizing m j k with
  | nil => cases hb
  | cons b' bs ih =>
    rw [List.length_cons] at hlt
    cases k with
    | zero =>
      cases hb
      rw [Memory.store]
      refine (Memory.read_store_of_ne fun l hl heq => ?_).trans (Memory.read_write_self _ _ hwf)
      have hsame : j = j + 1 + l := bufAddr_injective (by omega) (by omega) (BitVec.eq_of_toNat_eq heq)
      omega
    | succ k =>
      rw [Memory.store, show j + (k + 1) = j + 1 + k by omega]
      exact ih (Memory.write_wf _ _ hwf) (by omega) hb

end

section
variable {s : State} {i : InstId} {a n : Word} (hi : s.has i = true)
include hi

/-- G1 to G5 with no step between are one POP and one store. -/
theorem execTimes_recvAsync_byte {y : Inst} {j : Nat} {b : Byte} (hok : memOk s.cfg (bufAddr a j) = true)
    (hr : y.rx.r < y.rx.cap) (hne : y.rx.w ≠ y.rx.r) (hb : Memory.read y.rx.buf y.rx.r.toNat = b)
    (g : Fg) (m : Memory) :
    execTimes 5 (.recvAsync i a n) (s.put i y (g.at (.recvAsync i a n) (.g1 j)) m) =
      .next (s.put i { y with rx := y.rx.pop }
        (if j + 1 = n.toNat then { g.next with res := some (BitVec.ofNat 32 (j + 1)) }
          else g.at (.recvAsync i a n) (.g1 (j + 1)))
        (Memory.write m (bufAddr a j).toNat b)) := by
  let op := Instr.recvAsync i a n
  let r := y.rx.r
  let y3 := { y with rx := { y.rx with r := r + 1#32 } }
  have h1 : exec op (s.put i y (g.at op (.g1 j)) m) = .next (s.put i y (g.at op (.g2 j r)) m) := by
    rw [exec_recvAsync_g1 rfl, s.ring_put _ _ _ hi, if_neg (c := (y.ring .rx).w = (y.ring .rx).r) hne]
    rfl
  have h2 : exec op (s.put i y (g.at op (.g2 j r)) m) = .next (s.put i y (g.at op (.g3 j r b)) m) := by
    rw [exec_recvAsync_g2 rfl (by rw [s.ring_put _ _ _ hi]; exact hr), s.ring_put _ _ _ hi, ← hb]
    rfl
  have h3 : exec op (s.put i y (g.at op (.g3 j r b)) m) = .next (s.put i y3 (g.at op (.g4 j r b)) m) := by
    rw [exec_recvAsync_g3 rfl, State.popIncrement_eq_setRingR, State.setRingR_eq_modInst, State.modInst_put]
    rfl
  have h4 : exec op (s.put i y3 (g.at op (.g4 j r b)) m) =
      .next (s.put i { y with rx := y.rx.pop } (g.at op (.g5 j b)) m) := by
    rw [exec_recvAsync_g4 rfl, State.popMask_eq_setRingR, s.ring_put _ _ _ hi, State.setRingR_eq_modInst,
      State.modInst_put]
    rfl
  have h5 := exec_recvAsync_g5 (s := s.put i { y with rx := y.rx.pop } (g.at op (.g5 j b)) m) (i := i) rfl hok n
  exact (execTimes_succ_of_next h1 4).trans <| (execTimes_succ_of_next h2 3).trans <|
    (execTimes_succ_of_next h3 2).trans <| (execTimes_succ_of_next h4 1).trans (execTimes_succ_of_next h5 0)

/-- From byte `j` on, the oldest bytes are taken and stored until the count is reached or the ring is empty. -/
theorem execTimes_recvAsync_bytes {y : Inst} {j : Nat} {bs : List Byte} (hj : j < n.toNat) (hq : y.rx.InRange)
    (hbs : y.rx.contents.take (n.toNat - j) = bs)
    (hok : ∀ k, k < bs.length → memOk s.cfg (bufAddr a (j + k)) = true) (g : Fg) (m : Memory) :
    ∃ c, execTimes c (.recvAsync i a n) (s.put i y (g.at (.recvAsync i a n) (.g1 j)) m) =
      .next (s.put i { y with rx := Ring.pop^[bs.length] y.rx }
        { g.next with res := some (BitVec.ofNat 32 (j + bs.length)) } (Memory.store m a j bs)) := by
  induction bs generalizing j y m with
  | nil =>
    have hnil : y.rx.contents = [] := (List.take_eq_nil_iff.1 hbs).resolve_left (by omega)
    refine ⟨1, execTimes_succ_of_next ?_ 0⟩
    rw [exec_recvAsync_g1 rfl, s.ring_put _ _ _ hi, 
      if_pos (c := (y.ring .rx).w = (y.ring .rx).r) (hq.contents_eq_nil_iff.1 hnil)]
    rfl
  | cons b bs ih =>
    have hne : y.rx.contents ≠ [] := fun hnil => by simp [hnil] at hbs
    rw [Ring.contents_eq_cons_pop hq hne, show n.toNat - j = (n.toNat - (j + 1)) + 1 by omega,
      List.take_succ_cons] at hbs
    obtain ⟨hb, hrest⟩ := List.cons.inj hbs
    have hbyte := execTimes_recvAsync_byte (n := n) hi (hok 0 (Nat.succ_pos _)) hq.2
      (mt hq.contents_eq_nil_iff.2 hne) hb g m
    by_cases hlast : j + 1 = n.toNat
    · rw [if_pos hlast] at hbyte
      rw [← hlast, Nat.sub_self, List.take_zero] at hrest
      subst hrest
      exact ⟨5, hbyte⟩
    · rw [if_neg hlast] at hbyte
      obtain ⟨c, hc⟩ := ih (y := { y with rx := y.rx.pop }) (by omega) (Ring.pop_inRange hq) hrest
        (fun k hk => by
          rw [Nat.add_assoc, Nat.add_comm 1]
          exact hok (k + 1) (Nat.succ_lt_succ hk)) (Memory.write m (bufAddr a j).toNat b)
      rw [Nat.add_assoc, Nat.add_comm 1] at hc
      exact ⟨5 + c, (execTimes_of_next hbyte c).trans hc⟩

/-- G0 to G5 with no step between: `bs` are the oldest bytes held, as many as the count admits. -/
theorem execTimes_recvAsync {bs : List Byte} (hl : s.fg.loc = .start) (hq : (s.inst i).rx.InRange)
    (hbs : (s.inst i).rx.contents.take n.toNat = bs)
    (hok : ∀ k, k < bs.length → memOk s.cfg (bufAddr a k) = true) :
    ∃ c, execTimes c (.recvAsync i a n) s =
      .next (s.put i { s.inst i with rx := Ring.pop^[bs.length] (s.inst i).rx }
        { s.fg.next with res := some (BitVec.ofNat 32 bs.length) } (Memory.store s.mem a 0 bs)) := by
  have h0 : exec (.recvAsync i a n) s = .next (s.put i (s.inst i)
      (if n = 0#32 then { s.fg.next with res := some 0#32 } else s.fg.at (.recvAsync i a n) (.g1 0)) s.mem) :=
    (exec_recvAsync_start hl hi a n).trans (congrArg _ (s.put_fg i _).symm)
  by_cases hn : n = 0#32
  · subst hn hbs
    exact ⟨1, execTimes_succ_of_next h0 0⟩
  · rw [if_neg hn] at h0
    obtain ⟨c, hc⟩ := execTimes_recvAsync_bytes hi (toNat_pos_of_ne_zero hn) hq hbs (by simpa using hok)
      s.fg s.mem
    rw [Nat.zero_add] at hc
    exact ⟨c + 1, (execTimes_succ_of_next h0 c).trans hc⟩

end

/-- Settles O26: each round from G1 to G5 pops the oldest byte and stores it, until the count is reached or the ring
is empty; the buffer's addresses differ, so no store undoes another. -/
theorem recvAsyncCopiesTheOldestBytes : Obligations.RecvAsyncCopiesTheOldestBytes := by
  intro s i a n hl hi hq hwf hok
  have hlen : ((s.inst i).rx.contents.take n.toNat).length = min n.toNat (s.inst i).rx.contents.length :=
    List.length_take
  rw [← hlen] at hok ⊢
  obtain ⟨c, ht⟩ := execTimes_recvAsync hi hl hq rfl hok
  obtain ⟨hfg, hinst, hmem, htrace, helse⟩ := State.put_frame hi _ _ _
  refine ⟨c, _, ht, hfg, ?_, fun j b hj hb => ?_, fun p hp => ?_, ?_, htrace, helse⟩
  · rw [hinst]
    show (Ring.pop^[_] (s.inst i).rx).contents = _
    rw [Ring.contents_iterate_pop hq (by omega), hlen]
    exact List.drop_eq_drop_iff.2 (by omega)
  · rw [hmem, ← Nat.zero_add j]
    exact Memory.read_store_self hwf (by have := n.isLt; omega) (by rw [List.getElem?_take_of_lt hj, hb])
  · rw [hmem]
    exact Memory.read_store_of_ne (by simpa using hp)
  · rw [hinst]

end Sys2Proof.Machine
end

section
/-! The dispatcher's micro-steps (44_dispatcher.md R99 to R102), each as an equation: an update of its peripheral, a
move to a label, or both. -/

namespace Sys2Proof.Machine

section
variable (s : State) (i : InstId)

/-- The byte a read of the data register returns. -/
theorem State.regVal_data : (s.regVal i .data).extractLsb' 0 8 = (s.inst i).rdr := extractLsb'_zext _

theorem dispStepAt_pa1 : dispStepAt i .pa1 s =
    .next ((s.modInst i fun x => x.dataReadEffect s.cfg).dgoto (.pa2 (s.inst i).rdr)) := by
  rw [dispStepAt, State.regVal_data]
  rfl

theorem dispStepAt_rb1 : dispStepAt i .rb1 s =
    .next ((s.modInst i fun x => x.dataReadEffect s.cfg).dgoto (.rb2 (s.inst i).rdr)) := by
  rw [dispStepAt, State.regVal_data]
  rfl

theorem dispStepAt_rb2 (b : Byte) :
    dispStepAt i (.rb2 b) s = .next (s.dgoto (.rb3 b (s.inst i).rx.w)) := rfl

theorem dispStepAt_rb3 {w : Word} (hw : w < (s.inst i).rx.cap) (b : Byte) : dispStepAt i (.rb3 b w) s =
    .next ((s.modInst i fun x => { x with rx := { x.rx with buf := Memory.write x.rx.buf w.toNat b } }).dgoto
      (.rb4 b w)) := by
  rw [dispStepAt, State.pushCell_of_lt (x := .rx) hw]
  rfl

theorem dispStepAt_rb4 (b : Byte) (w : Word) : dispStepAt i (.rb4 b w) s =
    .next ((s.modInst i fun x => { x with rx := { x.rx with w := w + 1#32 } }).dgoto (.rb5 b w)) := rfl

theorem dispStepAt_rb5 (b : Byte) (w : Word) : dispStepAt i (.rb5 b w) s =
    .next ((s.modInst i fun x => { x with rx := { x.rx with w := (s.inst i).rx.wrap w } }).dgoto (.rb6 b)) := rfl

theorem dispStepAt_tr1_empty (he : (s.inst i).tx.w = (s.inst i).tx.r) :
    dispStepAt i .tr1 s = .next (s.dgoto .tr9) := by
  simp [dispStepAt, State.ring, Inst.ring, Ring.empty, he]

theorem dispStepAt_tr1 (he : (s.inst i).tx.w ≠ (s.inst i).tx.r) :
    dispStepAt i .tr1 s = .next (s.dgoto (.tr2 (s.inst i).tx.r)) := by
  simp [dispStepAt, State.ring, Inst.ring, Ring.empty, he]

theorem dispStepAt_tr2 {r : Word} (hr : r < (s.inst i).tx.cap) : dispStepAt i (.tr2 r) s =
    .next (s.dgoto (.tr3 r (Memory.read (s.inst i).tx.buf r.toNat))) := by
  rw [dispStepAt, State.popCell_of_lt (x := .tx) hr]
  rfl

theorem dispStepAt_tr3 (r : Word) (b : Byte) : dispStepAt i (.tr3 r b) s =
    .next ((s.modInst i fun x => { x with tx := { x.tx with r := r + 1#32 } }).dgoto (.tr4 r b)) := rfl

theorem dispStepAt_tr4 (r : Word) (b : Byte) : dispStepAt i (.tr4 r b) s =
    .next ((s.modInst i fun x => { x with tx := { x.tx with r := (s.inst i).tx.wrap r } }).dgoto (.tr5 b)) := rfl

theorem dispStepAt_tr5 (b : Byte) : dispStepAt i (.tr5 b) s =
    .next ((s.modInst i fun x => x.dataWrite (zext b)).dgoto .tr6) := rfl

theorem dispStepAt_tr6 : dispStepAt i .tr6 s =
    .next (s.dgoto (if (s.inst i).tx.w = (s.inst i).tx.r then .tr7 else .x1)) := by
  by_cases he : (s.inst i).tx.w = (s.inst i).tx.r <;>
    simp [dispStepAt, State.ring, Inst.ring, Ring.empty, he]

theorem dispStepAt_tr7 :
    dispStepAt i .tr7 s = .next (s.dgoto (.tr8 ((s.inst i).ctrl &&& ctrlMask))) := rfl

theorem dispStepAt_tr8 (v : Word) : dispStepAt i (.tr8 v) s = .next ((s.modInst i fun x =>
    { x with ctrl := clearBit v Field.txeie.bit &&& ctrlMask }).dgoto .x1) := rfl

theorem dispStepAt_x1 : dispStepAt i .x1 s = .next s.exit := rfl

end

/-- The frame of a dispatcher micro-step that updates its peripheral by `f` and goes on at a label. -/
theorem State.modInst_dgoto_frame {s : State} {i : InstId} (hi : s.has i = true) (f : Inst → Inst) (l : DLoc) :
    let t := (s.modInst i f).dgoto l
    t.dloc = some l ∧ t.inst i = f (s.inst i) ∧ t.fg = s.fg ∧ t.trace = s.trace ∧ SameMem s t ∧
      SameElsewhere i s { t with dloc := s.dloc } :=
  ⟨rfl, State.inst_modInst_self hi f, rfl, rfl, fun _ => rfl, s.sameElsewhere_modInst i f⟩

/-- Settles O39: X1 is the exit. -/
theorem exitReturnsToTheForeground : Obligations.ExitReturnsToTheForeground :=
  fun s i => dispStepAt_x1 s i

/-- Settles O34: PA1 is one read of the data register, and TR1 on an empty ring a move to TR9 alone. -/
theorem parityAndEmptyRingCases : Obligations.ParityAndEmptyRingCases := by
  intro s i hi
  refine ⟨⟨_, dispStepAt_pa1 s i, ?_⟩, dispStepAt_tr1_empty s i⟩
  obtain ⟨hdloc, hinst, hfg, hrest⟩ :=
    State.modInst_dgoto_frame hi (fun x => x.dataReadEffect s.cfg) (.pa2 (s.inst i).rdr)
  exact ⟨hdloc, hfg, hinst.trans (Inst.dataReadEffect_eq ..), hrest⟩

end Sys2Proof.Machine
end

section
/-! The active dispatcher's micro-steps with no step of another agent between: each state on the way differs from
the first in the dispatcher's peripheral and label. -/

namespace Sys2Proof.Machine

/-- The state with peripheral `i` replaced and the dispatcher at a label. -/
def State.dispPut (s : State) (i : InstId) (y : Inst) (l : DLoc) : State := (s.modInst i fun _ => y).dgoto l

theorem State.dispPut_self {s : State} {l : DLoc} (hl : s.dloc = some l) (i : InstId) :
    s.dispPut i (s.inst i) l = s := by
  have hsame : s.modInst i (fun _ => s.inst i) = s := s.put_fg i s.fg
  rw [State.dispPut, hsame, State.dgoto, ← hl]

theorem State.inst_dispPut {s : State} {i : InstId} (hi : s.has i = true) (y : Inst) (l : DLoc) :
    (s.dispPut i y l).inst i = y := State.inst_modInst_self hi _

theorem State.modInst_dispPut (s : State) (i : InstId) (y : Inst) (l l' : DLoc) (f : Inst → Inst) :
    ((s.dispPut i y l).modInst i f).dgoto l' = s.dispPut i (f y) l' := by
  have hboth : (s.modInst i fun _ => y).modInst i f = s.modInst i fun _ => f y := s.modInst_modInst i _ f
  rw [State.dispPut, State.dispPut, ← hboth]
  rfl

theorem dispTimes_succ_of_next {s t : State} {i : InstId} {l : DLoc} (ha : s.active = some i)
    (hl : s.dloc = some l) (h : dispStepAt i l s = .next t) (n : Nat) :
    dispTimes (n + 1) s = dispTimes n t := by
  simp only [dispTimes, dispStep_of_active ha hl, h]

theorem dispTimes_of_next {s t : State} {m : Nat} (h : dispTimes m s = .next t) (k : Nat) :
    dispTimes (m + k) s = dispTimes k t := by
  induction m generalizing s with
  | zero =>
    cases h
    rw [Nat.zero_add]
  | succ m ih =>
    rw [dispTimes] at h
    split at h
    · rename_i u hu
      rw [Nat.succ_add, dispTimes, hu]
      exact ih h
    · cases h
    · cases h

section
variable {s : State} {i : InstId} {y : Inst} {l l' : DLoc} (ha : s.active = some i)
include ha

theorem dispTimes_dispPut_of_goto (h : dispStepAt i l (s.dispPut i y l) = .next ((s.dispPut i y l).dgoto l'))
    (n : Nat) : dispTimes (n + 1) (s.dispPut i y l) = dispTimes n (s.dispPut i y l') :=
  dispTimes_succ_of_next (s := s.dispPut i y l) ha rfl h n

theorem dispTimes_dispPut_of_update {f : Inst → Inst}
    (h : dispStepAt i l (s.dispPut i y l) = .next (((s.dispPut i y l).modInst i f).dgoto l')) (n : Nat) :
    dispTimes (n + 1) (s.dispPut i y l) = dispTimes n (s.dispPut i (f y) l') := by
  rw [State.modInst_dispPut] at h
  exact dispTimes_succ_of_next (s := s.dispPut i y l) ha rfl h n

end

end Sys2Proof.Machine
end

section
/-! The classification (44_dispatcher.md R95): each test goes to its case or to the next test. -/

namespace Sys2Proof.Machine

/-- A test reads the peripheral, and so does not depend on where the dispatcher stands. -/
theorem State.classify_dgoto (s : State) (i : InstId) (k : Kind) (l hit miss : DLoc) :
    (s.dgoto l).classify i k hit miss =
      .next (s.dgoto (if (s.inst i).cause s.cfg k then hit else miss)) := rfl

section
variable {s : State} {i : InstId} {l hit miss : DLoc} {k : Kind} (ha : s.active = some i)
  (hl : ∀ u : State, dispStepAt i l u = u.classify i k hit miss)
include ha hl

theorem dispTimes_classify_hit (hk : (s.inst i).cause s.cfg k = true) :
    dispTimes 1 (s.dgoto l) = .next (s.dgoto hit) := by
  refine dispTimes_succ_of_next (s := s.dgoto l) ha rfl ((hl _).trans ?_) 0
  rw [State.classify_dgoto, if_pos hk]

theorem dispTimes_classify_miss (hk : (s.inst i).cause s.cfg k = false) (n : Nat) :
    dispTimes (n + 1) (s.dgoto l) = dispTimes n (s.dgoto miss) := by
  refine dispTimes_succ_of_next (s := s.dgoto l) ha rfl ((hl _).trans ?_) n
  rw [State.classify_dgoto, if_neg (ne_true_of_eq_false hk)]

end

/-- Settles O31: a test that finds its kind a cause goes to the case, any other to the next test. -/
theorem classifierTakesTheFirstCause : Obligations.ClassifierTakesTheFirstCause := by
  intro s i ha hl x overrun brk parity received ready reaches
  have hstart : s.dgoto .c0 = s := by rw [State.dgoto, ← hl]
  have pass0 (h : overrun = false) (n : Nat) : dispTimes (n + 1) s = dispTimes n (s.dgoto .c1) := by
    have hmiss := dispTimes_classify_miss (l := .c0) (k := .overrun) ha (fun _ => rfl) h n
    rwa [hstart] at hmiss
  have pass1 (h : brk = false) (n : Nat) : dispTimes (n + 1) (s.dgoto .c1) = dispTimes n (s.dgoto .c2) :=
    dispTimes_classify_miss (k := .brk) ha (fun _ => rfl) h n
  have pass2 (h : parity = false) (n : Nat) : dispTimes (n + 1) (s.dgoto .c2) = dispTimes n (s.dgoto .c3) :=
    dispTimes_classify_miss (k := .parity) ha (fun _ => rfl) h n
  have pass3 (h : received = false) (n : Nat) : dispTimes (n + 1) (s.dgoto .c3) = dispTimes n (s.dgoto .c4) :=
    dispTimes_classify_miss (k := .byteReceived) ha (fun _ => rfl) h n
  have pass4 (h : ready = false) (n : Nat) : dispTimes (n + 1) (s.dgoto .c4) = dispTimes n (s.dgoto .c5) :=
    dispTimes_classify_miss (k := .transmitReady) ha (fun _ => rfl) h n
  refine ⟨fun ho => ?_, fun ho hb => ?_, fun ho hb hp => ?_, fun ho hb hp hr => ?_,
    fun ho hb hp hr ht => ?_, fun ho hb hp hr ht => ?_⟩ <;> simp only [reaches]
  · have hhit := dispTimes_classify_hit (l := .c0) (k := .overrun) ha (fun _ => rfl) ho
    rwa [hstart] at hhit
  · rw [pass0 ho]
    exact dispTimes_classify_hit (k := .brk) ha (fun _ => rfl) hb
  · rw [pass0 ho, pass1 hb]
    exact dispTimes_classify_hit (k := .parity) ha (fun _ => rfl) hp
  · rw [pass0 ho, pass1 hb, pass2 hp]
    exact dispTimes_classify_hit (k := .byteReceived) ha (fun _ => rfl) hr
  · rw [pass0 ho, pass1 hb, pass2 hp, pass3 hr]
    exact dispTimes_classify_hit (k := .transmitReady) ha (fun _ => rfl) ht
  · rw [pass0 ho, pass1 hb, pass2 hp, pass3 hr, pass4 ht]
    exact dispTimes_succ_of_next (s := s.dgoto .c5) ha rfl rfl 0

end Sys2Proof.Machine
end

section
/-! An uninterrupted ByteReceived case (44_dispatcher.md R100, 41_ring_buffer.md R80, R83). -/

namespace Sys2Proof.Machine

/-- RB1 to RB5 with no step between are one read of the data register and one PUSH of its byte. -/
theorem dispTimes_byteReceived {s : State} {i : InstId} {y : Inst} (ha : s.active = some i)
    (hi : s.has i = true) (hw : y.rx.w < y.rx.cap) :
    dispTimes 5 (s.dispPut i y .rb1) = .next (s.dispPut i
      { y.dataReadEffect s.cfg with rx := y.rx.push y.rdr } (.rb6 y.rdr)) := by
  let b := y.rdr
  let w := y.rx.w
  let y1 := y.dataReadEffect s.cfg
  let y3 := { y1 with rx := { y.rx with buf := Memory.write y.rx.buf w.toNat b } }
  let y4 := { y1 with rx := { y3.rx with w := w + 1#32 } }
  have hrx : y1.rx = y.rx := Inst.regReadEffect_rx s.cfg y .data
  have h1 : dispTimes 5 (s.dispPut i y .rb1) = dispTimes 4 (s.dispPut i y1 (.rb2 b)) :=
    dispTimes_dispPut_of_update ha (by rw [dispStepAt_rb1, State.inst_dispPut hi]; rfl) 4
  have h2 : dispTimes 4 (s.dispPut i y1 (.rb2 b)) = dispTimes 3 (s.dispPut i y1 (.rb3 b w)) :=
    dispTimes_dispPut_of_goto ha (by rw [dispStepAt_rb2, State.inst_dispPut hi, hrx]) 3
  have h3 : dispTimes 3 (s.dispPut i y1 (.rb3 b w)) = dispTimes 2 (s.dispPut i y3 (.rb4 b w)) := by
    have hstore := dispStepAt_rb3 (s.dispPut i y1 (.rb3 b w)) i
      (by rw [State.inst_dispPut hi, hrx]; exact hw) b
    rw [dispTimes_dispPut_of_update ha hstore 2, hrx]
  have h4 : dispTimes 2 (s.dispPut i y3 (.rb4 b w)) = dispTimes 1 (s.dispPut i y4 (.rb5 b w)) :=
    dispTimes_dispPut_of_update ha (dispStepAt_rb4 ..) 1
  have h5 : dispTimes 1 (s.dispPut i y4 (.rb5 b w)) = .next (s.dispPut i
      { y1 with rx := y.rx.push b } (.rb6 b)) := by
    have hmask := dispStepAt_rb5 (s.dispPut i y4 (.rb5 b w)) i b w
    rw [State.inst_dispPut hi] at hmask
    exact dispTimes_dispPut_of_update ha hmask 0
  rw [h1, h2, h3, h4, h5]

/-- Settles O32: RB1 to RB5 are one PUSH of the byte read, which appends it or, at occupancy `C - 1`, advances `W`
onto `R`. -/
theorem byteReceivedCaseQueuesTheByte : Obligations.ByteReceivedCaseQueuesTheByte := by
  intro s i ha hl hi hq hwf q
  have ht := dispTimes_byteReceived (y := s.inst i) ha hi hq.1
  rw [State.dispPut_self hl] at ht
  obtain ⟨hdloc, hinst, hfg, htrace, hmem, helse⟩ := State.modInst_dgoto_frame hi
    (fun _ => { (s.inst i).dataReadEffect s.cfg with rx := q.push (s.inst i).rdr }) (.rb6 (s.inst i).rdr)
  refine ⟨_, ht, hdloc, fun hroom => ?_, fun hfull => ?_, ?_, ?_, ?_, hfg, htrace, hmem, helse⟩ <;>
    rw [State.dispPut, hinst]
  · exact Ring.contents_push hq.1 hwf hroom
  · have hw := Ring.push_w_of_full (s.inst i).rdr hq hfull
    exact ⟨(Ring.push_inRange hq _).contents_eq_nil_iff.2 hw, hw⟩
  · rfl
  · exact Ring.push_inRange hq _
  · rw [Inst.dataReadEffect_eq]

end Sys2Proof.Machine
end

section
/-! An uninterrupted TransmitReady case (44_dispatcher.md R101, 41_ring_buffer.md R81). -/

namespace Sys2Proof.Machine

/-- A masked read of a masked write with bits cleared is one masked write. -/
theorem clearBit_masked (v mask : Word) (n : Nat) : clearBit (v &&& mask) n &&& mask = clearBit v n &&& mask := by
  rw [clearBit, clearBit, BitVec.and_assoc, BitVec.and_assoc, BitVec.and_assoc, BitVec.and_comm mask,
    BitVec.and_assoc, BitVec.and_self]

section
variable {s : State} {i : InstId} {y : Inst} (ha : s.active = some i) (hi : s.has i = true)
include ha hi

/-- TR1 to TR6 with no step between are one POP, one write of its byte to the data register and the test whether
the ring is drained. -/
theorem dispTimes_transmit (hne : y.tx.w ≠ y.tx.r) (hr : y.tx.r < y.tx.cap) :
    dispTimes 6 (s.dispPut i y .tr1) = .next (s.dispPut i
      { y with tx := y.tx.pop, tdr := Memory.read y.tx.buf y.tx.r.toNat, stat := y.stat &&& ~~~0xC0#32 }
      (if y.tx.w = y.tx.pop.r then .tr7 else .x1)) := by
  let r := y.tx.r
  let b := Memory.read y.tx.buf r.toNat
  let y3 := { y with tx := { y.tx with r := r + 1#32 } }
  let y4 := { y with tx := y.tx.pop }
  let y5 := { y4 with tdr := b, stat := y.stat &&& ~~~0xC0#32 }
  have h1 : dispTimes 6 (s.dispPut i y .tr1) = dispTimes 5 (s.dispPut i y (.tr2 r)) :=
    dispTimes_dispPut_of_goto ha
      (by rw [dispStepAt_tr1 _ _ (by rwa [State.inst_dispPut hi]), State.inst_dispPut hi]) 5
  have h2 : dispTimes 5 (s.dispPut i y (.tr2 r)) = dispTimes 4 (s.dispPut i y (.tr3 r b)) :=
    dispTimes_dispPut_of_goto ha
      (by rw [dispStepAt_tr2 _ _ (by rwa [State.inst_dispPut hi]), State.inst_dispPut hi]) 4
  have h3 : dispTimes 4 (s.dispPut i y (.tr3 r b)) = dispTimes 3 (s.dispPut i y3 (.tr4 r b)) :=
    dispTimes_dispPut_of_update ha (dispStepAt_tr3 ..) 3
  have h4 : dispTimes 3 (s.dispPut i y3 (.tr4 r b)) = dispTimes 2 (s.dispPut i y4 (.tr5 b)) := by
    have hmask := dispStepAt_tr4 (s.dispPut i y3 (.tr4 r b)) i r b
    rw [State.inst_dispPut hi] at hmask
    exact dispTimes_dispPut_of_update ha hmask 2
  have h5 : dispTimes 2 (s.dispPut i y4 (.tr5 b)) = dispTimes 1 (s.dispPut i y5 .tr6) :=
    (dispTimes_dispPut_of_update ha (dispStepAt_tr5 ..) 1).trans (by rw [Inst.dataWrite_zext])
  have h6 : dispTimes 1 (s.dispPut i y5 .tr6) =
      .next (s.dispPut i y5 (if y.tx.w = y.tx.pop.r then .tr7 else .x1)) :=
    dispTimes_dispPut_of_goto ha (by rw [dispStepAt_tr6, State.inst_dispPut hi]; rfl) 0
  rw [h1, h2, h3, h4, h5, h6]

/-- TR7 and TR8 with no step between are one read-modify-write of CTRL. -/
theorem dispTimes_disable : dispTimes 2 (s.dispPut i y .tr7) =
    .next (s.dispPut i { y with ctrl := clearBit y.ctrl Field.txeie.bit &&& ctrlMask } .x1) := by
  have h7 : dispTimes 2 (s.dispPut i y .tr7) = dispTimes 1 (s.dispPut i y (.tr8 (y.ctrl &&& ctrlMask))) :=
    dispTimes_dispPut_of_goto ha (by rw [dispStepAt_tr7, State.inst_dispPut hi]) 1
  rw [h7, dispTimes_dispPut_of_update ha (dispStepAt_tr8 ..) 0, clearBit_masked]
  rfl

/-- The whole case: TXEIE is cleared exactly if the POP drains the ring. -/
theorem dispTimes_transmitReady (hne : y.tx.w ≠ y.tx.r) (hr : y.tx.r < y.tx.cap) :
    dispTimes (if y.tx.w = y.tx.pop.r then 8 else 6) (s.dispPut i y .tr1) = .next (s.dispPut i
      { y with
        tx := y.tx.pop, tdr := Memory.read y.tx.buf y.tx.r.toNat, stat := y.stat &&& ~~~0xC0#32
        ctrl := if y.tx.w = y.tx.pop.r then (y.ctrl &&& ~~~0x80#32) &&& 0x21AD#32 else y.ctrl } .x1) := by
  have ht := dispTimes_transmit ha hi hne hr
  by_cases hd : y.tx.w = y.tx.pop.r
  · simp only [if_pos hd] at ht ⊢
    exact (dispTimes_of_next ht 2).trans (dispTimes_disable ha hi)
  · simpa only [if_neg hd] using ht

end

/-- Settles O33: TR1 to TR6 are one POP and one write of the data register, TR7 and TR8 one read-modify-write of
CTRL that a drained ring takes; the transient `W = C` equals no advanced `R`. -/
theorem transmitReadyCaseDrainsTheRing : Obligations.TransmitReadyCaseDrainsTheRing := by
  intro s i hi x q
  refine ⟨fun b l ha hl hq hcons => ?_, fun ha hl hw hr => ?_, fun hne => dispStepAt_tr1 s i hne,
    fun r hr => dispStepAt_tr2 s i (Ring.lt_cap_iff.2 hr),
    fun r b => ⟨_, dispStepAt_tr3 s i r b, State.modInst_dgoto_frame hi _ _⟩,
    fun r b => ⟨_, dispStepAt_tr4 s i r b, State.modInst_dgoto_frame hi _ _⟩,
    fun b => ⟨_, dispStepAt_tr5 s i b, ?_⟩, dispStepAt_tr6 s i, dispStepAt_tr7 s i,
    fun v => ⟨_, dispStepAt_tr8 s i v, State.modInst_dgoto_frame hi _ _⟩⟩
  · have hheld : q.contents ≠ [] := by simp [hcons]
    obtain ⟨rfl, rfl⟩ := List.cons.inj ((Ring.contents_eq_cons_pop hq hheld).symm.trans hcons)
    have ht := dispTimes_transmitReady (y := x) ha hi (mt hq.contents_eq_nil_iff.2 hheld) hq.2
    have hdrained : q.pop.contents = [] ↔ q.w = q.pop.r := (Ring.pop_inRange hq).contents_eq_nil_iff
    rw [State.dispPut_self hl] at ht
    simp only [hdrained]
    obtain ⟨hdloc, hinst, hrest⟩ := State.modInst_dgoto_frame hi (fun _ => _) .x1
    refine ⟨_, ht, hdloc, ?_, ?_, ?_, hrest⟩ <;> rw [State.dispPut, hinst]
    exact Ring.pop_inRange hq
  · have hr := Ring.lt_cap_iff.2 hr
    have hpop := Ring.lt_cap_iff.1 (q.wrap_lt_cap q.r)
    have hne : q.w ≠ q.r := fun h => by rw [h] at hw; exact absurd (Ring.lt_cap_iff.1 hr) (by omega)
    have hmore : q.w ≠ q.pop.r := fun h => by rw [h] at hw; exact hpop.ne hw
    have ht := dispTimes_transmitReady (y := x) ha hi hne hr
    rw [State.dispPut_self hl] at ht
    simp only [if_neg (show ¬ x.tx.w = x.tx.pop.r from hmore)] at ht
    exact ⟨_, ht, State.modInst_dgoto_frame hi (fun _ => _) _⟩
  · rw [← Inst.dataWrite_zext]
    exact State.modInst_dgoto_frame hi _ _

end Sys2Proof.Machine
end

section
/-! An invocation of the dispatcher never waits, and every step brings it nearer its end (44_dispatcher.md R103,
45_callbacks.md R112, R113). -/

namespace Sys2Proof.Machine

/-- An invocation answers a next state, or the bound handler's relation has no successor. -/
theorem State.invoke_next_or_stuck (s : State) (i : InstId) (k : Kind) (arg : Option Byte) (l : DLoc) :
    (∃ t, s.invoke i k arg l = .next t) ∨
    (s.invoke i k arg l = .fault .dispatcherStuck ∧ (s.inst i).cb.get k ≠ 0#32 ∧
      s.runHandler ((s.inst i).cb.get k) i k arg = none) := by
  by_cases hk : (s.inst i).cb.get k = 0#32
  · by_cases hf : fatal k = true
    · exact .inl ⟨s.defaultHalt i k, by simp [State.invoke, hk, hf]⟩
    · exact .inl ⟨s.dgoto l, by simp [State.invoke, hk, hf]⟩
  · rcases hrun : s.runHandler ((s.inst i).cb.get k) i k arg with _ | u
    · exact .inr ⟨by simp [State.invoke, hk, hrun], hk, rfl⟩
    · exact .inl ⟨(u.emit (.callback i k ((s.inst i).cb.get k) arg)).dgoto l, by simp [State.invoke, hk, hrun]⟩

theorem dispStepAt_of_invokes {l : DLoc} {k : Kind} (hk : l.invokes = some k) (s : State) (i : InstId) :
    dispStepAt i l s = s.invoke i k l.argument .x1 := by cases l <;> cases hk <;> rfl

/-- Without an invocation there is always a next state: an index out of range is one too, with the fault raised. -/
theorem dispStepAt_next_of_not_invokes {l : DLoc} (hk : l.invokes = none) (s : State) (i : InstId) :
    ∃ t, dispStepAt i l s = .next t := by
  cases l
  case ov1 | bk1 | pa2 | rb6 | tr9 => cases hk
  case rb3 b w =>
    rw [dispStepAt, State.pushCell]
    split <;> exact ⟨_, rfl⟩
  case tr2 r =>
    rw [dispStepAt, State.popCell]
    split <;> exact ⟨_, rfl⟩
  all_goals exact ⟨_, rfl⟩

/-- A dispatcher micro-step answers a next state, or is an invocation whose relation has no successor. -/
theorem dispStepAt_next_or_stuck (s : State) (i : InstId) (l : DLoc) :
    (∃ t, dispStepAt i l s = .next t) ∨
    (dispStepAt i l s = .fault .dispatcherStuck ∧ ∃ k, l.invokes = some k ∧
      (s.inst i).cb.get k ≠ 0#32 ∧ s.runHandler ((s.inst i).cb.get k) i k l.argument = none) := by
  rcases hk : l.invokes with _ | k
  · exact .inl (dispStepAt_next_of_not_invokes hk s i)
  · rw [dispStepAt_of_invokes hk s i]
    exact (s.invoke_next_or_stuck i k l.argument .x1).imp_right fun ⟨hstuck, hrest⟩ => ⟨hstuck, k, rfl, hrest⟩

/-- The dispatcher of peripheral `i` is past label `l`: its invocation has ended, halted or faulted, or fewer
micro-steps are left. -/
def State.DispPast (t : State) (i : InstId) (l : DLoc) : Prop :=
  t.active = none ∨ t.halt ≠ none ∨ t.fault ≠ none ∨
    (t.active = some i ∧ ∃ l', t.dloc = some l' ∧ l'.stepsLeft < l.stepsLeft)

theorem State.DispPast.settle {t : State} {i : InstId} {l : DLoc} (h : t.DispPast i l) (b : Bool) (s : State) :
    (s.settle b t).DispPast i l := by
  simpa only [State.DispPast, State.settle_active, State.settle_halt, State.settle_fault,
    State.settle_dloc] using h

/-- Every micro-step of the dispatcher gets past its label, invocations of user handlers included. -/
theorem dispStepAt_past {s t : State} {i : InstId} {l : DLoc} (ha : s.active = some i)
    (h : dispStepAt i l s = .next t) : t.DispPast i l := by
  rcases dispStepAt_cases h with ⟨f, l', rfl, -, hlt⟩ | ⟨k, arg, -, hleft, hi⟩ | rfl | ⟨-, rfl⟩
  · exact .inr (.inr (.inr ⟨ha, l', rfl, hlt⟩))
  · have hx1 : DLoc.x1.stepsLeft < l.stepsLeft := by rw [hleft]; decide
    rcases State.invoke_cases hi with ⟨u, -, hu, rfl⟩ | ⟨-, -, rfl⟩ | ⟨-, -, rfl⟩
    · have ho := State.runHandler_outside hu
      simp only [State.outsideHandlers, Prod.mk.injEq] at ho
      obtain ⟨-, -, -, -, hactive, -⟩ := ho
      exact .inr (.inr (.inr ⟨hactive.trans ha, .x1, rfl, hx1⟩))
    · exact .inr (.inl (Option.some_ne_none _))
    · exact .inr (.inr (.inr ⟨ha, .x1, rfl, hx1⟩))
  · exact .inr (.inr (.inl (Option.some_ne_none _)))
  · exact .inl rfl

/-- While a dispatcher is active, a step is a line move that leaves it where it is, or gets it past its label:
FG and entries have no step. -/
theorem step_in_handler_context {s t : State} {i : InstId} {l : DLoc} (ha : s.active = some i)
    (hl : s.dloc = some l) (h : step s = .next t) :
    (t.active = some i ∧ t.dloc = some l ∧ ∃ d m, s.choose = some (.line d, m)) ∨ t.DispPast i l := by
  have hbusy : s.active ≠ none := by simp [ha]
  obtain ⟨m, c, d, b, u, hchoose, rfl, -, hm⟩ := step_moves h
  rcases hm with ⟨-, hmay, -⟩ | ⟨j, -, hallowed, -⟩ | ⟨-, -, j, k, hj, hk, hu⟩ |
    ⟨e, op, rfl, -, hline, he⟩
  · exact absurd (State.active_of_fgMay hmay) hbusy
  · exact absurd (State.active_of_allowed hallowed) hbusy
  · cases ha.symm.trans hj
    cases hl.symm.trans hk
    exact .inr ((dispStepAt_past (s := { s with sched := c, draws := d }) ha hu).settle b _)
  · obtain ⟨-, f, tr, rfl, -⟩ := exec_line_cases hline he
    exact .inl ⟨(State.settle_active ..).trans ha, (State.settle_dloc ..).trans hl, e, _, hchoose⟩

theorem DLoc.one_le_stepsLeft (l : DLoc) : 1 ≤ l.stepsLeft := by cases l <;> simp [DLoc.stepsLeft]

/-- Settles O37: only an invocation can be stuck, and only the dispatcher's own micro-steps move it, each of which
gets it past its label. -/
theorem invocationEndsWithinFourteenSteps : Obligations.InvocationEndsWithinFourteenSteps :=
  ⟨dispStepAt_next_or_stuck, fun _ _ _ _ ha hl h => step_in_handler_context ha hl h, rfl,
    DLoc.one_le_stepsLeft⟩

end Sys2Proof.Machine
end

section
/-! The change set of a user handler (45_callbacks.md R113): what a list of its changes can do to one instance,
its own or another. -/

namespace Sys2Proof.Machine

/-- Flag `f` goes from set to clear. -/
def Inst.Clears (x y : Inst) (f : Flag) : Prop := x.flag f = true ∧ y.flag f = false

/-- `y` is `x` after changes of a user handler of configuration `cfg`; `own` says that the handler's dispatcher
invoked it for this instance. A flag falls by an error clear of the handler's own instance, or by an access of
the data register, whose other effects then show too (20_memory.md R48). -/
structure Inst.InChangeSet (cfg : Config) (own : Prop) (x y : Inst) : Prop where
  pend : y.pend = x.pend
  pairings : y.pairings = x.pairings
  rxCapacity : y.rx.logC = x.rx.logC
  txCapacity : y.tx.logC = x.tx.logC
  rdr : y.rdr = x.rdr
  onlyFalls : ∀ f, y.flag f = true → x.flag f = true
  readsData : x.Clears y .rxne → y.flag .pe = false ∧ (cfg.drReadClearsOre = true → y.flag .ore = false)
  writesData : x.Clears y .txe ∨ x.Clears y .tc ∨ y.tdr ≠ x.tdr → y.flag .txe = false ∧ y.flag .tc = false
  foreign : ¬ own → ¬ x.Clears y .lbd ∧ (x.Clears y .pe → y.flag .rxne = false) ∧
    (x.Clears y .ore → cfg.drReadClearsOre = true ∧ y.flag .rxne = false ∧ y.flag .pe = false)

section
variable {cfg : Config} {own : Prop} {x y z : Inst}

/-! One change -/

/-- A change that keeps STAT, RDR and TDR is in the change set. -/
theorem Inst.InChangeSet.of_quiet (hc : Inst.Change cfg x y) (hstat : y.stat = x.stat) (hrdr : y.rdr = x.rdr)
    (htdr : y.tdr = x.tdr) : Inst.InChangeSet cfg own x y := by
  obtain ⟨hpend, hpairings, hrx, htx⟩ := hc.fixed
  have hflag : ∀ f, y.flag f = x.flag f := Inst.flag_congr hstat
  constructor <;> simp [Inst.Clears, *]

@[simp] theorem Inst.clearFlag_tdr (x : Inst) (f : Flag) : (x.clearFlag f).tdr = x.tdr := rfl

/-- Clearing an error flag clears no flag of the data register. -/
theorem Inst.InChangeSet.clearFlag (x : Inst) (f : ErrorFlag) (hown : own) :
    Inst.InChangeSet cfg own x (x.clearFlag (errorFlag f)) := by
  obtain ⟨hpend, hpairings, hrx, htx⟩ := (Inst.Change.clearError x f).fixed (cfg := cfg)
  refine ⟨hpend, hpairings, hrx, htx, rfl, ?_, ?_, ?_, fun h => absurd hown h⟩ <;>
    cases f <;> simp [Inst.Clears, Inst.flag_clearFlag, errorFlag]

/-- A read of the data register clears RXNE and PE, and ORE where it does, together. -/
theorem Inst.InChangeSet.dataRead (cfg : Config) (x : Inst) :
    Inst.InChangeSet cfg own x (x.dataReadEffect cfg) := by
  obtain ⟨hpend, hpairings, hrx, htx⟩ := (Inst.Change.read (cfg := cfg) x .data).fixed
  have htdr : (x.dataReadEffect cfg).tdr = x.tdr := Inst.regReadEffect_tdr cfg x .data
  refine ⟨hpend, hpairings, hrx, htx, Inst.regReadEffect_rdr cfg x .data, ?_, ?_, ?_, ?_⟩ <;>
    simp +contextual [Inst.Clears, Inst.flag_dataReadEffect, htdr]

/-- A write of the data register clears TXE and TC together. -/
theorem Inst.InChangeSet.dataWrite (x : Inst) (v : Word) : Inst.InChangeSet cfg own x (x.dataWrite v) := by
  obtain ⟨hpend, hpairings, hrx, htx⟩ := (Inst.Change.write (cfg := cfg) x .data v).fixed
  refine ⟨hpend, hpairings, hrx, htx, rfl, ?_, ?_, ?_, ?_⟩ <;> simp [Inst.Clears, Inst.flag_dataWrite]

/-! Many changes -/

theorem Inst.InChangeSet.refl (cfg : Config) (x : Inst) : Inst.InChangeSet cfg own x x :=
  .of_quiet (.refl x) rfl rfl rfl

/-- A flag that is cleared on the way is cleared by one of two changes. -/
theorem Inst.Clears.cases_mid {f : Flag} (h : x.Clears z f) (y : Inst) : x.Clears y f ∨ y.Clears z f := by
  obtain ⟨hx, hz⟩ := h
  cases hy : y.flag f
  · exact .inl ⟨hx, hy⟩
  · exact .inr ⟨hy, hz⟩

theorem Inst.InChangeSet.stays_clear (h : Inst.InChangeSet cfg own x y) {f : Flag} (hf : x.flag f = false) :
    y.flag f = false := by
  cases hy : y.flag f
  · rfl
  · rw [h.onlyFalls f hy] at hf
    cases hf

theorem Inst.InChangeSet.trans (h : Inst.InChangeSet cfg own x y) (h' : Inst.InChangeSet cfg own y z) :
    Inst.InChangeSet cfg own x z where
  pend := h'.pend.trans h.pend
  pairings := h'.pairings.trans h.pairings
  rxCapacity := h'.rxCapacity.trans h.rxCapacity
  txCapacity := h'.txCapacity.trans h.txCapacity
  rdr := h'.rdr.trans h.rdr
  onlyFalls f hz := h.onlyFalls f (h'.onlyFalls f hz)
  readsData hc := by
    rcases hc.cases_mid y with hc | hc
    · obtain ⟨hpe, hore⟩ := h.readsData hc
      exact ⟨h'.stays_clear hpe, fun hd => h'.stays_clear (hore hd)⟩
    · exact h'.readsData hc
  writesData hc := by
    have hmid : (x.Clears y .txe ∨ x.Clears y .tc ∨ y.tdr ≠ x.tdr) ∨
        (y.Clears z .txe ∨ y.Clears z .tc ∨ z.tdr ≠ y.tdr) := by
      rcases hc with hc | hc | hc
      · exact (hc.cases_mid y).imp .inl .inl
      · exact (hc.cases_mid y).imp (.inr ∘ .inl) (.inr ∘ .inl)
      · by_cases hy : y.tdr = x.tdr
        · exact .inr (.inr (.inr (hy ▸ hc)))
        · exact .inl (.inr (.inr hy))
    rcases hmid with hmid | hmid
    · exact (h.writesData hmid).imp h'.stays_clear h'.stays_clear
    · exact h'.writesData hmid
  foreign hown := by
    obtain ⟨hlbd, hpe, hore⟩ := h.foreign hown
    obtain ⟨hlbd', hpe', hore'⟩ := h'.foreign hown
    refine ⟨fun hc => (hc.cases_mid y).elim hlbd hlbd', fun hc => ?_, fun hc => ?_⟩
    · exact (hc.cases_mid y).elim (fun hc => h'.stays_clear (hpe hc)) hpe'
    · rcases hc.cases_mid y with hc | hc
      · exact (hore hc).imp_right (And.imp h'.stays_clear h'.stays_clear)
      · exact hore' hc

end

/-! Every instance -/

/-- Every instance of `t` is one of `s` after changes of a user handler that `DISP[i]` invoked. -/
def State.InChangeSet (i : InstId) (s t : State) : Prop :=
  ∀ j, Inst.InChangeSet s.cfg (j = i) (s.inst j) (t.inst j)

theorem State.InChangeSet.of_inst {s t : State} (i : InstId) (h : ∀ j, t.inst j = s.inst j) :
    State.InChangeSet i s t := fun j => by
  rw [h j]
  exact .refl ..

theorem State.InChangeSet.modInst {s : State} {i k : InstId} {f : Inst → Inst}
    (h : Inst.InChangeSet s.cfg (k = i) (s.inst k) (f (s.inst k))) : State.InChangeSet i s (s.modInst k f) := by
  intro j
  rcases s.inst_modInst_cases k j f with hj | ⟨rfl, hj⟩ <;> rw [hj]
  · exact .refl ..
  · exact h

/-- Every single change of a user handler is in the change set. -/
theorem State.act_inChangeSet (s : State) (i : InstId) (a : HandlerAct) : State.InChangeSet i s (s.act i a) := by
  cases a <;> simp only [State.act]
  case clearFlag f => exact .modInst (.clearFlag _ f rfl)
  case readData j => exact .modInst (.dataRead s.cfg _)
  case writeData j v => exact .modInst (.dataWrite _ v)
  case writeReg j r v =>
    exact .modInst (.of_quiet (.write _ (ctrlReg r) v) (by cases r <;> rfl) (by simp) (by cases r <;> rfl))
  case setRingW j a w => exact .modInst (.of_quiet (.ringW _ a w) (by simp) (by simp) (by simp))
  case setRingR j a r => exact .modInst (.of_quiet (.ringR _ a r) (by simp) (by simp) (by simp))
  case setCell j a n b =>
    split
    · exact .of_inst i fun _ => rfl
    · rename_i hn
      exact .modInst (.of_quiet (.cell _ a n b (BitVec.not_le.1 hn)) (by simp) (by simp) (by simp))
  case setCb j k h =>
    split
    · exact .modInst (.of_quiet (.callback _ k h) rfl rfl rfl)
    · exact .of_inst i fun _ => rfl
  case setVec j b => exact .modInst (.of_quiet (.vector _ b) rfl rfl rfl)
  case setClk j b => exact .modInst (.of_quiet (.clock _ b) rfl rfl rfl)
  case setPins j p => exact .modInst (.of_quiet (.pinPair _ p) rfl rfl rfl)
  case writeMem a b =>
    split <;> exact .of_inst i fun _ => rfl
  case setGie | setRes | setOk => exact .of_inst i fun _ => rfl

theorem State.acts_inChangeSet (s : State) (i : InstId) (l : List HandlerAct) :
    State.InChangeSet i s (s.acts i l) := by
  induction l generalizing s with
  | nil => exact .of_inst i fun _ => rfl
  | cons a l ih =>
    intro j
    have hcfg : (s.act i a).cfg = s.cfg := congrArg Prod.fst (s.act_outside i a)
    have hrest := ih (s.act i a) j
    rw [hcfg] at hrest
    exact (s.act_inChangeSet i a j).trans hrest

theorem State.runHandler_inChangeSet {s t : State} {h : Word} {i : InstId} {k : Kind} {arg : Option Byte}
    (hr : s.runHandler h i k arg = some t) : State.InChangeSet i s t := by
  obtain ⟨l, d, rfl⟩ := State.runHandler_cases hr
  exact State.acts_inChangeSet { s with draws := d } i l

/-- Settles O36: a bound handler that returns has made a list of changes, which keeps what is outside the change
set of the state and each instance inside it. -/
theorem userHandlerStaysInItsChangeSet : Obligations.UserHandlerStaysInItsChangeSet := by
  intro s t i k arg l hbound hinv
  rcases State.invoke_cases hinv with ⟨u, -, hu, rfl⟩ | ⟨hdefault, -⟩ | ⟨hdefault, -⟩
  · have hout := State.runHandler_outside hu
    simp only [State.outsideHandlers, Prod.mk.injEq] at hout
    obtain ⟨hcfg, hprog, hpc, hloc, hactive, -, hlat, hhalt, hfault, htrace, -, hlen⟩ := hout
    refine ⟨hpc, hloc, hactive, hlat, hhalt, hfault, hprog, hcfg, rfl, ?_, hlen, fun j => ?_⟩
    · rw [State.dgoto_trace, State.emit_trace, htrace]
    · obtain ⟨hpend, hpairings, hrx, htx, hrdr, hfalls, hreads, hwrites, hforeign⟩ :=
        State.runHandler_inChangeSet hu j
      exact ⟨hpend, hpairings, hrx, htx, hrdr, hfalls, hreads, hwrites, hforeign⟩
  · exact absurd hdefault hbound
  · exact absurd hdefault hbound

end Sys2Proof.Machine
end

section
/-! The callback operations (45_callbacks.md R108 to R110): each micro-step as an equation. -/

namespace Sys2Proof.Machine

/-- An id is legal if it is Default or has a relation. -/
theorem legalHandler_iff (cfg : Config) (h : Word) :
    legalHandler cfg h = true ↔ h = 0#32 ∨ ∃ r, cfg.handlers.lookup h = some r := by
  by_cases hz : h = 0#32 <;> simp [legalHandler, handlerDef, hz, Option.isSome_iff_exists]

section
variable {s : State} {i : InstId}

section
variable (hl : s.fg.loc = .start) (hi : s.has i = true)
include hl hi

theorem exec_enableCallback_start (k : Kind) : exec (.enableCallback i k) s =
    .next (s.goto (.enableCallback i k) (.h2 (s.regVal i (enableReg k)))) := by
  simp only [exec, execEnableCallback, hl, State.begin_of_has hi]

theorem exec_disableCallback_start (k : Kind) : exec (.disableCallback i k) s =
    .next (s.goto (.disableCallback i k) (.j2 (s.regVal i (enableReg k)))) := by
  simp only [exec, execDisableCallback, hl, State.begin_of_has hi]

theorem exec_setCallback (k : Kind) (h : Word) : exec (.setCallback i k h) s =
    if legalHandler s.cfg h then .next (s.modInst i fun x => { x with cb := x.cb.set k h }).finish
    else .next { s with fault := some .invalidHandler } := by
  simp only [exec, execSetCallback, hl, State.begin_of_has hi, State.raise]

end

section
variable {op : Instr} {v : Word}

theorem exec_enableCallback_h2 (hl : s.fg.loc = .busy op (.h2 v)) (k : Kind) : exec (.enableCallback i k) s =
    .next ((s.regWrite i (enableReg k) (setBit v (enableBit k))).goto (.enableCallback i k) .h3) := by
  simp only [exec, execEnableCallback, hl]

theorem exec_enableCallback_h3 (hl : s.fg.loc = .busy op .h3) (k : Kind) :
    exec (.enableCallback i k) s = .next (s.enableVector i).finish := by
  simp only [exec, execEnableCallback, hl]

theorem exec_disableCallback_j2 (hl : s.fg.loc = .busy op (.j2 v)) (k : Kind) : exec (.disableCallback i k) s =
    .next (s.regWrite i (enableReg k) (clearBit v (enableBit k))).finish := by
  simp only [exec, execDisableCallback, hl]

end

/-- An update that changes nothing of its instance changes nothing. -/
theorem State.modInst_eq_self {f : Inst → Inst} (h : f (s.inst i) = s.inst i) : s.modInst i f = s := by
  have hinsts : s.insts.modify i.val f = s.insts := by
    apply List.ext_getElem?
    intro n
    rw [List.getElem?_modify]
    by_cases hn : i.val = n
    · subst hn
      rcases hx : s.insts[i.val]? with _ | x
      · rfl
      · have hinst : s.inst i = x := by simp [State.inst, List.getD_eq_getElem?_getD, hx]
        simpa [hinst] using h
    · simp [hn]
  rw [State.modInst, hinsts]

/-- H3 sets the vector, whatever it was; the history gains the event only if it was not set. -/
theorem State.enableVector_eq (s : State) (i : InstId) : s.enableVector i =
    { s.modInst i fun x => { x with vec := true } with
      trace := s.trace ++ if (s.inst i).vec then [] else [.vectorEnable i] } := by
  unfold State.enableVector
  split
  · rename_i hvec
    rw [State.modInst_eq_self (f := fun x => { x with vec := true }) (by rw [← hvec]), List.append_nil]
  · rfl

end

/-- Settles O18: H1 is a `goto` with the value read, H2 one masked write of the kind's register, H3 the vector. -/
theorem enableCallbackMicroSteps : Obligations.EnableCallbackMicroSteps := by
  intro s i k hi
  refine ⟨fun hl => ?_, fun _ v hl => ⟨_, exec_enableCallback_h2 hl k, ?_⟩,
    fun _ hl => ⟨_, exec_enableCallback_h3 hl k, ?_⟩⟩
  · rw [exec_enableCallback_start hl hi]
    cases k <;> rfl
  · obtain ⟨hfg, hinst, hrest⟩ := State.modInst_fg_frame hi
      (fun x => x.regWrite (enableReg k) (setBit v (enableBit k))) (s.fg.at (.enableCallback i k) .h3)
    refine ⟨hfg, hinst.trans ?_, hrest⟩
    cases k <;> rfl
  · rw [State.enableVector_eq]
    exact State.finish_modInst_frame hi _ _

/-- Settles O19: J1 is a `goto` with the value read, J2 one masked write of the kind's register. -/
theorem disableCallbackMicroSteps : Obligations.DisableCallbackMicroSteps := by
  intro s i k hi
  refine ⟨fun hl => ?_, fun _ v hl => ⟨_, exec_disableCallback_j2 hl k, ?_⟩⟩
  · rw [exec_disableCallback_start hl hi]
    cases k <;> rfl
  · obtain ⟨hfg, hinst, hrest⟩ := State.finish_modInst_frame hi
      (fun x => x.regWrite (enableReg k) (clearBit v (enableBit k))) s.trace
    refine ⟨hfg, hinst.trans ?_, hrest⟩
    cases k <;> rfl

/-- Settles O20: Z1 branches on the legality of the id alone. -/
theorem setCallbackBindsALegalHandler : Obligations.SetCallbackBindsALegalHandler := by
  intro s i k h hl hi
  refine ⟨fun hlegal => ?_, fun hz hnone => ?_⟩
  · obtain ⟨t, hexec, hfg, hinst, hrest⟩ : ∃ t, exec (.setCallback i k h) s = .next t ∧ t.fg = s.fg.next ∧
        t.inst i = { s.inst i with cb := (s.inst i).cb.set k h } ∧ t.trace = s.trace ∧ SameMem s t ∧
        SameElsewhere i s t :=
      ⟨_, (exec_setCallback hl hi k h).trans (if_pos ((legalHandler_iff ..).2 hlegal)),
        State.finish_modInst_frame hi _ s.trace⟩
    refine ⟨t, hexec, hfg, ?_, ?_, fun l hne => ?_, hrest⟩ <;> rw [hinst]
    · exact Callbacks.get_set_self ..
    · exact Callbacks.get_set_of_ne _ hne h
  · have hillegal : ¬ legalHandler s.cfg h = true := by simp [legalHandler_iff, hz, hnone]
    exact (exec_setCallback hl hi k h).trans (if_neg hillegal)

end Sys2Proof.Machine
end

section
/-! An invocation of a callback (45_callbacks.md R112, R114). -/

namespace Sys2Proof.Machine

section
variable {s : State} {i : InstId} {k : Kind} (arg : Option Byte) (l : DLoc)

/-- Default halts for a fatal kind and goes on for any other. -/
theorem State.invoke_default (h : (s.inst i).cb.get k = 0#32) : s.invoke i k arg l =
    if fatal k then .next (s.defaultHalt i k) else .next (s.dgoto l) := by
  simp [State.invoke, h]

variable {h : Word} (hcb : (s.inst i).cb.get k = h) (hne : h ≠ 0#32)
include hcb hne

/-- A bound handler with one effect makes its changes. -/
theorem State.invoke_single {acts : List HandlerAct} (hr : s.cfg.handlers.lookup h = some (.oneOf [acts])) :
    s.invoke i k arg l = .next (((s.acts i acts).emit (.callback i k h arg)).dgoto l) := by
  simp [State.invoke, State.runHandler, handlerDef, hcb, hne, hr]

/-- A bound handler without an effect has no successor. -/
theorem State.invoke_empty (hr : s.cfg.handlers.lookup h = some (.oneOf [])) :
    s.invoke i k arg l = .fault .dispatcherStuck := by
  simp [State.invoke, State.runHandler, handlerDef, hcb, hne, hr]

end

/-- Settles O35: an invocation branches on Default and the kind, or on the bound handler's relation. -/
theorem invocationRunsTheBoundHandler : Obligations.InvocationRunsTheBoundHandler := by
  intro s i k arg l
  refine ⟨fun hdefault => ⟨fun hk => ?_, fun hk => ?_⟩, fun h r hi hcb hne hr => ⟨?_, fun f => ?_, ?_⟩, ?_⟩
  · rw [State.invoke_default arg l hdefault]
    rcases hk with rfl | rfl | rfl <;> rfl
  · rw [State.invoke_default arg l hdefault]
    rcases hk with rfl | rfl <;> rfl
  · rintro rfl
    exact State.invoke_single arg l hcb hne hr
  · rintro rfl hpe
    refine ⟨_, State.invoke_single arg l hcb hne hr, rfl, rfl, ?_, rfl, fun _ => rfl,
      s.sameElsewhere_modInst i fun x => x.clearFlag (errorFlag f)⟩
    refine (State.inst_modInst_self hi fun x => x.clearFlag (errorFlag f)).trans ?_
    cases f
    · rfl
    · rfl
    · exact absurd rfl hpe
  · rintro rfl
    exact State.invoke_empty arg l hcb hne hr
  · exact ⟨dispStepAt_of_invokes rfl s i, dispStepAt_of_invokes rfl s i, fun _ => dispStepAt_of_invokes rfl s i,
      fun _ => dispStepAt_of_invokes rfl s i, dispStepAt_of_invokes rfl s i⟩

end Sys2Proof.Machine
end

section
/-! A parity error stays with its byte (46_line.md R123). -/

namespace Sys2Proof.Machine

/-- PE of one instance is 1 only together with its RXNE. -/
def Inst.ParityWithByte (x : Inst) : Prop := x.flag .pe = true → x.flag .rxne = true

section
variable {x y : Inst}

theorem Inst.ParityWithByte.of_stat_eq (hstat : y.stat = x.stat) (h : x.ParityWithByte) : y.ParityWithByte := by
  unfold Inst.ParityWithByte
  rw [Inst.flag_congr hstat, Inst.flag_congr hstat]
  exact h

/-- Where RXNE is 1, PE may be either. -/
theorem Inst.ParityWithByte.of_rxne (h : x.flag .rxne = true) : x.ParityWithByte := fun _ => h

theorem Inst.ParityWithByte.raiseFlag (h : x.ParityWithByte) {f : Flag} (hf : f ≠ .pe) :
    (x.raiseFlag f).ParityWithByte := by
  intro hpe
  rw [Inst.flag_raiseFlag, decide_eq_false hf.symm, Bool.false_or] at hpe
  rw [Inst.flag_raiseFlag, h hpe, Bool.or_true]

theorem Inst.ParityWithByte.clearFlag (h : x.ParityWithByte) {f : Flag} (hf : f ≠ .rxne) :
    (x.clearFlag f).ParityWithByte := by
  intro hpe
  rw [Inst.flag_clearFlag, Bool.and_eq_true] at hpe
  rw [Inst.flag_clearFlag, decide_eq_false hf.symm, h hpe.2]
  rfl

/-- No write of a register touches PE or RXNE: a write of `DATA` clears TXE and TC. -/
theorem Inst.ParityWithByte.regWrite (h : x.ParityWithByte) (r : Reg) (v : Word) :
    (x.regWrite r v).ParityWithByte := by
  cases r with
  | data => simpa [Inst.ParityWithByte, Inst.regWrite, Inst.flag_dataWrite] using h
  | _ => exact h.of_stat_eq rfl

/-- A read of `DATA` clears PE and RXNE together. -/
theorem Inst.ParityWithByte.regReadEffect (h : x.ParityWithByte) (cfg : Config) (r : Reg) :
    (x.regReadEffect cfg r).ParityWithByte := by
  cases r with
  | data => simp [Inst.ParityWithByte, Inst.regReadEffect, Inst.flag_dataReadEffect]
  | _ => exact h

/-- A byte that arrives leaves RXNE 1, stored or lost, with a parity error or without. -/
theorem Inst.rxne_receive (x : Inst) (b : Byte) : (x.receive b).flag .rxne = true := by
  unfold Inst.receive
  split
  next hrxne => simp [Inst.flag_raiseFlag, hrxne]
  next => simp [Inst.flag_raiseFlag]

theorem Inst.rxne_receivePerr (x : Inst) (d : Bool) (b : Byte) : (x.receivePerr d b).flag .rxne = true := by
  unfold Inst.receivePerr
  split
  next hrxne => cases d <;> simp [Inst.flag_raiseFlag, hrxne]
  next => simp [Inst.flag_raiseFlag]

/-- PE rises only where a byte arrives, which leaves RXNE 1, and RXNE falls only with PE. -/
theorem Inst.ParityWithByte.change {cfg : Config} (hc : Inst.Change cfg x y) (h : x.ParityWithByte) :
    y.ParityWithByte := by
  cases hc with
  | receive b => exact .of_rxne (x.rxne_receive b)
  | receivePerr d b => exact .of_rxne (x.rxne_receivePerr d b)
  | raise f hf => exact h.raiseFlag hf
  | clearError f => exact h.clearFlag (by cases f <;> decide)
  | write r v => exact h.regWrite r v
  | read r => exact h.regReadEffect cfg r
  | ringW | ringR | cell => exact h.of_stat_eq (by simp)
  | refl | callback | vector | clock | pinPair | breakSent => exact h.of_stat_eq rfl

end

/-- Settles O53: every change of an instance keeps PE with RXNE, and a step makes no other. -/
theorem stepKeepsParityWithItsByte : Obligations.StepKeepsParityWithItsByte := by
  intro s t hs h
  exact step_forall (P := Inst.ParityWithByte) h (fun _ _ hc => Inst.ParityWithByte.change hc)
    (fun _ _ hx => hx.of_stat_eq rfl) hs

end Sys2Proof.Machine
end

section
/-! The moves of the line (46_line.md R116 to R126): when a stimulus is refused, and what it does where it is
available. -/

namespace Sys2Proof.Machine

/-! The gates -/

theorem Inst.rxGate_eq_false_iff (x : Inst) : x.rxGate = false ↔
    x.clk = false ∨ x.ctrl.getLsbD 13 = false ∨ x.ctrl.getLsbD 2 = false := by
  simp only [Inst.rxGate, Bool.and_eq_false_iff, or_assoc]
  rfl

theorem Inst.txGate_eq_false_iff (x : Inst) : x.txGate = false ↔
    x.clk = false ∨ x.ctrl.getLsbD 13 = false ∨ x.ctrl.getLsbD 3 = false := by
  simp only [Inst.txGate, Bool.and_eq_false_iff, or_assoc]
  rfl

/-! A byte arrives -/

theorem Inst.receive_eq (x : Inst) (b : Byte) : x.receive b =
    if x.stat.getLsbD 5 then { x with stat := x.stat ||| 0x08#32 }
    else { x with rdr := b, stat := x.stat ||| 0x20#32 } := rfl

/-- Two bits set one after the other are one mask. -/
theorem setBit_setBit (v : Word) (m n : Nat) : setBit (setBit v m) n = v ||| (1#32 <<< m ||| 1#32 <<< n) :=
  BitVec.or_assoc ..

theorem Inst.receivePerr_eq (x : Inst) (d : Bool) (b : Byte) : x.receivePerr d b =
    if x.stat.getLsbD 5 then { x with stat := x.stat ||| (if d then 0x09#32 else 0x08#32) }
    else { x with rdr := b, stat := x.stat ||| 0x21#32 } := by
  simp only [Inst.receivePerr, Inst.raiseFlag, setBit_setBit]
  cases d <;> rfl

/-! One move -/

section
variable {s : State} {i : InstId} {available : Bool}

theorem State.lineMove_of_absent (hi : s.has i = false) (available : Bool) (t : State) :
    s.lineMove i available t = .refused .stimulusIllegal := by simp [State.lineMove, hi]

theorem State.lineMove_of_unavailable (hi : s.has i = true) (ha : available = false) (t : State) :
    s.lineMove i available t = .refused .stimulusUnavailable := by simp [State.lineMove, hi, ha]

/-- An available move that updates its instance by `f` and leaves the history at `l`, with its frame. -/
theorem State.lineMove_of_available (hi : s.has i = true) (ha : available = true) (f : Inst → Inst)
    (l : List Event) : ∃ t, s.lineMove i available { s.modInst i f with trace := l } = .next t ∧ t.fg = s.fg ∧
      t.inst i = f (s.inst i) ∧ t.trace = l ∧ SameMem s t ∧ SameElsewhere i s t :=
  ⟨{ s.modInst i f with trace := l }, by simp [State.lineMove, hi, ha], rfl, State.inst_modInst_self hi f, rfl,
    fun _ => rfl, s.sameElsewhere_modInst i f⟩

end

/-- Settles O28: a byte arrives in one update of its instance. -/
theorem lineBytesAreStoredOrOverrun : Obligations.LineBytesAreStoredOrOverrun := by
  intro s i d b hi hgate
  rw [← Inst.receive_eq, ← Inst.receivePerr_eq]
  exact ⟨State.lineMove_of_available hi hgate (fun x => x.receive b) s.trace,
    State.lineMove_of_available hi hgate (fun x => x.receivePerr d b) s.trace⟩

/-- Settles O29: each move is one update of its instance, a shift and a break sent with one event. -/
theorem lineBreakAndTransmitMoves : Obligations.LineBreakAndTransmitMoves := by
  intro s i hi
  refine ⟨fun hgate => ?_, fun hgate (htxe : (s.inst i).flag .txe = false) => ?_,
    fun hgate (htxe : (s.inst i).flag .txe = true) (htc : (s.inst i).flag .tc = false) => ?_,
    fun hgate (hsbk : (s.inst i).field .sbk = true) => ?_⟩
  · exact State.lineMove_of_available hi hgate (fun x => x.raiseFlag .lbd) s.trace
  · have ha : ((s.inst i).txGate && !(s.inst i).flag .txe) = true := by simp [hgate, htxe]
    exact State.lineMove_of_available hi ha (fun x => x.raiseFlag .txe) (s.trace ++ [.txOut i (s.inst i).tdr])
  · exact State.lineMove_of_available hi (by simp [hgate, htxe, htc]) (fun x => x.raiseFlag .tc) s.trace
  · have ha : ((s.inst i).txGate && (s.inst i).field .sbk) = true := by simp [hgate, hsbk]
    exact State.lineMove_of_available hi ha (fun x => { x with ctrl := clearBit x.ctrl Field.sbk.bit })
      (s.trace ++ [.txBreak i])

/-- Settles O30: each stimulus is a line move, whose availability is a conjunction of its gate and conditions. -/
theorem unavailableStimulusIsRefused : Obligations.UnavailableStimulusIsRefused := by
  intro s i b d
  refine ⟨fun hi => ⟨fun hrx => ?_, fun htx => ?_, fun (htxe : (s.inst i).flag .txe = true) => ?_,
    fun (htc : (s.inst i).flag .txe = false ∨ (s.inst i).flag .tc = true) => ?_,
    fun (hsbk : (s.inst i).field .sbk = false) => ?_⟩, fun hi => ?_⟩
  · have hgate := (s.inst i).rxGate_eq_false_iff.2 hrx
    refine ⟨?_, ?_, ?_⟩ <;> exact State.lineMove_of_unavailable hi hgate _
  · have hgate := (s.inst i).txGate_eq_false_iff.2 htx
    refine ⟨?_, ?_, ?_⟩ <;> exact State.lineMove_of_unavailable hi (by simp [hgate]) _
  · exact State.lineMove_of_unavailable hi (by simp [htxe]) _
  · exact State.lineMove_of_unavailable hi (by rcases htc with h | h <;> simp [h]) _
  · exact State.lineMove_of_unavailable hi (by simp [hsbk]) _
  · refine ⟨?_, ?_, ?_, ?_, ?_, ?_⟩ <;> exact State.lineMove_of_absent hi _ _

end Sys2Proof.Machine
end

section
/-! Which move a step takes, and the scheduler's conditions over the fields of the state (60_exceptions.md R131,
R133, R134). -/

namespace Sys2Proof.Machine

theorem State.allowed_iff (s : State) (i : InstId) : s.allowed i = true ↔
    s.halt = none ∧ s.fault = none ∧ s.gie = true ∧ s.has i = true ∧ (s.inst i).vec = true ∧
      (s.inst i).pend = true ∧ s.active = none := by
  simp only [State.allowed, State.entriesOpen, Bool.and_eq_true, Option.isNone_iff_eq_none]
  tauto

theorem State.someAllowed_eq_false_iff (s : State) : s.someAllowed = false ↔ ∀ i, s.allowed i = false := by
  simp only [← Bool.not_eq_true, State.someAllowed_iff, not_exists]

theorem State.fgMay_iff (s : State) : s.fgMay = true ↔
    s.active = none ∧ s.halt = none ∧ s.fault = none ∧ s.fg.pc < s.prog.length ∧
      ((∀ i, ¬ s.allowed i = true) ∨ s.lat < s.cfg.irqLatency) := by
  simp only [State.fgMay, State.finished, Bool.and_eq_true, Bool.or_eq_true, Bool.not_eq_true',
    Option.isNone_iff_eq_none, decide_eq_true_eq, decide_eq_false_iff_not, not_le,
    State.someAllowed_eq_false_iff, Bool.not_eq_true]
  tauto

theorem step_of_choose {s u : State} {m : Move} (h : s.choose = some (m, u)) : step s = runMove m u := by
  simp [step, machineStep, h]

/-- The choice of a move uses up the schedule or a draw, nothing else. -/
theorem State.choose_cases {s u : State} {m : Move} (h : s.choose = some (m, u)) :
    ∃ l d, u = { s with sched := l, draws := d } := by
  unfold State.choose at h
  split at h
  · cases h
    exact ⟨_, s.draws, rfl⟩
  · obtain ⟨_, -, he⟩ := Option.map_eq_some_iff.1 h
    cases he
    exact ⟨s.sched, _, rfl⟩

theorem State.guarded_of_not_may {s : State} {may : Bool} (hf : s.fault = none) (hm : may = false) (r : Result) :
    s.guarded may r = .refused .moveUnavailable := by simp [State.guarded, hf, hm]

end Sys2Proof.Machine
end

section
/-! What a micro-step leaves alone of what the interrupt mechanism reads: only an entry clears a pending latch,
and only the exit sets the latency counter (44_dispatcher.md R102, 60_exceptions.md R131). -/

namespace Sys2Proof.Machine

/-- The parameters, the program, the active dispatcher, the latency counter, and which peripherals there are with
their pending latches, are kept. -/
structure State.Keeps (s t : State) : Prop where
  cfg : t.cfg = s.cfg
  prog : t.prog = s.prog
  active : t.active = s.active
  lat : t.lat = s.lat
  length : t.insts.length = s.insts.length
  pend : ∀ j, (t.inst j).pend = (s.inst j).pend

theorem State.keeps_fault (s : State) (r : FaultReason) : s.Keeps { s with fault := some r } :=
  ⟨rfl, rfl, rfl, rfl, rfl, fun _ => rfl⟩

/-- An update of one peripheral by a single change keeps all of it. -/
theorem State.Keeps.of_change {s : State} {i : InstId} {f : Inst → Inst}
    (hc : Inst.Change s.cfg (s.inst i) (f (s.inst i))) : s.Keeps (s.modInst i f) where
  cfg := rfl
  prog := rfl
  active := rfl
  lat := rfl
  length := List.length_modify ..
  pend j := by
    rcases s.inst_modInst_cases i j f with h | ⟨rfl, h⟩ <;> rw [h]
    obtain ⟨hpend, -⟩ := hc.fixed
    exact hpend

theorem exec_foreground_keeps {op : Instr} {s t : State} (ha : op.agent = .foreground)
    (h : exec op s = .next t) : s.Keeps t := by
  rcases exec_foreground_cases ha h with ⟨f, g, m, tr, rfl, hc, -⟩ | ⟨r, rfl⟩
  · exact { State.Keeps.of_change hc with }
  · exact s.keeps_fault r

theorem fgStep_keeps {s t : State} (h : fgStep s = .next t) : s.Keeps t := by
  rcases fgStep_operation h with ⟨op, -, ha, he⟩ | rfl
  · exact exec_foreground_keeps ha he
  · exact s.keeps_fault _

theorem exec_line_keeps {op : Instr} {s t : State} (ha : op.agent = .line) (h : exec op s = .next t) :
    s.Keeps t := by
  obtain ⟨-, f, tr, rfl, hc⟩ := exec_line_cases ha h
  exact { State.Keeps.of_change hc with }

/-- An invocation keeps all of it, since none of it is in a user handler's change set (45_callbacks.md R113). -/
theorem State.invoke_keeps {s t : State} {i : InstId} {k : Kind} {arg : Option Byte} {l : DLoc}
    (h : s.invoke i k arg l = .next t) : s.Keeps t := by
  rcases State.invoke_cases h with ⟨u, -, hu, rfl⟩ | ⟨-, -, rfl⟩ | ⟨-, -, rfl⟩
  · have hout := State.runHandler_outside hu
    simp only [State.outsideHandlers, Prod.mk.injEq] at hout
    obtain ⟨hcfg, hprog, -, -, hactive, -, hlat, -, -, -, -, hlen⟩ := hout
    exact ⟨hcfg, hprog, hactive, hlat, hlen, fun j => (State.runHandler_inChangeSet hu j).pend⟩
  · exact ⟨rfl, rfl, rfl, rfl, rfl, fun _ => rfl⟩
  · exact ⟨rfl, rfl, rfl, rfl, rfl, fun _ => rfl⟩

/-- A dispatcher's micro-step is the exit or keeps all of it. -/
theorem dispStepAt_keeps {i : InstId} {l : DLoc} {s t : State} (h : dispStepAt i l s = .next t) :
    s.Keeps t ∨ t = s.exit := by
  rcases dispStepAt_cases h with ⟨f, l', rfl, hc, -⟩ | ⟨k, arg, -, -, hi⟩ | rfl | ⟨-, rfl⟩
  · exact .inl { State.Keeps.of_change hc with }
  · exact .inl (State.invoke_keeps hi)
  · exact .inl (s.keeps_fault _)
  · exact .inr rfl

/-- Every move: an entry, the exit of the active dispatcher, or a micro-step that keeps what the interrupt mechanism
reads; then what follows every micro-step. -/
theorem runMove_keeps {m : Move} {s t : State} (h : runMove m s = .next t) :
    (∃ i, m = .enter i ∧ t = s.settle false (s.enter i)) ∨
    (m = .disp ∧ t = s.settle false s.exit) ∨
    (∃ u, s.Keeps u ∧ t = s.settle (decide (m = .fg)) u ∧ (∀ i, m ≠ .enter i) ∧
      (m = .disp → s.active ≠ none)) := by
  rcases runMove_cases h with ⟨rfl, -, -, u, hu, rfl⟩ | ⟨i, rfl, -, -, rfl⟩ |
    ⟨rfl, -, -, i, l, u, hi, -, hu, rfl⟩ | ⟨d, op, u, rfl, -, -, ha, he, rfl⟩
  · exact .inr (.inr ⟨u, fgStep_keeps hu, rfl, nofun, nofun⟩)
  · exact .inl ⟨i, rfl, rfl⟩
  · rcases dispStepAt_keeps hu with hk | rfl
    · exact .inr (.inr ⟨u, hk, rfl, nofun, fun _ => by simp [hi]⟩)
    · exact .inr (.inl ⟨rfl, rfl⟩)
  · exact .inr (.inr ⟨u, exec_line_keeps ha he, rfl, nofun, nofun⟩)

theorem Inst.Changes.pairings {cfg : Config} {x y : Inst} (h : Inst.Changes cfg x y) :
    y.pairings = x.pairings := by
  induction h with
  | refl => rfl
  | tail _ hxy ih =>
    rcases hxy with hxy | ⟨p, rfl⟩
    · obtain ⟨-, hp, -, -⟩ := hxy.fixed
      exact hp.trans ih
    · exact ih

/-- Settles O46: every micro-step keeps the parameters and the program, and no change of a peripheral is one of its
pin pairings or of a capacity. -/
theorem parametersAndProgramNeverChange : Obligations.ParametersAndProgramNeverChange := by
  intro s t h
  have hch := step_change h
  obtain ⟨hcfg, hprog⟩ : t.cfg = s.cfg ∧ t.prog = s.prog := by
    obtain ⟨m, l, d, hrun⟩ := step_cases h
    rcases runMove_keeps hrun with ⟨i, -, rfl⟩ | ⟨-, rfl⟩ | ⟨u, hk, rfl, -⟩
    · exact ⟨State.settle_cfg .., State.settle_prog ..⟩
    · exact ⟨State.settle_cfg .., State.settle_prog ..⟩
    · exact ⟨(State.settle_cfg ..).trans hk.cfg, (State.settle_prog ..).trans hk.prog⟩
  exact ⟨hcfg, hprog, hch.length_eq.symm,
    fun i => ⟨(hch.inst i).pairings, (hch.inst i).logC⟩⟩

end Sys2Proof.Machine
end

section
/-! A fault stops every agent, a halt every agent but the line, and an active dispatcher FG and every entry
(60_exceptions.md R131, R134, R138, R141). -/

namespace Sys2Proof.Machine

/-- Settles O43: every move is made with FAULT clear. -/
theorem faultStopsEveryAgent : Obligations.FaultStopsEveryAgent := by
  intro s f hf t h
  obtain ⟨m, l, d, b, u, -, -, hnone, -⟩ := step_moves h
  exact Option.some_ne_none f (hf.symm.trans hnone)

/-- Settles O44: FG, an entry and the dispatcher each need HALT clear, and a line move writes nothing of the core. -/
theorem haltFreezesTheCore : Obligations.HaltFreezesTheCore := by
  intro s t hhalt h
  obtain ⟨m, l, d, b, u, hchoose, rfl, -, hm⟩ := step_moves h
  rcases hm with ⟨-, hmay, -⟩ | ⟨i, -, hallowed, -⟩ | ⟨-, hmay, -⟩ | ⟨e, op, rfl, -, ha, he⟩
  · obtain ⟨-, hnone, -⟩ := (State.fgMay_iff s).1 hmay
    exact absurd hnone hhalt
  · obtain ⟨hnone, -⟩ := (State.allowed_iff s i).1 hallowed
    exact absurd hnone hhalt
  · simp only [State.dispMay, Bool.and_eq_true, Option.isNone_iff_eq_none] at hmay
    obtain ⟨⟨-, hnone⟩, -⟩ := hmay
    exact absurd hnone hhalt
  · obtain ⟨-, f, tr, rfl, -⟩ := exec_line_cases ha he
    exact ⟨⟨e, _, hchoose⟩, State.settle_halt .., State.settle_fg .., State.settle_active ..,
      State.settle_dloc .., State.settle_gie .., State.settle_mem ..⟩

/-- Settles O45: with a dispatcher active a step is its own micro-step, which keeps it active or is the exit, or a
line move. -/
theorem foregroundIsFrozenInHandlerContext : Obligations.ForegroundIsFrozenInHandlerContext := by
  intro s t i hi h
  have hbusy : s.active ≠ none := by simp [hi]
  obtain ⟨m, l, d, b, u, -, rfl, -, hm⟩ := step_moves h
  rw [State.settle_fg, State.settle_active]
  rcases hm with ⟨-, hmay, -⟩ | ⟨j, -, hallowed, -⟩ | ⟨-, -, j, k, hj, hk, hu⟩ | ⟨e, op, -, -, ha, he⟩
  · exact absurd (State.active_of_fgMay hmay) hbusy
  · exact absurd (State.active_of_allowed hallowed) hbusy
  · obtain ⟨hpc, hloc⟩ := dispStepAt_pc_loc hu
    refine ⟨hpc, hloc, (dispStepAt_keeps hu).imp (fun hkeeps => hkeeps.active.trans hi) fun he => by rw [he]; rfl,
      fun hr => ?_⟩
    exact (dispStepAt_plain (s := { s with sched := l, draws := d }) hr hj hk hu).1
  · obtain ⟨-, f, tr, rfl, -⟩ := exec_line_cases ha he
    exact ⟨rfl, rfl, .inl hi, fun _ => rfl⟩

end Sys2Proof.Machine
end

section
/-! The pending latches and the latency counter after a micro-step (60_exceptions.md R130, R133; log 12). -/

namespace Sys2Proof.Machine

/-! One latch -/

section
variable (cfg : Config) (before mine : Bool) (x : Inst)

theorem Inst.latch_pend : (x.latch cfg before mine).pend = (x.pend || (x.line cfg && (!mine || !before))) := by
  unfold Inst.latch
  split <;> simp_all

/-- A pending latch is no part of the line. -/
theorem Inst.latch_line : (x.latch cfg before mine).line cfg = x.line cfg := by
  obtain ⟨p, hp⟩ := x.latch_eq cfg before mine
  rw [hp]
  rfl

end

/-- The active dispatcher's own line latches nothing while it stays asserted. -/
theorem Inst.latch_held {cfg : Config} {before : Bool} {x : Inst} (h : x.line cfg = before) :
    x.latch cfg before true = x := by
  subst h
  cases hl : x.line cfg <;> simp [Inst.latch, hl]

/-- With its dispatcher not active an asserted line is latched. -/
theorem Inst.latch_asserted {cfg : Config} {x : Inst} (h : x.line cfg = true) (before : Bool) :
    x.latch cfg before false = { x with pend := true } := by simp [Inst.latch, h]

/-! Every latch -/

section
variable {s t : State} (b : Bool) (hf : t.fault = none)
include hf

/-- What sets a pending latch: a line asserted after the micro-step, of a peripheral whose dispatcher is not active,
or that rose. -/
theorem State.settle_pend {i : InstId} (hi : t.has i = true) : ((s.settle b t).inst i).pend = true ↔
    (t.inst i).pend = true ∨ (((s.settle b t).inst i).line t.cfg = true ∧
      (t.active ≠ some i ∨ (s.inst i).line s.cfg = false)) := by
  rw [State.settle_inst_latch b hf hi, Inst.latch_pend, Inst.latch_line]
  simp

/-- The latency counter counts FG's micro-steps while an entry is allowed. -/
theorem State.settle_lat : (s.settle b t).lat =
    if (s.settle b t).someAllowed then (if b then t.lat + 1 else t.lat) else 0 := by
  have hsettle : s.settle b t = (s.latchAll t).countLatency b := by simp [State.settle, hf]
  have hsame : ((s.latchAll t).countLatency b).someAllowed = (s.latchAll t).someAllowed := by
    unfold State.countLatency
    (repeat' split) <;> rfl
  rw [hsettle, hsame, State.countLatency]
  (repeat' split) <;> rfl

end

/-! An entry -/

@[simp] theorem State.has_enter (s : State) (i j : InstId) : (s.enter i).has j = s.has j :=
  s.has_modInst i j fun x => { x with pend := false }

theorem State.inst_enter_self {s : State} {i : InstId} (hi : s.has i = true) :
    (s.enter i).inst i = { s.inst i with pend := false } :=
  State.inst_modInst_self hi fun x => { x with pend := false }

theorem State.inst_enter_of_ne {s : State} {i j : InstId} (h : j ≠ i) : (s.enter i).inst j = s.inst j :=
  State.inst_modInst_of_ne h fun x => { x with pend := false }

/-- The latch an entry clears is not set again by what follows it: the line did not rise. -/
theorem State.settle_enter_inst {s : State} {i : InstId} (b : Bool) (hf : s.fault = none) (hi : s.has i = true) :
    (s.settle b (s.enter i)).inst i = { s.inst i with pend := false } := by
  have hmine : decide ((s.enter i).active = some i) = true := by simp
  rw [State.settle_inst_latch (t := s.enter i) b hf ((s.has_enter i i).trans hi), hmine, State.inst_enter_self hi]
  exact Inst.latch_held rfl

theorem step_enter {s : State} {i : InstId} {rest : List Move} (hs : s.sched = .enter i :: rest)
    (h : s.allowed i = true) : step s =
      .next (State.settle false { s with sched := rest } (State.enter { s with sched := rest } i)) := by
  obtain ⟨-, hf, -⟩ := (s.allowed_iff i).1 h
  rw [step_of_sched hs]
  exact State.guarded_of_may (s := { s with sched := rest }) hf h _

/-- Settles O38: a scheduled entry is guarded by `allowed`, and the entry touches the peripheral's pending latch, ACTIVE
and the dispatcher's label only. -/
theorem entryIsTakenExactlyWhenAllowed : Obligations.EntryIsTakenExactlyWhenAllowed := by
  intro s rest i hs hf allowed
  have hiff : s.allowed i = true ↔ allowed := by
    rw [State.allowed_iff]
    exact ⟨fun ⟨hhalt, _, hrest⟩ => ⟨hhalt, hrest⟩, fun ⟨hhalt, hrest⟩ => ⟨hhalt, hf, hrest⟩⟩
  refine ⟨fun hyes => ?_, fun hno => ?_⟩
  · have hstep := step_enter hs (hiff.2 hyes)
    obtain ⟨hhalt, -, hi, -⟩ := hyes
    refine ⟨_, hstep, State.settle_active .., State.settle_dloc ..,
      State.settle_enter_inst false hf hi, fun j hj => ?_, State.settle_fg .., State.settle_gie ..,
      State.settle_mem .., State.settle_trace .., (State.settle_halt ..).trans hhalt,
      (State.settle_fault ..).trans hf, State.settle_prog .., State.settle_cfg ..⟩
    obtain ⟨p, hp⟩ := State.settle_inst false { s with sched := rest } (State.enter { s with sched := rest } i) j
    rw [hp, State.inst_enter_of_ne hj]
    rfl
  · rw [step_of_sched hs]
    exact State.guarded_of_not_may (s := { s with sched := rest }) hf (Bool.eq_false_iff.2 (mt hiff.1 hno)) _

/-! Every move -/

/-- A move is a micro-step to a state `u` and then what follows it; the micro-step keeps which peripherals there
are, and every pending latch but the one an entry clears. -/
theorem runMove_pend {m : Move} {s t : State} (h : runMove m s = .next t) :
    ∃ b u, t = s.settle b u ∧ ∀ i, s.has i = true →
      u.has i = true ∧ ((u.inst i).pend = true ↔ m ≠ .enter i ∧ (s.inst i).pend = true) := by
  rcases runMove_keeps h with ⟨j, rfl, rfl⟩ | ⟨rfl, rfl⟩ | ⟨u, hk, rfl, hne, -⟩
  · refine ⟨_, _, rfl, fun i hi => ⟨(s.has_enter j i).trans hi, ?_⟩⟩
    by_cases hij : i = j
    · subst hij
      simp [State.inst_enter_self hi]
    · have hji : j ≠ i := fun e => hij e.symm
      simp [State.inst_enter_of_ne hij, hji]
  · exact ⟨_, _, rfl, fun i hi => ⟨hi, by simp⟩⟩
  · refine ⟨_, _, rfl, fun i hi => ⟨?_, by simp [hk.pend, hne]⟩⟩
    rw [State.has_iff, hk.length]
    exact (s.has_iff i).1 hi

/-- Settles O40: `settle_pend` over a micro-step that clears no latch but by the peripheral's own entry. -/
theorem pendingLatchFollowsTheLine : Obligations.PendingLatchFollowsTheLine := by
  intro s t u m i hchoose h hf hi before now
  rw [step_of_choose hchoose] at h
  obtain ⟨l, d, rfl⟩ := State.choose_cases hchoose
  obtain ⟨b, v, rfl, hv⟩ := runMove_pend h
  obtain ⟨hvi, hpend⟩ := hv i hi
  rw [State.settle_fault] at hf
  have hlatch := State.settle_pend (s := { s with sched := l, draws := d }) b hf hvi
  rw [hpend] at hlatch
  simp only [now, before, State.settle_active, State.settle_cfg, hlatch]
  exact ⟨fun hother hnow => .inr ⟨hnow, .inl hother⟩, fun _ hbefore hnow => .inr ⟨hnow, .inr hbefore⟩,
    id, fun hset hne => .inl ⟨hne, hset⟩⟩

/-- The latency counter after a move: an entry allows none, and only FG's own micro-step counts. -/
theorem runMove_lat {m : Move} {s t : State} (h : runMove m s = .next t) (hf : t.fault = none) :
    ((∀ i, t.allowed i = false) → t.lat = 0) ∧
    ((∃ i, t.allowed i = true) → (m = .fg → t.lat = s.lat + 1) ∧ (∀ d, m = .line d → t.lat = s.lat) ∧
      (m = .disp → t.lat = s.cfg.irqLatency) ∧ ∀ i, m ≠ .enter i) := by
  have hzero : ∀ {b u}, t = s.settle b u → (∀ i, t.allowed i = false) → t.lat = 0 := by
    rintro b u rfl hnone
    rw [State.settle_lat b ((State.settle_fault ..).symm.trans hf), (State.someAllowed_eq_false_iff _).2 hnone]
    rfl
  have hcount : ∀ {b u}, t = s.settle b u → (∃ i, t.allowed i = true) →
      u.active = none ∧ t.lat = if b then u.lat + 1 else u.lat := by
    rintro b u rfl ⟨i, hi⟩
    refine ⟨(State.settle_active ..).symm.trans (State.active_of_allowed hi), ?_⟩
    rw [State.settle_lat b ((State.settle_fault ..).symm.trans hf), (State.someAllowed_iff _).2 ⟨i, hi⟩, if_pos rfl]
  rcases runMove_keeps h with ⟨j, -, ht⟩ | ⟨rfl, ht⟩ | ⟨u, hk, ht, hne, hdisp⟩
  · refine ⟨hzero ht, fun hsome => ?_⟩
    obtain ⟨hactive, -⟩ := hcount ht hsome
    cases hactive
  · refine ⟨hzero ht, fun hsome => ⟨nofun, nofun, fun _ => ?_, nofun⟩⟩
    obtain ⟨-, hlat⟩ := hcount ht hsome
    exact hlat
  · refine ⟨hzero ht, fun hsome => ?_⟩
    obtain ⟨hactive, hlat⟩ := hcount ht hsome
    rw [hk.lat] at hlat
    refine ⟨?_, ?_, fun hm => absurd (hk.active.symm.trans hactive) (hdisp hm), hne⟩
    · rintro rfl
      exact hlat
    · rintro d rfl
      exact hlat

/-- Settles O41: the two conditions field by field, the guard of FG's move, and the counter after a move. -/
theorem latencyCounterBoundsTheForeground : Obligations.LatencyCounterBoundsTheForeground := by
  intro s t u rest m allowed
  refine ⟨s.allowed_iff, ?_, fun hs hf hmay => ?_, fun hchoose h hf => ?_⟩
  · simp only [State.fgMay_iff, State.allowed_iff, allowed]
  · rw [step_of_sched hs]
    exact State.guarded_of_not_may (s := { s with sched := rest }) hf hmay _
  · rw [step_of_choose hchoose] at h
    obtain ⟨l, d, rfl⟩ := State.choose_cases hchoose
    exact runMove_lat (s := { s with sched := l, draws := d }) h hf

end Sys2Proof.Machine
end

section
/-! The TransmitReady storm (70_reset_and_hazards.md R151): an empty TX ring and the Default handler leave TXEIE set,
so the exit latches the line again. -/

namespace Sys2Proof.Machine

theorem run_succ_of_next {M : Host.Core} {s t : M.State} (h : M.step s = .next t) (n : Nat) :
    M.run (n + 1) s = M.run n t := by rw [Host.Core.run, h]

theorem core_run_succ {s t : State} (h : step s = .next t) (n : Nat) :
    Sys2Proof.core.run (n + 1) s = Sys2Proof.core.run n t := run_succ_of_next (M := Sys2Proof.core) h n

theorem step_disp {s t : State} {i : InstId} {l : DLoc} {rest : List Move} (hs : s.sched = .disp :: rest)
    (ha : s.active = some i) (hl : s.dloc = some l) (hh : s.halt = none) (hf : s.fault = none)
    (h : dispStepAt i l { s with sched := rest } = .next t) :
    step s = .next (State.settle false { s with sched := rest } t) := by
  have hmay : State.dispMay { s with sched := rest } = true := by simp [State.dispMay, ha, hh, hf]
  rw [step_of_sched hs, runMove, State.guarded_of_may (s := { s with sched := rest }) hf hmay,
    dispStep_of_active (s := { s with sched := rest }) ha hl, h]
  rfl

/-- `t` is on the way of a storm of peripheral `i` that began in `s`: its dispatcher is at label `l`, and nothing is
changed but the pending latch that the entry cleared; `n` dispatcher micro-steps are scheduled, then `rest`. -/
structure State.Storm (s : State) (i : InstId) (rest : List Move) (l : DLoc) (n : Nat) (t : State) : Prop where
  sched : t.sched = List.replicate n .disp ++ rest
  active : t.active = some i
  dloc : t.dloc = some l
  halt : t.halt = none
  fault : t.fault = none
  gie : t.gie = true
  has : t.has i = true
  cfg : t.cfg = s.cfg
  fg : t.fg = s.fg
  mem : t.mem = s.mem
  trace : t.trace = s.trace
  inst : t.inst i = { s.inst i with pend := false }

section
variable {s : State} {i : InstId} {rest : List Move} {l l' : DLoc} {n : Nat} {t : State}

/-- What follows a micro-step latches nothing: the line is asserted as before. -/
theorem State.Storm.settle {u : State} (h : State.Storm s i rest l n t)
    (hline : (u.inst i).line u.cfg = (s.inst i).line s.cfg) :
    State.Storm s i rest l n (u.settle false t) where
  sched := (State.settle_sched ..).trans h.sched
  active := (State.settle_active ..).trans h.active
  dloc := (State.settle_dloc ..).trans h.dloc
  halt := (State.settle_halt ..).trans h.halt
  fault := (State.settle_fault ..).trans h.fault
  gie := (State.settle_gie ..).trans h.gie
  has := (State.settle_has ..).trans h.has
  cfg := (State.settle_cfg ..).trans h.cfg
  fg := (State.settle_fg ..).trans h.fg
  mem := (State.settle_mem ..).trans h.mem
  trace := (State.settle_trace ..).trans h.trace
  inst := by
    rw [State.settle_inst_latch false h.fault h.has, h.inst, h.cfg, h.active, hline, decide_eq_true rfl]
    exact Inst.latch_held rfl

/-- The entry of a storm. -/
theorem State.Storm.enter (hs : s.sched = .enter i :: (List.replicate n .disp ++ rest))
    (h : s.allowed i = true) (m : Nat) :
    ∃ t, Sys2Proof.core.run (m + 1) s = Sys2Proof.core.run m t ∧ State.Storm s i rest .c0 n t := by
  obtain ⟨hhalt, hfault, hgie, hi, -⟩ := (s.allowed_iff i).1 h
  let u : State := { s with sched := List.replicate n .disp ++ rest }
  have hentered : State.Storm s i rest .c0 n (u.enter i) :=
    ⟨rfl, rfl, rfl, hhalt, hfault, hgie, (u.has_enter i i).trans hi, rfl, rfl, rfl, rfl, State.inst_enter_self hi⟩
  exact ⟨_, core_run_succ (step_enter hs h) m, hentered.settle rfl⟩

/-- A micro-step of a storm that goes on at a label. -/
theorem State.Storm.goto (h : State.Storm s i rest l (n + 1) t)
    (hstep : ∀ u : State, u.cfg = s.cfg → u.inst i = { s.inst i with pend := false } →
      dispStepAt i l u = .next (u.dgoto l')) (m : Nat) :
    ∃ t', Sys2Proof.core.run (m + 1) t = Sys2Proof.core.run m t' ∧ State.Storm s i rest l' n t' := by
  let u : State := { t with sched := List.replicate n .disp ++ rest }
  have hmoved : State.Storm s i rest l' n (u.dgoto l') := { h with sched := rfl, dloc := rfl }
  have hline : (t.inst i).line t.cfg = (s.inst i).line s.cfg := by
    rw [h.inst, h.cfg]
    rfl
  exact ⟨_, core_run_succ (step_disp h.sched h.active h.dloc h.halt h.fault (hstep u h.cfg h.inst)) m,
    hmoved.settle hline⟩

/-- A test of the classification goes to its case or to the next test, as when the storm began. -/
theorem State.Storm.classify {hit miss : DLoc} {k : Kind} (h : State.Storm s i rest l (n + 1) t)
    (hl : ∀ u : State, dispStepAt i l u = u.classify i k hit miss)
    (hnext : (if (s.inst i).cause s.cfg k then hit else miss) = l') (m : Nat) :
    ∃ t', Sys2Proof.core.run (m + 1) t = Sys2Proof.core.run m t' ∧ State.Storm s i rest l' n t' := by
  refine h.goto (fun u hcfg hinst => ?_) m
  rw [hl, State.classify, hcfg, hinst, ← hnext]
  rfl

/-- The exit of a storm: with no dispatcher active the asserted line is latched, and LAT is at its bound. -/
theorem State.Storm.exit (h : State.Storm s i rest .x1 1 t) (hs : s.allowed i = true)
    (hline : (s.inst i).line s.cfg = true) :
    ∃ t', step t = .next t' ∧ t'.sched = rest ∧ t'.allowed i = true ∧ t'.fgMay = false ∧ t'.fg = s.fg ∧
      t'.inst i = s.inst i ∧ t'.mem = s.mem ∧ t'.trace = s.trace ∧ t'.lat = s.cfg.irqLatency := by
  obtain ⟨hsched, hactive, hdloc, hhalt, hfault, hgie, hi, hcfg, hfg, hmem, htrace, hinst⟩ := h
  obtain ⟨-, -, -, -, hvec, hpend, -⟩ := (s.allowed_iff i).1 hs
  let u : State := { t with sched := rest }
  let t' := State.settle false u u.exit
  have hinst' : t'.inst i = s.inst i := by
    have hasserted : (u.exit.inst i).line u.exit.cfg = true := by
      show (t.inst i).line t.cfg = true
      rw [hinst, hcfg]
      exact hline
    rw [State.settle_inst_latch (t := u.exit) false hfault hi, State.exit_active, decide_eq_false nofun,
      Inst.latch_asserted hasserted]
    show ({ t.inst i with pend := true } : Inst) = s.inst i
    rw [hinst, ← hpend]
  have hallowed : t'.allowed i = true := by
    rw [State.allowed_iff, hinst']
    exact ⟨(State.settle_halt ..).trans hhalt, (State.settle_fault ..).trans hfault, (State.settle_gie ..).trans hgie,
      (State.settle_has ..).trans hi, hvec, hpend, State.settle_active ..⟩
  have hlat : t'.lat = s.cfg.irqLatency := by
    rw [State.settle_lat (t := u.exit) false hfault, (State.someAllowed_iff t').2 ⟨i, hallowed⟩]
    exact congrArg Config.irqLatency hcfg
  refine ⟨t', step_disp hsched hactive hdloc hhalt hfault (dispStepAt_x1 ..), State.settle_sched .., hallowed, ?_,
    (State.settle_fg ..).trans hfg, hinst', (State.settle_mem ..).trans hmem, (State.settle_trace ..).trans htrace,
    hlat⟩
  rw [← Bool.not_eq_true, State.fgMay_iff]
  rintro ⟨-, -, -, -, hnone | hlt⟩
  · exact hnone i hallowed
  · rw [hlat, State.settle_cfg] at hlt
    exact absurd hlt (hcfg ▸ Nat.lt_irrefl _)

end

/-- Settles O42: the classification finds TransmitReady, the ring is empty, Default does nothing, and the exit latches
the line that TXE and TXEIE still assert. -/
theorem transmitReadyStormRepeats : Obligations.TransmitReadyStormRepeats := by
  intro s i rest hs hallowed hov hbk hpa hrb htr hempty hdefault
  have hline : (s.inst i).line s.cfg = true := by simp [Inst.line, htr]
  obtain ⟨t0, run0, h0⟩ := State.Storm.enter hs hallowed 8
  obtain ⟨t1, run1, h1⟩ := h0.classify (l' := .c1) (fun _ => rfl) (by rw [hov]; rfl) 7
  obtain ⟨t2, run2, h2⟩ := h1.classify (l' := .c2) (fun _ => rfl) (by rw [hbk]; rfl) 6
  obtain ⟨t3, run3, h3⟩ := h2.classify (l' := .c3) (fun _ => rfl) (by rw [hpa]; rfl) 5
  obtain ⟨t4, run4, h4⟩ := h3.classify (l' := .c4) (fun _ => rfl) (by rw [hrb]; rfl) 4
  obtain ⟨t5, run5, h5⟩ := h4.classify (l' := .tr1) (fun _ => rfl) (by rw [htr]; rfl) 3
  obtain ⟨t6, run6, h6⟩ := h5.goto (fun u _ hinst => dispStepAt_tr1_empty u i (by rw [hinst]; exact hempty)) 2
  obtain ⟨t7, run7, h7⟩ := h6.goto (l' := .x1) (fun u _ hinst =>
    (State.invoke_default none .x1 (k := .transmitReady) (by rw [hinst]; exact hdefault)).trans rfl) 1
  obtain ⟨t8, hstep, hend⟩ := h7.exit hallowed hline
  refine ⟨t8, ?_, hend⟩
  rw [run0, run1, run2, run3, run4, run5, run6, run7, core_run_succ hstep]
  rfl

end Sys2Proof.Machine
end

section
/-! The reset state of a launch (70_reset_and_hazards.md R144 to R146): its elements, and the invariants at it. -/

namespace Sys2Proof.Machine

theorem State.launch_eq_some_iff (l : Launch) (s : State) :
    State.launch l = some s ↔ l.legal = true ∧ l.toState = s := by simp [State.launch]

/-! One peripheral -/

theorem two_pow_capacityLog {c : Nat} (h : legalCapacity c = true) : 2 ^ (capacityLog c).val = c := by
  simp only [legalCapacity, Bool.and_eq_true, decide_eq_true_eq] at h
  obtain ⟨hpow, hlt⟩ := h
  have hlog : (capacityLog c).val = c.log2 := Nat.mod_eq_of_lt hlt
  rw [hlog, ← hpow]

theorem Ring.launch_canonical {c : Nat} {m : Memory} (hc : legalCapacity c = true) (hm : m.Canonical c) :
    (Ring.launch c m).Canonical := by
  unfold Ring.Canonical
  rw [show (Ring.launch c m).logC = capacityLog c from rfl, two_pow_capacityLog hc]
  exact hm

/-- A ring at reset is empty, and holds both indices below its capacity. -/
theorem Ring.launch_inRange (c : Nat) (m : Memory) : (Ring.launch c m).InRange := by
  have hpos : 0#32 < (Ring.launch c m).cap := Ring.lt_cap_iff.2 (Nat.two_pow_pos _)
  exact ⟨hpos, hpos⟩

theorem InstLaunch.canonical_of_legal {y : InstLaunch} (h : y.legal = true) : y.toInst.Canonical := by
  obtain ⟨hrx, htx⟩ := InstLaunch.legalCapacity_of_legal h
  simp only [InstLaunch.legal, Bool.and_eq_true] at h
  obtain ⟨⟨⟨⟨-, hrxWf⟩, hrxBelow⟩, htxWf⟩, htxBelow⟩ := h
  exact ⟨Ring.launch_canonical hrx ⟨hrxWf, hrxBelow⟩, Ring.launch_canonical htx ⟨htxWf, htxBelow⟩⟩

/-- At reset no source is enabled, so no line is asserted. -/
theorem InstLaunch.line_toInst (y : InstLaunch) (cfg : Config) : y.toInst.line cfg = false := by
  simp [Inst.line, Inst.cause, Inst.enabled, Inst.field, InstLaunch.toInst]

theorem reservedOf_zero (mask : Word) : ReservedOf mask 0#32 := BitVec.zero_and

theorem InstLaunch.reservedZero_toInst (y : InstLaunch) : y.toInst.ReservedZero where
  stat := show 0x000000C0#32 &&& ~~~statMask = 0#32 by decide
  brr := reservedOf_zero _
  ctrl := reservedOf_zero _
  ctrl2 := reservedOf_zero _
  ctrl3 := reservedOf_zero _

theorem InstLaunch.parityWithByte_toInst (y : InstLaunch) : y.toInst.ParityWithByte := fun hpe =>
  absurd (show (0x000000C0#32).getLsbD 0 = true from hpe) (by decide)

theorem Ring.InRange.bounded {q : Ring} (h : q.InRange) : q.Bounded := ⟨BitVec.le_of_lt h.1, BitVec.le_of_lt h.2⟩

/-! Every peripheral -/

section
variable (l : Launch)

theorem Launch.forall_insts {P : Inst → Prop} (h : ∀ y ∈ l.insts, P y.toInst) : ∀ x ∈ l.toState.insts, P x :=
  List.forall_mem_map.2 h

/-- A peripheral read from the reset state is one at reset, and so is what an absent one reads as. -/
theorem Launch.inst_toState (i : InstId) : ∃ y : InstLaunch, l.toState.inst i = y.toInst := by
  unfold State.inst
  by_cases hi : i.val < l.toState.insts.length
  · rw [List.getD_eq_getElem _ _ hi]
    obtain ⟨y, -, hy⟩ := List.mem_map.1 (List.getElem_mem hi)
    exact ⟨y, hy.symm⟩
  · rw [List.getD_eq_default _ _ (Nat.le_of_not_lt hi)]
    exact ⟨_, rfl⟩

theorem Launch.allowed_toState (i : InstId) : l.toState.allowed i = false := by
  obtain ⟨y, hy⟩ := l.inst_toState i
  have hpend : (l.toState.inst i).pend = false := by rw [hy]; rfl
  simp [State.allowed, hpend]

theorem Launch.fgMay_toState : l.toState.fgMay = true ↔ l.prog ≠ [] := by
  have hidle : ∀ i, ¬ l.toState.allowed i = true := fun i => by simp [l.allowed_toState i]
  rw [State.fgMay_iff, ← List.length_pos_iff]
  exact ⟨fun ⟨_, _, _, hpc, _⟩ => hpc, fun hpc => ⟨rfl, rfl, rfl, hpc, .inl hidle⟩⟩

/-- Both rings of a peripheral are in role at reset: they are in range, and no agent is inside an operation. -/
theorem Launch.inRole_toState {i : InstId} (hc : (l.toState.inst i).Canonical) :
    l.toState.RxInRole i ∧ l.toState.TxInRole i := by
  obtain ⟨y, hy⟩ := l.inst_toState i
  rw [hy] at hc
  unfold State.RxInRole State.TxInRole
  rw [hy]
  obtain ⟨hrxW, hrxR⟩ := Ring.launch_inRange y.cRx y.rxBuf0
  obtain ⟨htxW, htxR⟩ := Ring.launch_inRange y.cTx y.txBuf0
  obtain ⟨⟨hrxWf, -⟩, htxWf, -⟩ := hc
  exact ⟨⟨hrxWf, hrxW, hrxR⟩, htxWf, htxR, htxW⟩

end

/-- Settles O58: a legal launch has the machine `Launch.toState`, whose elements are those of R144 by definition, the
capacities since a legal one is a power of two. -/
theorem resetStateOfEveryLaunch : Obligations.ResetStateOfEveryLaunch := by
  intro l hl
  refine ⟨_, (State.launch_eq_some_iff ..).2 ⟨hl, rfl⟩, rfl, rfl, rfl, rfl, rfl, rfl, rfl, rfl, rfl, rfl, rfl,
    List.length_map .., fun n y hy => ⟨y.toInst, ?_, ?_⟩⟩
  · rw [Launch.toState, List.getElem?_map, hy]
    rfl
  · obtain ⟨-, -, hinsts⟩ := Launch.insts_of_legal hl
    obtain ⟨hrx, htx⟩ := InstLaunch.legalCapacity_of_legal (hinsts y (List.mem_of_getElem? hy))
    exact ⟨rfl, rfl, rfl, rfl, two_pow_capacityLog hrx, two_pow_capacityLog htx, fun k => by cases k <;> rfl,
      rfl, rfl, rfl, rfl, rfl, rfl, rfl, rfl, rfl, rfl, rfl⟩

/-- Settles O60: at reset no latch is pending and no source enabled, FG stands at an operation's start, no dispatcher is
active, and a legal launch has canonical memories. -/
theorem resetIsQuietAndMeetsTheInvariants : Obligations.ResetIsQuietAndMeetsTheInvariants := by
  intro l s hs
  obtain ⟨hl, rfl⟩ := (State.launch_eq_some_iff ..).1 hs
  obtain ⟨-, -, hinsts⟩ := Launch.insts_of_legal hl
  have hmem : Memory.Canonical (2 ^ 32) l.mem0 := by
    simp only [Launch.legal, Bool.and_eq_true] at hl
    obtain ⟨⟨-, hwf⟩, hbelow⟩ := hl
    exact ⟨hwf, hbelow⟩
  have hcanonical : ∀ x ∈ l.toState.insts, x.Canonical :=
    l.forall_insts fun y hy => InstLaunch.canonical_of_legal (hinsts y hy)
  refine ⟨l.allowed_toState, l.forall_insts fun y _ => y.line_toInst _, l.fgMay_toState,
    (State.memoriesCanonical_iff _).2 ⟨hmem, hcanonical⟩,
    (State.reservedZero_iff _).2 (l.forall_insts fun y _ => y.reservedZero_toInst),
    l.forall_insts fun y _ => y.parityWithByte_toInst,
    l.forall_insts fun _ _ => ⟨(Ring.launch_inRange ..).bounded, (Ring.launch_inRange ..).bounded⟩,
    trivial, trivial, trivial, fun i hi => ?_⟩
  have hlt := (State.has_iff _ _).1 hi
  refine l.inRole_toState ?_
  rw [State.inst, List.getD_eq_getElem _ _ hlt]
  exact hcanonical _ (List.getElem_mem hlt)

end Sys2Proof.Machine
end
